-- ==== Sys2Proof/Word.lean ====
section
/-! DEFINITION. The bit strings of the block (rule R5: bit 0 is the least significant bit of every value) and the
fixed-size tuples its results and its filter state come in. -/

namespace Sys2Proof

/-- A byte: a device address, a register address, a transferred byte. -/
abbrev Byte := BitVec 8

/-- A register word, a timeout, a 16-bit control register (R47: the byte transferred first is bits 15:8). -/
abbrev HalfWord := BitVec 16

/-- A result word (R10: 32 bits). -/
abbrev Word := BitVec 32

/-- A command word (R70: 80 bits, numbered 79 to 0). -/
abbrev CommandWord := BitVec 80

/-- Three values of one kind: an X, Y, Z vector, or three angles in the order of their rule. -/
structure Vec3 (α : Type) where
  /-- The first value. -/
  x : α
  /-- The second value. -/
  y : α
  /-- The third value. -/
  z : α
deriving DecidableEq, Repr, Inhabited

/-- The three values in order. -/
def Vec3.toList {α : Type} (v : Vec3 α) : List α := [v.x, v.y, v.z]

/-- One function on each value. -/
def Vec3.map {α β : Type} (f : α → β) (v : Vec3 α) : Vec3 β := ⟨f v.x, f v.y, f v.z⟩

end Sys2Proof
end

