-- ==== Sys2Proof/Syntax.lean ====
section
/-! DEFINITION. The 34 commands as terms (rule R74), each with the fields rule R71 says it uses, at their
widths in the command word (R70). A field a command does not use is no operand of its constructor. -/

namespace Sys2Proof

/-- Where a bus command takes its timeout from (R45, R72): FLAGS.TD = 1 uses TMOD, FLAGS.TD = 0 uses the TMO field.
With TD = 1 the TMO field is not used (R71). -/
inductive Timeout where
  /-- TD = 1: the default-timeout register TMOD. -/
  | default
  /-- TD = 0: this many milliseconds (0 means no bound). -/
  | ms (value : HalfWord)
deriving DecidableEq, Repr

/-- The 34 commands (R74), in the order of the opcode table. -/
inductive Instr where
  /-- 0x10 RDBIT (R101): read bit `start` of a register byte. -/
  | rdbit (dev reg start : Byte) (tmo : Timeout)
  /-- 0x11 RDBITW (R102): read bit `start` of a register word. -/
  | rdbitw (dev reg start : Byte) (tmo : Timeout)
  /-- 0x12 RDBITS (R103): read a bit-run of a register byte. -/
  | rdbits (dev reg start len : Byte) (tmo : Timeout)
  /-- 0x13 RDBITSW (R104): read a bit-run of a register word. -/
  | rdbitsw (dev reg start len : Byte) (tmo : Timeout)
  /-- 0x14 RDBYTE (R105): read a single byte. -/
  | rdbyte (dev reg : Byte) (tmo : Timeout)
  /-- 0x15 RDWORD (R106): read a single word. -/
  | rdword (dev reg : Byte) (tmo : Timeout)
  /-- 0x16 RDBYTES (R107): read `len` bytes into DB; `inc` is FLAGS.AI. -/
  | rdbytes (dev reg len : Byte) (inc : Bool) (tmo : Timeout)
  /-- 0x17 RDWORDS (R108): read `len` words into DB; `inc` is FLAGS.AI. -/
  | rdwords (dev reg len : Byte) (inc : Bool) (tmo : Timeout)
  /-- 0x20 WRBIT (R120): write bit `start` of a register byte; `bit` is DATA[0]. -/
  | wrbit (dev reg start : Byte) (bit : Bool) (tmo : Timeout)
  /-- 0x21 WRBITW (R121): write bit `start` of a register word; `bit` is DATA[0]. -/
  | wrbitw (dev reg start : Byte) (bit : Bool) (tmo : Timeout)
  /-- 0x22 WRBITS (R122): write a bit-run of a register byte. -/
  | wrbits (dev reg start len : Byte) (data : HalfWord) (tmo : Timeout)
  /-- 0x23 WRBITSW (R123): write a bit-run of a register word. -/
  | wrbitsw (dev reg start len : Byte) (data : HalfWord) (tmo : Timeout)
  /-- 0x24 WRBYTE (R124): write a single byte, DATA[7:0]. -/
  | wrbyte (dev reg data : Byte) (tmo : Timeout)
  /-- 0x25 WRWORD (R125): write a single word, DATA[15:0]. -/
  | wrword (dev reg : Byte) (data : HalfWord) (tmo : Timeout)
  /-- 0x26 WRBYTES (R126): write `len` bytes of DB. -/
  | wrbytes (dev reg len : Byte) (tmo : Timeout)
  /-- 0x27 WRWORDS (R127): write `len` words of DB. -/
  | wrwords (dev reg len : Byte) (tmo : Timeout)
  /-- 0x40 DQ16 (R143): quaternion, raw 16-bit integers. -/
  | dq16
  /-- 0x41 DQ32 (R144): quaternion, raw 32-bit integers. -/
  | dq32
  /-- 0x42 DGYRO (R145): gyro vector, raw integers. -/
  | dgyro
  /-- 0x43 DACC (R146): accel vector, raw integers. -/
  | dacc
  /-- 0x44 DMAG (R147): mag vector, raw integers. -/
  | dmag
  /-- 0x48 DQF (R164): unit quaternion, floating. -/
  | dqf
  /-- 0x49 DGYROF (R165): gyro vector, floating. -/
  | dgyrof
  /-- 0x4A DACCF (R166): accel vector, floating. -/
  | daccf
  /-- 0x4B DMAGF (R167): mag vector, floating. -/
  | dmagf
  /-- 0x4C DGRAV (R169): gravity vector. -/
  | dgrav
  /-- 0x4D DEULER (R170): Euler angles. -/
  | deuler
  /-- 0x4E DYPR (R171): yaw, pitch, roll. -/
  | dypr
  /-- 0x4F DLINACC (R174, R175): linear acceleration; `lp` is FLAGS.LP. -/
  | dlinacc (lp : Bool)
  /-- 0x80 CFGRD (R192): read control register number `num`. -/
  | cfgrd (num : Byte)
  /-- 0x81 CFGWR (R193): write control register number `num`. -/
  | cfgwr (num : Byte) (data : HalfWord)
  /-- 0x82 BUFRD (R194): read data-buffer byte `idx`. -/
  | bufrd (idx : Byte)
  /-- 0x83 BUFWR (R195): write data-buffer byte `idx` with DATA[7:0]. -/
  | bufwr (idx data : Byte)
  /-- 0x84 LARST (R196): clear the low-pass filter state. -/
  | larst
deriving DecidableEq, Repr

end Sys2Proof
end

