-- ==== Sys2Proof/Decode.lean ====
section
/-! DEFINITION. The command format C80 (R70 to R73), the opcode map (R74), the refusals of reserved encodings
(R75, R82), and the encoder that follows the same tables (R80). -/

namespace Sys2Proof

/-- The eight fields of a command word (R70). -/
structure Fields where
  /-- Bits 79:72. -/
  op : Byte
  /-- Bits 71:64. -/
  dev : Byte
  /-- Bits 63:56. -/
  reg : Byte
  /-- Bits 55:48. -/
  start : Byte
  /-- Bits 47:40. -/
  len : Byte
  /-- Bits 39:32. -/
  flags : Byte
  /-- Bits 31:16. -/
  tmo : HalfWord
  /-- Bits 15:0. -/
  data : HalfWord
deriving DecidableEq, Repr

/-- Why a command word or a byte string is no command (R75, R82). The engine answers the first two with
CallerContractViolation; a byte string of another length than 10 is no command word at all (R70). -/
inductive DecodeReject where
  /-- One of FLAGS[7:3] is set; tested before the opcode (R82). -/
  | reservedFlags (flags : Byte)
  /-- An OP value that is not in rule R74. -/
  | reservedOpcode (op : Byte)
  /-- Not 10 bytes. -/
  | wrongLength (bytes : Nat)
deriving DecidableEq, Repr

/-- The fields of a command word (R70). -/
def fieldsOf (w : CommandWord) : Fields where
  op := w.extractLsb' 72 8
  dev := w.extractLsb' 64 8
  reg := w.extractLsb' 56 8
  start := w.extractLsb' 48 8
  len := w.extractLsb' 40 8
  flags := w.extractLsb' 32 8
  tmo := w.extractLsb' 16 16
  data := w.extractLsb' 0 16

/-- The command word with these fields (R70): OP in the most significant byte, DATA in the least significant two. -/
def wordOf (f : Fields) : CommandWord :=
  f.op ++ f.dev ++ f.reg ++ f.start ++ f.len ++ f.flags ++ f.tmo ++ f.data

/-- FLAGS bit 0, TD, selects TMOD; otherwise the TMO field is the timeout (R72, R45). -/
def Fields.timeout (f : Fields) : Timeout := if f.flags.getLsbD 0 then .default else .ms f.tmo

/-- FLAGS bit 1, AI (R72). -/
def Fields.ai (f : Fields) : Bool := f.flags.getLsbD 1

/-- FLAGS bit 2, LP (R72). -/
def Fields.lp (f : Fields) : Bool := f.flags.getLsbD 2

/-- The opcode map R74 on the fields, each command taking the fields R71 gives it. -/
def decodeOpcode (f : Fields) : Except DecodeReject Instr :=
    match f.op.toNat with
    | 0x10 => .ok (.rdbit f.dev f.reg f.start f.timeout)
    | 0x11 => .ok (.rdbitw f.dev f.reg f.start f.timeout)
    | 0x12 => .ok (.rdbits f.dev f.reg f.start f.len f.timeout)
    | 0x13 => .ok (.rdbitsw f.dev f.reg f.start f.len f.timeout)
    | 0x14 => .ok (.rdbyte f.dev f.reg f.timeout)
    | 0x15 => .ok (.rdword f.dev f.reg f.timeout)
    | 0x16 => .ok (.rdbytes f.dev f.reg f.len f.ai f.timeout)
    | 0x17 => .ok (.rdwords f.dev f.reg f.len f.ai f.timeout)
    | 0x20 => .ok (.wrbit f.dev f.reg f.start (f.data.getLsbD 0) f.timeout)
    | 0x21 => .ok (.wrbitw f.dev f.reg f.start (f.data.getLsbD 0) f.timeout)
    | 0x22 => .ok (.wrbits f.dev f.reg f.start f.len f.data f.timeout)
    | 0x23 => .ok (.wrbitsw f.dev f.reg f.start f.len f.data f.timeout)
    | 0x24 => .ok (.wrbyte f.dev f.reg (f.data.setWidth 8) f.timeout)
    | 0x25 => .ok (.wrword f.dev f.reg f.data f.timeout)
    | 0x26 => .ok (.wrbytes f.dev f.reg f.len f.timeout)
    | 0x27 => .ok (.wrwords f.dev f.reg f.len f.timeout)
    | 0x40 => .ok .dq16
    | 0x41 => .ok .dq32
    | 0x42 => .ok .dgyro
    | 0x43 => .ok .dacc
    | 0x44 => .ok .dmag
    | 0x48 => .ok .dqf
    | 0x49 => .ok .dgyrof
    | 0x4A => .ok .daccf
    | 0x4B => .ok .dmagf
    | 0x4C => .ok .dgrav
    | 0x4D => .ok .deuler
    | 0x4E => .ok .dypr
    | 0x4F => .ok (.dlinacc f.lp)
    | 0x80 => .ok (.cfgrd f.reg)
    | 0x81 => .ok (.cfgwr f.reg f.data)
    | 0x82 => .ok (.bufrd f.reg)
    | 0x83 => .ok (.bufwr f.reg (f.data.setWidth 8))
    | 0x84 => .ok .larst
    | _ => .error (.reservedOpcode f.op)

/-- Decode order (R82): reserved flag bits first, then the opcode. -/
def decodeWord (w : CommandWord) : Except DecodeReject Instr :=
  let f := fieldsOf w
  if f.flags >>> 3 ≠ 0 then .error (.reservedFlags f.flags) else decodeOpcode f

/-- A command word as it travels on a byte-serial port, most significant byte first (R70). -/
def bytesOfWord (w : CommandWord) : List Byte :=
  [w.extractLsb' 72 8, w.extractLsb' 64 8, w.extractLsb' 56 8, w.extractLsb' 48 8, w.extractLsb' 40 8,
   w.extractLsb' 32 8, w.extractLsb' 24 8, w.extractLsb' 16 8, w.extractLsb' 8 8, w.extractLsb' 0 8]

/-- Ten bytes of a byte-serial port as a command word (R70); no other number of bytes is one. -/
def wordOfBytes : List Byte → Option CommandWord
  | [b0, b1, b2, b3, b4, b5, b6, b7, b8, b9] => some (b0 ++ b1 ++ b2 ++ b3 ++ b4 ++ b5 ++ b6 ++ b7 ++ b8 ++ b9)
  | _ => none

/-- The decoder on bytes, total: a command or a rejection by name. -/
def decode (bytes : List Byte) : Except DecodeReject Instr :=
  match wordOfBytes bytes with
  | some w => decodeWord w
  | none => .error (.wrongLength bytes.length)

/-- The flags byte of a bus command: TD from the timeout, AI as given (R72). -/
def busFlags (tmo : Timeout) (inc : Bool) : Byte :=
  (match tmo with | .default => 1 | .ms _ => 0) ||| (if inc then 2 else 0)

/-- The TMO field of a bus command: 0 with TD = 1 (R80). -/
def tmoField : Timeout → HalfWord
  | .default => 0
  | .ms v => v

/-- DATA of a single-bit write: the bit in DATA[0] (R73). -/
def bitData (bit : Bool) : HalfWord := if bit then 1 else 0

/-- A bus command's word; fields the command does not use are 0 (R80). -/
def busWord (op dev reg : Byte) (tmo : Timeout) (start len : Byte) (inc : Bool) (data : HalfWord) : CommandWord :=
  wordOf { op, dev, reg, start, len, flags := busFlags tmo inc, tmo := tmoField tmo, data }

/-- The word of a command that uses at most REG, FLAGS and DATA; the rest is 0 (R80). -/
def plainWord (op reg flags : Byte) (data : HalfWord) : CommandWord :=
  wordOf { op, dev := 0, reg, start := 0, len := 0, flags, tmo := 0, data }

/-- The encoder, from the field table R71 and the syntax R80. -/
def encode : Instr → CommandWord
  | .rdbit dev reg start tmo => busWord 0x10 dev reg tmo start 0 false 0
  | .rdbitw dev reg start tmo => busWord 0x11 dev reg tmo start 0 false 0
  | .rdbits dev reg start len tmo => busWord 0x12 dev reg tmo start len false 0
  | .rdbitsw dev reg start len tmo => busWord 0x13 dev reg tmo start len false 0
  | .rdbyte dev reg tmo => busWord 0x14 dev reg tmo 0 0 false 0
  | .rdword dev reg tmo => busWord 0x15 dev reg tmo 0 0 false 0
  | .rdbytes dev reg len inc tmo => busWord 0x16 dev reg tmo 0 len inc 0
  | .rdwords dev reg len inc tmo => busWord 0x17 dev reg tmo 0 len inc 0
  | .wrbit dev reg start bit tmo => busWord 0x20 dev reg tmo start 0 false (bitData bit)
  | .wrbitw dev reg start bit tmo => busWord 0x21 dev reg tmo start 0 false (bitData bit)
  | .wrbits dev reg start len data tmo => busWord 0x22 dev reg tmo start len false data
  | .wrbitsw dev reg start len data tmo => busWord 0x23 dev reg tmo start len false data
  | .wrbyte dev reg data tmo => busWord 0x24 dev reg tmo 0 0 false (data.setWidth 16)
  | .wrword dev reg data tmo => busWord 0x25 dev reg tmo 0 0 false data
  | .wrbytes dev reg len tmo => busWord 0x26 dev reg tmo 0 len false 0
  | .wrwords dev reg len tmo => busWord 0x27 dev reg tmo 0 len false 0
  | .dq16 => plainWord 0x40 0 0 0
  | .dq32 => plainWord 0x41 0 0 0
  | .dgyro => plainWord 0x42 0 0 0
  | .dacc => plainWord 0x43 0 0 0
  | .dmag => plainWord 0x44 0 0 0
  | .dqf => plainWord 0x48 0 0 0
  | .dgyrof => plainWord 0x49 0 0 0
  | .daccf => plainWord 0x4A 0 0 0
  | .dmagf => plainWord 0x4B 0 0 0
  | .dgrav => plainWord 0x4C 0 0 0
  | .deuler => plainWord 0x4D 0 0 0
  | .dypr => plainWord 0x4E 0 0 0
  | .dlinacc lp => plainWord 0x4F 0 (if lp then 4 else 0) 0
  | .cfgrd num => plainWord 0x80 num 0 0
  | .cfgwr num data => plainWord 0x81 num 0 data
  | .bufrd idx => plainWord 0x82 idx 0 0
  | .bufwr idx data => plainWord 0x83 idx 0 (data.setWidth 16)
  | .larst => plainWord 0x84 0 0 0

/-- The bytes of a command on a byte-serial port. -/
def encodeBytes (i : Instr) : List Byte := bytesOfWord (encode i)

/-- The instruction the decoder reads from an instruction whose bits are `w`, numbered as `spec/opcode_table.json`
numbers them: one 80-bit word, bit 79 the top bit of OP, laid out as the ten bytes R70 orders. -/
def decodeTableWord (nbits w : Nat) : Option Instr :=
  match decode (bytesOfWord (BitVec.ofNat 80 (w % 2 ^ nbits))) with
  | .ok i => some i
  | .error _ => none

end Sys2Proof
end

