-- ==== Sys2Proof/Machine/Bus.lean ====
section
/-! DEFINITION. The words of the bus-driver interface (R42, R43, R44): the calls the engine issues and the answers
it may get. Types only; what the engine makes of an answer stands in Machine/Ops.lean. -/

namespace Sys2Proof.Machine

/-- A bus-driver call. -/
inductive BusCall where
  /-- `BusWrite(dev, bytes)` (R42). -/
  | write (dev : Byte) (bytes : List Byte)
  /-- `BusRead(dev, n)` (R43). -/
  | read (dev : Byte) (n : Nat)
deriving DecidableEq, Repr

/-- What a driver call that returns reports. -/
inductive Reply where
  /-- The driver acknowledges and delivers these bytes. To a write call it is `Pass`, whatever the bytes; to a read call
  of n bytes it is `Pass(bytes)` when there are n of them and `Short(m)` when there are m ≠ n (R42, R43). -/
  | ack (bytes : List Byte)
  /-- `Nack`: the driver reports failure. -/
  | nack
deriving DecidableEq, Repr

/-- One draw of the oracle (R44): what becomes of a call that was issued. -/
inductive CallEvent where
  /-- The call returns this reply after this many milliseconds. -/
  | answered (ms : Nat) (reply : Reply)
  /-- The call never returns (duration ∞). -/
  | never
  /-- Reset is asserted while the call is in flight (R242). -/
  | resetAsserted
deriving DecidableEq, Repr, Inhabited

/-- A byte-addressed store: a list of (address, byte) cells, addresses strictly rising (`Memory.wf`). An unlisted
address holds no value. -/
abbrev Memory := List Host.Cell

/-- What a vector says of one call to the ideal device of rule R60, where it says anything but "passes in 0 ms". -/
inductive FixtureAnswer where
  /-- The call passes after this many milliseconds. -/
  | passes (ms : Nat)
  /-- The call is answered Nack after this many milliseconds. -/
  | nack (ms : Nat)
  /-- A read delivers this many bytes after this many milliseconds: `Short` where another number was asked (R43). -/
  | short (ms count : Nat)
  /-- The call never returns. -/
  | never
  /-- Reset is asserted while the call is in flight (R242). -/
  | resetAsserted
deriving DecidableEq, Repr

/-- The ideal device of rule R60: a test fixture, not hardware. Device address and register address together key a byte as
`256 * dev + reg`. -/
structure IdealDevice where
  /-- `MEM[dev][reg]`; an unlisted byte is 0. -/
  mem : Memory
  /-- `PTR[dev]`, keyed by dev; an unlisted pointer is 0. -/
  ptr : Memory
  /-- The queue ports with the bytes each still holds, oldest first. -/
  queues : List (Nat × List Byte)
  /-- What the vector says of the coming calls, call by call; every call beyond the list passes in 0 ms. -/
  plan : List FixtureAnswer := []
deriving DecidableEq, Repr

/-- The bus side as the model holds it: the one oracle of R7 and R44. -/
inductive BusSide where
  /-- These draws in order, for whatever calls come; when they run out every further draw is a free value. -/
  | scripted (draws : List CallEvent)
  /-- The fixture of R60 answers, every call in 0 ms unless its plan says otherwise. -/
  | ideal (device : IdealDevice)
deriving DecidableEq, Repr

end Sys2Proof.Machine
end

