-- ==== Sys2Proof/Machine/Memory.lean ====
section
/-! DEFINITION. The operations of a byte store (R14): read one byte, write one, drop one, read a run, write a run, and
the canonical form they keep (addresses strictly rising). Used for DB with its valid bits, and by the fixture of R60. -/

namespace Sys2Proof.Machine

/-- The byte at an address; `none` when it holds no value. -/
def Memory.read : Memory → Nat → Option Byte
  | [], _ => none
  | (k, b) :: rest, a => if k = a then some b else Memory.read rest a

/-- The store with byte `b` at address `a`. -/
def Memory.write : Memory → Nat → Byte → Memory
  | [], a, b => [(a, b)]
  | (k, c) :: rest, a, b =>
    if a < k then (a, b) :: (k, c) :: rest
    else if a = k then (a, b) :: rest
    else (k, c) :: Memory.write rest a b

/-- The store without a value at address `a`. -/
def Memory.erase : Memory → Nat → Memory
  | [], _ => []
  | (k, c) :: rest, a => if k = a then rest else (k, c) :: Memory.erase rest a

/-- The store with these bytes at `a`, `a + 1`, … -/
def Memory.writeRun : Memory → Nat → List Byte → Memory
  | m, _, [] => m
  | m, a, b :: rest => Memory.writeRun (Memory.write m a b) (a + 1) rest

/-- The `n` bytes at `a`, `a + 1`, …; `none` when one of them holds no value. -/
def Memory.readRun (m : Memory) : Nat → Nat → Option (List Byte)
  | _, 0 => some []
  | a, n + 1 =>
    match Memory.read m a, Memory.readRun m (a + 1) n with
    | some b, some rest => some (b :: rest)
    | _, _ => none

/-- Every address of the store is below `limit`. -/
def Memory.below (limit : Nat) : Memory → Bool
  | [] => true
  | (k, _) :: rest => decide (k < limit) && Memory.below limit rest

/-- Every address of the store is above `floor`. -/
def Memory.above (floor : Nat) : Memory → Bool
  | [] => true
  | (k, _) :: rest => decide (floor < k) && Memory.above floor rest

/-- The canonical form: addresses strictly rising. -/
def Memory.wf : Memory → Bool
  | [] => true
  | (k, _) :: rest => Memory.above k rest && Memory.wf rest

end Sys2Proof.Machine
end

