-- ==== Sys2Proof/Config.lean ====
section
/-! DEFINITION. What an implementation fixes (R4) and the free values. An `opaque` constant here has no body: nothing
can be proved of its value, so a claim that mentions it holds whatever the value is. -/

namespace Sys2Proof

/-- An exact real of the decoder (R161, R162): the real ± √`square`, minus where `neg`. A rational q is √(q²) with the sign
of q, and a quaternion component Wr / √S is √(Wr² / S) with the sign of Wr. The smart constructors of
Machine/Numerics.lean give `neg := false` at 0, so that equal reals are equal data. -/
structure ExactReal where
  /-- The real is negative. -/
  neg : Bool
  /-- The square of the real. -/
  square : Rat
deriving DecidableEq, Repr

/-- The unit quaternion (w, x, y, z) in exact reals (R162). -/
structure UnitQuat where
  /-- The w component. -/
  w : ExactReal
  /-- The x component. -/
  x : ExactReal
  /-- The y component. -/
  y : ExactReal
  /-- The z component. -/
  z : ExactReal
deriving DecidableEq, Repr

/-- A numerics record NUM (R161): the rounding of an exact real to its 32-bit pattern, and the real a pattern denotes. -/
structure Numerics where
  /-- `rnd`. -/
  rnd : ExactReal → Word
  /-- `val`. -/
  val : Word → Rat
  /-- The pattern denotes a real: it is no NaN and no infinity. -/
  isNumber : Word → Bool
deriving Inhabited

/-- A numerics record of which only rule R176 is known: what the document requires "whatever NUM is". 2^17 bounds every value this block
computes (R161). The defaults only show that such a record exists; they choose none. -/
structure OpenNumerics where
  /-- `rnd`. -/
  rnd : ExactReal → Word := fun _ => 0
  /-- `val`. -/
  val : Word → Rat := fun _ => 0
  /-- The pattern denotes a real. -/
  isNumber : Word → Bool := fun _ => true
  /-- The "floating tolerance" of P3, whose number the source does not give. -/
  tolerance : Rat := 1
  /-- P2: no value this block computes rounds to a NaN or an infinity. -/
  rnd_isNumber : ∀ x : ExactReal, x.square ≤ 2 ^ 34 → isNumber (rnd x) = true := by first | exact fun _ _ => rfl | assumption
  /-- P2, for the filter, which reads a rounded value back: rounding does not leave the range of the block's values (R161). -/
  val_rnd_range : ∀ x : ExactReal, x.square ≤ 2 ^ 34 → val (rnd x) ^ 2 ≤ 2 ^ 34 := by
    first | (intro _ _; norm_num) | assumption
  /-- P3: the rounded gravity vector has magnitude 1 within the tolerance. -/
  gravity_unit : ∀ x y z : Rat, x ^ 2 + y ^ 2 + z ^ 2 = 1 →
      |val (rnd ⟨decide (x < 0), x * x⟩) ^ 2 + val (rnd ⟨decide (y < 0), y * y⟩) ^ 2 +
        val (rnd ⟨decide (z < 0), z * z⟩) ^ 2 - 1| ≤ tolerance := by
    first | (intro _ _ _ _; norm_num) | assumption
deriving Inhabited

/-- An exact real below 4 in magnitude, as the angle functions give them (R161: "angles below 4"): ± √(k / (den + 1)) with k the
remainder of `num` modulo 16·(den + 1), minus where `neg`. Free data of this form, so that an open function may have any such value. -/
structure Angle where
  /-- The real is negative, if it is not 0. -/
  neg : Bool
  /-- The numerator of the square, before the remainder is taken. -/
  num : Nat
  /-- The denominator of the square, less 1. -/
  den : Nat
deriving DecidableEq, Repr, Inhabited

/-- Which numerics record the block has (R4: NUM is OPEN, binary32 suggested). -/
inductive NumericsChoice where
  /-- IEEE 754 binary32, round to nearest even (R161's suggestion). -/
  | binary32
  /-- Another record, unknown to the model. -/
  | other (which : Nat)
deriving DecidableEq, Repr, Inhabited

/-- BUS_CAP, QEPS_SQ_RAW and DEFAULT_TIMEOUT_MS within the constraints of R4, and the choice of NUM: the
parameters that are plain data. -/
structure Params where
  /-- BUS_CAP: the largest number of bytes one driver call carries. -/
  busCap : Nat
  /-- R4: BUS_CAP is at least 3. -/
  busCap_ge : 3 ≤ busCap := by decide
  /-- R4: BUS_CAP is at most 256. -/
  busCap_le : busCap ≤ 256 := by decide
  /-- DEFAULT_TIMEOUT_MS: the reset value of TMOD. -/
  defaultTimeoutMs : HalfWord
  /-- QEPS_SQ_RAW: the degenerate-quaternion threshold. -/
  qepsSqRaw : Nat
  /-- R4: QEPS_SQ_RAW is at least 1. -/
  qepsSqRaw_ge : 1 ≤ qepsSqRaw := by decide
  /-- R4: QEPS_SQ_RAW is at most 2^44. -/
  qepsSqRaw_le : qepsSqRaw ≤ 2 ^ 44 := by decide
  /-- Which NUM. -/
  numerics : NumericsChoice
deriving DecidableEq, Repr

/-- BUS_CAP less 3 (R4, D11: OPEN). -/
opaque Config.busCapLess3 : Fin 254

/-- DEFAULT_TIMEOUT_MS (R4, D17: OPEN). -/
opaque Config.defaultTimeoutMs : HalfWord

/-- QEPS_SQ_RAW less 1 (R4, D33: OPEN). -/
opaque Config.qepsSqRawLess1 : BitVec 44

/-- Which NUM the block has (R4, D32: OPEN). -/
opaque Config.numericsChoice : NumericsChoice

/-- The numerics records other than the suggested one (R161, R176). -/
opaque Config.otherNumerics : Nat → OpenNumerics

/-- `val` of the binary32 patterns that denote no real (infinities and NaN patterns); no run produces one (R161, R176). -/
opaque Config.valOfNonNumber : Word → Rat

/-- EULER_FN (R170, R172: OPEN): psi, theta, phi in radians, a total function of the unit quaternion alone. Each angle is given by a real of
the form `Angle` that rounds as it does. -/
opaque Config.eulerFn : UnitQuat → Vec3 Angle

/-- YPR_FN (R171, R173: OPEN): yaw, pitch, roll in radians, a total function of the quaternion and the gravity vector alone, in the form
of `Config.eulerFn`. -/
opaque Config.yprFn : UnitQuat → Vec3 Rat → Vec3 Angle

/-- The free value of an unspecified 32-bit register, by the number of the draw (R10, R218, R196). -/
opaque Config.freeWord : Nat → Word

/-- The oracle's free answer to a driver call, by the number of the draw (R44). -/
opaque Config.freeEvent : Nat → Machine.BusCall → Machine.CallEvent

/-- The parameters of the block at hand, each anywhere within its constraint. -/
def Config.params : Params where
  busCap := 3 + Config.busCapLess3.val
  busCap_ge := Nat.le_add_right 3 _
  busCap_le := by have := Config.busCapLess3.isLt; omega
  defaultTimeoutMs := Config.defaultTimeoutMs
  qepsSqRaw := 1 + Config.qepsSqRawLess1.toNat
  qepsSqRaw_ge := Nat.le_add_right 1 _
  qepsSqRaw_le := by have := Config.qepsSqRawLess1.isLt; omega
  numerics := Config.numericsChoice

end Sys2Proof
end

