-- ==== Sys2Proof/Machine/State.lean ====
section
/-! DEFINITION. The state of the block (R10 to R26), the bus side and the command and response ports beside it
(R7, R12, R44, R79), the status codes (R210), and the state after reset (R28, R241). Plain data throughout. -/

namespace Sys2Proof.Machine

/-- The six failure statuses (R210 to R216). -/
inductive Failure where
  /-- 1, the deadline was reached (R211). -/
  | busTimeout
  /-- 2, the driver reported failure in time (R212). -/
  | busNack
  /-- 3, a read delivered the wrong number of bytes (R213). -/
  | malformedResponse
  /-- 4, a channel the command reads is not enabled (R214). -/
  | channelNotPresent
  /-- 5, the quaternion is too short to normalise (R215). -/
  | decodeDegenerate
  /-- 6, a request the caller should not have made (R216). -/
  | callerContractViolation
deriving DecidableEq, Repr

/-- The outcome of a completed command (R210). -/
inductive Status where
  /-- Code 0. -/
  | ok
  /-- Codes 1 to 6. -/
  | failed (f : Failure)
deriving DecidableEq, Repr

/-- The four result registers (R10). -/
structure ResultRegs where
  /-- RES[0]. -/
  r0 : Word
  /-- RES[1]. -/
  r1 : Word
  /-- RES[2]. -/
  r2 : Word
  /-- RES[3]. -/
  r3 : Word
deriving DecidableEq, Repr

/-- One response as the host received it (R79), with the time at which it was emitted. -/
structure Response where
  /-- STATUS. -/
  status : Status
  /-- RES[0..RN-1]; their number is RN. -/
  words : List Word
  /-- Model time of the emission, in milliseconds after the command's acceptance (R46, R262). -/
  ms : Nat
deriving DecidableEq, Repr

/-- The block and what stands at its ports. -/
structure State where
  /-- RES[0..3] (R10). -/
  res : ResultRegs
  /-- RN, how many result words the last completed command returned (R10). -/
  rn : BitVec 3
  /-- BUSY (R12). -/
  busy : Bool
  /-- CUR, the latch of the command being executed (R13). -/
  cur : CommandWord
  /-- DB and DBV together: a cell (i, b) for every i with DBV[i] = 1 and DB[i] = b (R14). -/
  buf : Memory
  /-- ESTK, bits 6:0 (R17). -/
  estk : BitVec 7
  /-- TMOD (R18). -/
  tmod : HalfWord
  /-- CHEN: bit 0 QUAT, bit 1 GYRO, bit 2 MAG, bit 3 ACCEL (R19). -/
  chen : BitVec 4
  /-- LPFA (R20). -/
  lpfa : HalfWord
  /-- A1G (R21). -/
  a1g : HalfWord
  /-- PV (R24). -/
  pv : Bool
  /-- P[0..2] (R24). -/
  prev : Vec3 Word
  /-- ELAPSED, milliseconds (R25, R226). -/
  elapsed : Nat
  /-- K, the byte offset of the next chunk of a sequence read (R25, R56). -/
  chunk : Nat
  /-- TMP, the first half of a read-modify-write (R26). -/
  tmp : HalfWord
  /-- TMOeff, the timeout fixed for the running command (R45, R226). -/
  tmoeff : HalfWord
  /-- The model's own: the parameters of R4, carried as the argument that rule asks for. No step writes it. -/
  cfg : Params
  /-- The model's own: the commands the host presents at the command port, head first (R12). -/
  port : List CommandWord
  /-- The model's own: reset is asserted (R240). -/
  resetLine : Bool
  /-- The model's own: the bus side, which answers the driver calls (R7, R44). -/
  bus : BusSide
  /-- The model's own: every driver call issued, newest first (R44, R51). -/
  calls : List BusCall
  /-- The model's own: every response emitted, newest first (R79). -/
  out : List Response
  /-- The model's own: the number of the next free value. -/
  fresh : Nat
deriving DecidableEq, Repr

/-- Why a step stops. -/
inductive Fault where
  /-- Raised by `step` alone, when BUSY = 1 and reset is not asserted: the running command waits without bound for a driver
  call that never returns (R223; U4: "stuck (no further step)"). Every command the host presents stays held. Safe: the
  machine allows no further step that the block does not have, and only reset leads on. -/
  | hung
deriving DecidableEq, Repr

/-- Why a command has no meaning in the model. -/
inductive Refusal where
  /-- Raised by an arm of `exec` for a command that has no meaning yet; no arm raises it now. Safe: nothing can be proved of
  such a command. -/
  | notModelled (mnemonic : String)
deriving DecidableEq, Repr

/-- The reset state of a block with these parameters (R28, R241). RES, CUR, P, TMP are unspecified there and TMOeff is not in
the table: they hold 0 (DESIGN CHOICE, log 7). TMOD holds DEFAULT_TIMEOUT_MS. Nothing is presented, reset is released, and the
bus side has an empty script. -/
def State.atReset (cfg : Params) : State where
  res := ⟨0, 0, 0, 0⟩
  rn := 0
  busy := false
  cur := 0
  buf := []
  estk := 0
  tmod := cfg.defaultTimeoutMs
  chen := 0
  lpfa := 0
  a1g := 0
  pv := false
  prev := ⟨0, 0, 0⟩
  elapsed := 0
  chunk := 0
  tmp := 0
  tmoeff := 0
  cfg := cfg
  port := []
  resetLine := false
  bus := .scripted []
  calls := []
  out := []
  fresh := 0

/-- The machine right after reset, with the parameters of the block at hand. -/
def State.reset : State := State.atReset Config.params

end Sys2Proof.Machine
end

