-- ==== Sys2Proof/Machine/Device.lean ====
section
/-! DEFINITION. How the bus side answers a driver call (R44): a scripted draw, a free one, or the ideal device of R60
(a test fixture, not hardware; its address pointer is from general knowledge, G6). -/

namespace Sys2Proof.Machine

/-- The key of register `reg` of device `dev`. -/
def deviceKey (dev reg : Byte) : Nat := 256 * dev.toNat + reg.toNat

/-- A byte of a store whose unlisted bytes are 0. -/
def readOrZero (m : Memory) (a : Nat) : Byte := (Memory.read m a).getD 0

/-- Write such a store; a 0 is kept unlisted. -/
def writeOrErase (m : Memory) (a : Nat) (b : Byte) : Memory :=
  if b = 0 then Memory.erase m a else Memory.write m a b

/-- The bytes the queue port at `key` holds; `none` when there is no queue port. -/
def queueAt : List (Nat × List Byte) → Nat → Option (List Byte)
  | [], _ => none
  | (k, q) :: rest, key => if k = key then some q else queueAt rest key

/-- The queue ports after one pop at `key`. -/
def queuePop : List (Nat × List Byte) → Nat → List (Nat × List Byte)
  | [], _ => []
  | (k, q) :: rest, key => if k = key then (k, q.tail) :: rest else (k, q) :: queuePop rest key

/-- The data bytes of a write call: each goes to the pointed register and the pointer advances modulo 256 (R60). -/
def deviceStore (dev : Byte) : List Byte → IdealDevice → IdealDevice
  | [], d => d
  | b :: rest, d =>
    let p := readOrZero d.ptr dev.toNat
    deviceStore dev rest { d with mem := writeOrErase d.mem (deviceKey dev p) b,
                                  ptr := writeOrErase d.ptr dev.toNat (p + 1) }

/-- The bytes of a read call: a queue port pops (0xFF when empty) and the pointer stays, a plain register is read and
the pointer advances modulo 256 (R60). -/
def deviceLoad (dev : Byte) : Nat → IdealDevice → List Byte × IdealDevice
  | 0, d => ([], d)
  | n + 1, d =>
    let p := readOrZero d.ptr dev.toNat
    let key := deviceKey dev p
    match queueAt d.queues key with
    | some q =>
      let rest := deviceLoad dev n { d with queues := queuePop d.queues key }
      (q.headD 0xFF :: rest.1, rest.2)
    | none =>
      let rest := deviceLoad dev n { d with ptr := writeOrErase d.ptr dev.toNat (p + 1) }
      (readOrZero d.mem key :: rest.1, rest.2)

/-- The ideal device's answer to a call that passes (R60): the first byte of a write is the register address. -/
def deviceAnswer : BusCall → IdealDevice → Reply × IdealDevice
  | .write _ [], d => (.ack [], d)
  | .write dev (r :: data), d =>
    (.ack [], deviceStore dev data { d with ptr := writeOrErase d.ptr dev.toNat r })
  | .read dev n, d =>
    let r := deviceLoad dev n d
    (.ack r.1, r.2)

/-- A call that passes after `ms` milliseconds: the device takes it, but for one that comes back late and is abandoned (U3: "modelled
as not applied"). -/
def fixturePass (late : Nat → Bool) (ms : Nat) (c : BusCall) (d : IdealDevice) : CallEvent × IdealDevice :=
  let r := deviceAnswer c d
  (.answered ms r.1, if late ms then d else r.2)

/-- The fixture's draw for a call of which the vector says this (R60, U3): a call answered Nack, Short or never is not applied to the
device. The bytes of a short delivery are discarded whatever they are (R43). A write delivers none and a count equal to the number asked is
no Short: such a call passes. -/
def fixtureAnswer (late : Nat → Bool) (c : BusCall) (d : IdealDevice) : FixtureAnswer → CallEvent × IdealDevice
  | .passes ms => fixturePass late ms c d
  | .nack ms => (.answered ms .nack, d)
  | .short ms count =>
    match c with
    | .write _ _ => fixturePass late ms c d
    | .read _ n =>
      if count = n then fixturePass late ms c d else (.answered ms (.ack (List.replicate count 0)), d)
  | .never => (.never, d)
  | .resetAsserted => (.resetAsserted, d)

/-- The ideal device's draw (R60): as its plan says for this call, and in 0 ms beyond the plan. -/
def idealAnswer (late : Nat → Bool) (c : BusCall) (d : IdealDevice) : CallEvent × IdealDevice :=
  match d.plan with
  | [] => fixturePass late 0 c d
  | a :: rest => fixtureAnswer late c { d with plan := rest } a

/-- The bus side's draw for call `c`, with `n` the number of the next free value (R44). `late` tells which durations reach the engine's
deadline, so that the fixture can leave an abandoned call out of the device. -/
def busAnswer (n : Nat) (late : Nat → Bool) (c : BusCall) : BusSide → CallEvent × BusSide
  | .scripted [] => (Config.freeEvent n c, .scripted [])
  | .scripted (e :: rest) => (e, .scripted rest)
  | .ideal d =>
    let r := idealAnswer late c d
    (r.1, .ideal r.2)

end Sys2Proof.Machine
end

