-- ==== Sys2Proof/Machine/Flags.lean ====
section
/-! DEFINITION. Status bits and codes: the status codes (R210), the sticky error summary (R17), the valid bits (R14), the
derived control registers (R22) and the response format (R79). -/

namespace Sys2Proof.Machine

/-- The status code of a failure (R210). -/
def failureCode : Failure → Nat
  | .busTimeout => 1
  | .busNack => 2
  | .malformedResponse => 3
  | .channelNotPresent => 4
  | .decodeDegenerate => 5
  | .callerContractViolation => 6

/-- The 3-bit status code (R210); code 7 is never produced. -/
def statusCode : Status → BitVec 3
  | .ok => 0
  | .failed f => BitVec.ofNat 3 (failureCode f)

/-- `ESTK[code(s)] <- 1` (R17, R218). -/
def estkRaise (estk : BitVec 7) (f : Failure) : BitVec 7 := estk ||| BitVec.ofNat 7 (2 ^ failureCode f)

/-- CFGWR to ESTK is legal: DATA[0] = 0 and DATA[15:7] = 0 (R17, R193). -/
def estkWriteOk (data : HalfWord) : Bool := !(data.getLsbD 0) && data.extractLsb' 7 9 == 0

/-- `ESTK <- ESTK & ~DATA` (R193). -/
def estkClear (estk : BitVec 7) (data : HalfWord) : BitVec 7 := estk &&& ~~~(data.extractLsb' 0 7)

/-- CFGWR to CHEN is legal: DATA[15:4] = 0 (R19, R193). -/
def chenWriteOk (data : HalfWord) : Bool := data.extractLsb' 4 12 == 0

/-- `DBV[i]` (R14). -/
def dbv (s : State) (i : Nat) : Bool := (Memory.read s.buf i).isSome

/-- The word view of the buffer, `WD[i] = {DB[2i], DB[2i+1]}`, where both bytes hold a value (R14, R47). -/
def wordView (s : State) (i : Nat) : Option HalfWord :=
  match Memory.read s.buf (2 * i), Memory.read s.buf (2 * i + 1) with
  | some hi, some lo => some (hi ++ lo)
  | _, _ => none

/-- Bit `k` of CHEN as 0 or 1. -/
def chenBit (chen : BitVec 4) (k : Nat) : Nat := (chen.getLsbD k).toNat

/-- FLEN as a function of CHEN (R22). -/
def flenOf (chen : BitVec 4) : Nat :=
  16 * chenBit chen 0 + 8 * chenBit chen 1 + 8 * chenBit chen 2 + 16 * chenBit chen 3

/-- The four result registers in order (R10). -/
def ResultRegs.toList (r : ResultRegs) : List Word := [r.r0, r.r1, r.r2, r.r3]

/-- The header byte of a response: bit 7 is 0, RN in 6:4, bit 3 is 0, STATUS in 2:0 (R79). -/
def responseHeader (r : Response) : Byte :=
  (0 : BitVec 1) ++ BitVec.ofNat 3 r.words.length ++ (0 : BitVec 1) ++ statusCode r.status

/-- A result word as four bytes, most significant first (R79). -/
def wordBytesBE (w : Word) : List Byte :=
  [w.extractLsb' 24 8, w.extractLsb' 16 8, w.extractLsb' 8 8, w.extractLsb' 0 8]

/-- The response as the host receives it: the header byte and the RN result words (R79). -/
def responseBytes (r : Response) : List Byte := responseHeader r :: r.words.flatMap wordBytesBE

end Sys2Proof.Machine
end

