-- ==== Sys2Proof/Machine/Numerics.lean ====
section
/-! DEFINITION. The numerics of floating results (R161): exact reals, the suggested binary32 with round to nearest
even (the format is from general knowledge, G1), and the record the parameters choose. -/

namespace Sys2Proof.Machine

/-- A rational as an exact real. -/
def ExactReal.ofRat (q : Rat) : ExactReal := { neg := decide (q < 0), square := q * q }

/-- The real n / √S, for S ≥ 1 (R162). -/
def ExactReal.overSqrt (n S : Int) : ExactReal :=
  { neg := decide (n < 0), square := ((n * n : Int) : Rat) / (S : Rat) }

/-- The greatest m below 2^`bits` with m² · B ≤ A, found bit by bit from the top, given `m` already found above. -/
def sqrtBits (A B : Nat) : Nat → Nat → Nat
  | 0, m => m
  | bits + 1, m => sqrtBits A B bits (if (m + 2 ^ bits) ^ 2 * B ≤ A then m + 2 ^ bits else m)

/-- floor(log2 (p / q)) for p, q ≥ 1. -/
def log2Ratio (p q : Nat) : Int :=
  let l : Int := (Nat.log2 p : Int) - (Nat.log2 q : Int)
  if q * 2 ^ l.toNat ≤ p * 2 ^ (-l).toNat then l else l - 1

/-- The binary32 pattern, without its sign bit, of √(p / q), for p, q ≥ 1: the exponent is floor(log2 √(p/q)) but at
least −126 (gradual underflow), the significand is √(p/q) in units of 2^(exponent − 23), rounded to nearest with ties to even; a
magnitude beyond the format gives the infinity pattern (no value of this block is that large, R161). -/
def binary32Magnitude (p q : Nat) : Nat :=
  let e : Int := max (log2Ratio p q / 2) (-126)
  let t : Int := 23 - e
  let A := p * 4 ^ t.toNat
  let B := q * 4 ^ (-t).toNat
  let m := sqrtBits A B 25 0
  let half := (2 * m + 1) ^ 2 * B
  let rounded := if half < 4 * A then m + 1 else if half = 4 * A then m + m % 2 else m
  min ((e + 126).toNat * 2 ^ 23 + rounded) 0x7F800000

/-- `rnd` of the suggested NUM (R161): sign bit, and the rounded magnitude; the exact real 0 is +0. -/
def binary32Rnd (x : ExactReal) : Word :=
  if x.square.num.toNat = 0 then 0
  else
    let magnitude : Word := BitVec.ofNat 32 (binary32Magnitude x.square.num.toNat x.square.den)
    if x.neg then magnitude ||| 0x80000000 else magnitude

/-- `val` of the suggested NUM: the real a finite pattern denotes; a pattern that denotes none has a free value. -/
def binary32Val (w : Word) : Rat :=
  let exponent := (w.extractLsb' 23 8).toNat
  let fraction := (w.extractLsb' 0 23).toNat
  let sign : Int := if w.getLsbD 31 then -1 else 1
  if exponent = 255 then Config.valOfNonNumber w
  else if exponent = 0 then mkRat (sign * fraction) (2 ^ 149)
  else if exponent ≤ 150 then mkRat (sign * (2 ^ 23 + fraction : Nat)) (2 ^ (150 - exponent))
  else ((sign * (2 ^ 23 + fraction : Nat) * 2 ^ (exponent - 150) : Int) : Rat)

/-- The binary32 pattern is finite: no infinity and no NaN. -/
def binary32IsNumber (w : Word) : Bool := (w.extractLsb' 23 8).toNat != 255

/-- The suggested NUM. -/
def binary32 : Numerics := { rnd := binary32Rnd, val := binary32Val, isNumber := binary32IsNumber }

/-- The numerics record of a choice (R4). -/
def numericsOf : NumericsChoice → Numerics
  | .binary32 => binary32
  | .other which =>
    let o := Config.otherNumerics which
    { rnd := o.rnd, val := o.val, isNumber := o.isNumber }

/-- `rnd` of a rational in the chosen numerics. -/
def rndRat (c : NumericsChoice) (q : Rat) : Word := (numericsOf c).rnd (ExactReal.ofRat q)

/-- The exact real an angle stands for (R161). -/
def angleReal (a : Angle) : ExactReal :=
  let k := a.num % (16 * (a.den + 1))
  { neg := a.neg && k != 0, square := (k : Rat) / ((a.den + 1 : Nat) : Rat) }

/-- `rnd` of an angle in the chosen numerics (R170, R171). -/
def rndAngle (c : NumericsChoice) (a : Angle) : Word := (numericsOf c).rnd (angleReal a)

end Sys2Proof.Machine
end

