-- ==== Sys2Proof/Machine/Operands.lean ====
section
/-! DEFINITION. Operand forms: field arithmetic (R78), which bits of DATA a write uses (R73), descriptor and length
legality (R76, R77), byte order of a register word (R47), the effective timeout (R45) and the chunks of a split read (R56). -/

namespace Sys2Proof.Machine

/-- R78 `shift(start, len) = start − len + 1`: the position of the field's lowest bit. -/
def fieldShift (start len : Nat) : Nat := start + 1 - len

/-- R78 `mask(start, len)`: `len` ones at bits start down to shift; `1 << len` is computed without bound. -/
def fieldMask (w start len : Nat) : BitVec w := BitVec.ofNat w ((2 ^ len - 1) * 2 ^ fieldShift start len)

/-- R78 `extract(x, start, len)`: the field, right-aligned. -/
def extractField {w : Nat} (x : BitVec w) (start len : Nat) : BitVec w :=
  (x &&& fieldMask w start len) >>> fieldShift start len

/-- R78 `insert(x, start, len, v)`: clear exactly the target bits, OR in `v` shifted into position and masked. -/
def insertField {w : Nat} (x : BitVec w) (start len : Nat) (v : BitVec w) : BitVec w :=
  (x &&& ~~~(fieldMask w start len)) ||| ((v <<< fieldShift start len) &&& fieldMask w start len)

/-- R76, single-bit forms of a register of `width` bits. -/
def bitNumberOk (width : Nat) (start : Byte) : Bool := decide (start.toNat < width)

/-- R76, bit-run forms of a register of `width` bits. -/
def descriptorOk (width : Nat) (start len : Byte) : Bool :=
  decide (start.toNat ≤ width - 1 ∧ 1 ≤ len.toNat ∧ len.toNat ≤ width ∧ len.toNat ≤ start.toNat + 1)

/-- R77: a sequence of `n` bytes with its register address fits one write call. -/
def writeFits (busCap n : Nat) : Bool := decide (n + 1 ≤ busCap)

/-- R77: the bytes of `len` words. -/
def wordBytes (len : Byte) : Nat := 2 * len.toNat

/-- R47: the register word of two bytes, the first in bits 15:8. -/
def regWord (hi lo : Byte) : HalfWord := hi ++ lo

/-- R47: the byte of a register word transferred first. -/
def hiByte (w : HalfWord) : Byte := w.extractLsb' 8 8

/-- R47: the byte of a register word transferred second. -/
def loByte (w : HalfWord) : Byte := w.extractLsb' 0 8

/-- Byte `i` of the bytes a read delivered; every use has `i` below their number (R43). -/
def byteAt (bytes : List Byte) (i : Nat) : Byte := bytes.getD i 0

/-- The register word a two-byte read delivered (R102, R106). -/
def wordAt (bytes : List Byte) : HalfWord := regWord (byteAt bytes 0) (byteAt bytes 1)

/-- `zext_32` of a byte. -/
def zextByte (b : Byte) : Word := b.setWidth 32

/-- `zext_32` of a register word. -/
def zextHalf (w : HalfWord) : Word := w.setWidth 32

/-- `sext_32` of an integer in −32768..32767 or −2^31..2^31−1: its 32-bit two's-complement pattern. -/
def sextInt (n : Int) : Word := BitVec.ofInt 32 n

/-- The bit value of a single-bit write at the register's width, DATA[0] (R73). -/
def bitValue (w : Nat) (bit : Bool) : BitVec w := BitVec.ofNat w bit.toNat

/-- R45: TMOeff is TMOD with TD = 1 and the command's TMO with TD = 0. -/
def effectiveTimeout (tmo : Timeout) (tmod : HalfWord) : HalfWord :=
  match tmo with
  | .default => tmod
  | .ms v => v

/-- R56: the largest multiple of `unit` that fits one read call. -/
def chunkCap (busCap unit : Nat) : Nat := busCap - busCap % unit

/-- R56: the register address of the chunk at byte offset `offset`, modulo 256 with AI = 1. -/
def chunkReg (reg : Byte) (inc : Bool) (offset : Nat) : Byte :=
  if inc then reg + BitVec.ofNat 8 offset else reg

end Sys2Proof.Machine
end

