-- ==== Sys2Proof/Machine/Frame.lean ====
section
/-! DEFINITION. The Output Frame (R141, R142), the quaternion in integers (R162) and the gravity vector (R168). -/

namespace Sys2Proof.Machine

/-- The four channels, in the order of the frame (R141). -/
inductive Channel where
  /-- CHEN bit 0. -/
  | quat
  /-- CHEN bit 1. -/
  | gyro
  /-- CHEN bit 2. -/
  | mag
  /-- CHEN bit 3. -/
  | accel
deriving DecidableEq, Repr

/-- The CHEN bit of a channel (R19). -/
def channelBit : Channel → Nat
  | .quat => 0
  | .gyro => 1
  | .mag => 2
  | .accel => 3

/-- The channel is enabled (R19). -/
def channelEnabled (chen : BitVec 4) (c : Channel) : Bool := chen.getLsbD (channelBit c)

/-- A complete frame: `DB[0..FLEN−1]`, every byte valid, and the CHEN that lays it out. -/
structure Frame where
  /-- The bytes. -/
  bytes : List Byte
  /-- CHEN. -/
  chen : BitVec 4
deriving DecidableEq, Repr

/-- R141 `qbase`. -/
def qbase (_ : Frame) : Nat := 0

/-- R141 `gbase`. -/
def gbase (fr : Frame) : Nat := 16 * chenBit fr.chen 0

/-- R141 `mbase`. -/
def mbase (fr : Frame) : Nat := 16 * chenBit fr.chen 0 + 8 * chenBit fr.chen 1

/-- R141 `abase`. -/
def abase (fr : Frame) : Nat := 16 * chenBit fr.chen 0 + 8 * chenBit fr.chen 1 + 8 * chenBit fr.chen 2

/-- Byte `o` of the frame; every use lies inside it (R142). -/
def frameByte (fr : Frame) (o : Nat) : Byte := fr.bytes.getD o 0

/-- The 16-bit pattern at byte offset `o`, big-endian (R142). -/
def framePattern16 (fr : Frame) (o : Nat) : HalfWord := frameByte fr o ++ frameByte fr (o + 1)

/-- The 32-bit pattern at byte offset `o`, big-endian (R142). -/
def framePattern32 (fr : Frame) (o : Nat) : Word :=
  frameByte fr o ++ frameByte fr (o + 1) ++ frameByte fr (o + 2) ++ frameByte fr (o + 3)

/-- R142 `F16(o)`. -/
def frameF16 (fr : Frame) (o : Nat) : Int := (framePattern16 fr o).toInt

/-- R142 `F32(o)`. -/
def frameF32 (fr : Frame) (o : Nat) : Int := (framePattern32 fr o).toInt

/-- The gyro vector: three values two bytes apart (R145). -/
def gyroOf (fr : Frame) : Vec3 Int :=
  ⟨frameF16 fr (gbase fr + 0), frameF16 fr (gbase fr + 2), frameF16 fr (gbase fr + 4)⟩

/-- The mag vector: three values two bytes apart (R147). -/
def magOf (fr : Frame) : Vec3 Int :=
  ⟨frameF16 fr (mbase fr + 0), frameF16 fr (mbase fr + 2), frameF16 fr (mbase fr + 4)⟩

/-- The accel vector: three values four bytes apart (R146). -/
def accelOf (fr : Frame) : Vec3 Int :=
  ⟨frameF16 fr (abase fr + 0), frameF16 fr (abase fr + 4), frameF16 fr (abase fr + 8)⟩

/-- The raw quaternion, Q30 numerators (R162). -/
structure RawQuat where
  /-- Wr. -/
  w : Int
  /-- Xr. -/
  x : Int
  /-- Yr. -/
  y : Int
  /-- Zr. -/
  z : Int
deriving DecidableEq, Repr

/-- Wr, Xr, Yr, Zr of a frame (R162). -/
def rawQuatOf (fr : Frame) : RawQuat :=
  ⟨frameF32 fr (qbase fr + 0), frameF32 fr (qbase fr + 4), frameF32 fr (qbase fr + 8), frameF32 fr (qbase fr + 12)⟩

/-- S, the sum of squares (R162). -/
def normSq (q : RawQuat) : Int := q.w * q.w + q.x * q.x + q.y * q.y + q.z * q.z

/-- The unit quaternion (Wr, Xr, Yr, Zr) / √S (R162). -/
def unitQuat (q : RawQuat) : UnitQuat :=
  ⟨ExactReal.overSqrt q.w (normSq q), ExactReal.overSqrt q.x (normSq q),
   ExactReal.overSqrt q.y (normSq q), ExactReal.overSqrt q.z (normSq q)⟩

/-- gx, gy, gz as exact rationals (R168). -/
def gravity (q : RawQuat) : Vec3 Rat :=
  ⟨((2 * (q.x * q.z - q.w * q.y) : Int) : Rat) / (normSq q : Rat),
   ((2 * (q.w * q.x + q.y * q.z) : Int) : Rat) / (normSq q : Rat),
   ((q.w * q.w - q.x * q.x - q.y * q.y + q.z * q.z : Int) : Rat) / (normSq q : Rat)⟩

/-- One axis of the linear acceleration, `a − g · A1G` (R174). -/
def linearAxis (a1g : HalfWord) (a : Int) (g : Rat) : Rat := (a : Rat) - g * (a1g.toNat : Rat)

/-- xl, the linear acceleration (R174). -/
def linearAccel (a1g : HalfWord) (a : Vec3 Int) (g : Vec3 Rat) : Vec3 Rat :=
  ⟨linearAxis a1g a.x g.x, linearAxis a1g a.y g.y, linearAxis a1g a.z g.z⟩

/-- One axis of the filter with a previous value, `val(P) + alpha · (xl − val(P))` with alpha = LPFA / 65536 (R175, R20). -/
def filterAxis (lpfa : HalfWord) (p x : Rat) : Rat := p + (lpfa.toNat : Rat) / 65536 * (x - p)

/-- y, the filter's exact output (R175): the input itself when PV = 0. -/
def filterOut (c : NumericsChoice) (pv : Bool) (lpfa : HalfWord) (prev : Vec3 Word) (xl : Vec3 Rat) : Vec3 Rat :=
  if pv then
    ⟨filterAxis lpfa ((numericsOf c).val prev.x) xl.x, filterAxis lpfa ((numericsOf c).val prev.y) xl.y,
     filterAxis lpfa ((numericsOf c).val prev.z) xl.z⟩
  else xl

end Sys2Proof.Machine
end

