-- ==== Sys2Proof/Machine/Ops.lean ====
section
/-! DEFINITION. The shared operations every meaning is written over: completion (R217) and failure (R218), reset (R240
to R242), acceptance (R12), the driver call under the deadline (R46), the access primitives (R48, R49, R56), the
control-register space (R16 to R23) and the decode prologue (R140, R163). -/

namespace Sys2Proof.Machine

/-- Where a command's procedure stands after an operation: it goes on with a value, or it has ended (a response was
emitted, the command hangs, or reset came) in this state. -/
inductive Flow (α : Type) where
  /-- The procedure goes on. -/
  | go (a : α) (s : State)
  /-- The procedure has ended. -/
  | stop (s : State)
deriving DecidableEq, Repr

/-- The next operation of a procedure. -/
def Flow.andThen {α β : Type} (f : Flow α) (k : α → State → Flow β) : Flow β :=
  match f with
  | .go a s => k a s
  | .stop s => .stop s

/-- The end of a procedure: what the command does with the value, if it is still running. -/
def Flow.finish {α : Type} (f : Flow α) (k : α → State → State) : State :=
  match f with
  | .go a s => k a s
  | .stop s => s

/-- Four free values (R10, R218). -/
def freeRegs (n : Nat) : ResultRegs :=
  ⟨Config.freeWord n, Config.freeWord (n + 1), Config.freeWord (n + 2), Config.freeWord (n + 3)⟩

/-- `raise f`, at emission time `ms` (R218): RN <- 0, RES unspecified, the sticky bit set, a response with no words, the
engine idle. The block's only counterpart of an exception: nothing is saved and control goes nowhere (R221). -/
def raiseAt (ms : Nat) (f : Failure) (s : State) : State :=
  { s with
    res := freeRegs s.fresh
    rn := 0
    estk := estkRaise s.estk f
    out := { status := .failed f, words := [], ms := ms } :: s.out
    busy := false
    fresh := s.fresh + 4 }

/-- `raise f` at the time the command has used so far (R218). -/
def raise (f : Failure) (s : State) : State := raiseAt s.elapsed f s

/-- The result registers after a completion with these values: the registers beyond them are unspecified (R10). -/
def resultRegs (values : List Word) (n : Nat) : ResultRegs :=
  ⟨values.getD 0 (Config.freeWord n), values.getD 1 (Config.freeWord (n + 1)),
   values.getD 2 (Config.freeWord (n + 2)), values.getD 3 (Config.freeWord (n + 3))⟩

/-- `complete(values)` (R217): RES and RN written, a response with RES[0..RN−1], ESTK unchanged, the engine idle. -/
def complete (values : List Word) (s : State) : State :=
  let regs := resultRegs values s.fresh
  { s with
    res := regs
    rn := BitVec.ofNat 3 values.length
    out := { status := .ok, words := (ResultRegs.toList regs).take values.length, ms := s.elapsed } :: s.out
    busy := false
    fresh := s.fresh + 4 }

/-- The reset event (R240 to R242): the reset values of R241, the running command dropped without a response. The host, the bus side,
what was already emitted or issued and the parameters are not reset (R241: "it is not part of the block"). -/
def hardReset (s : State) : State :=
  { State.atReset s.cfg with
    port := s.port
    bus := s.bus
    calls := s.calls
    out := s.out
    fresh := s.fresh }

/-- Acceptance of the command word `w` (R12, R241): BUSY <- 1, CUR latched, ELAPSED and K rewritten; the port moves on. -/
def accept (w : CommandWord) (rest : List CommandWord) (s : State) : State :=
  { s with busy := true, cur := w, elapsed := 0, chunk := 0, port := rest }

/-- BusPrologue (R100): TMOeff fixed, ELAPSED <- 0. -/
def busPrologue (tmo : Timeout) (s : State) : State :=
  { s with tmoeff := effectiveTimeout tmo s.tmod, elapsed := 0 }

/-- The deadline of R46: TMOeff ≠ 0 and the elapsed time `t` reaches it. -/
def deadlineReached (s : State) (t : Nat) : Bool := (s.tmoeff != 0) && decide (s.tmoeff.toNat ≤ t)

/-- Issue a call: it joins the trace and the bus side draws what becomes of it (R44). -/
def issue (c : BusCall) (s : State) : CallEvent × State :=
  let r := busAnswer s.fresh (fun d => deadlineReached s (s.elapsed + d)) c s.bus
  (r.1, { s with bus := r.2, calls := c :: s.calls, fresh := s.fresh + 1 })

/-- What a call that returned before the deadline gives the procedure (R46, R42, R43): bytes, BusNack, or MalformedResponse when
a read delivers another number of bytes than asked. -/
def judge : BusCall → Reply → Except Failure (List Byte)
  | _, .nack => .error .busNack
  | .write _ _, .ack _ => .ok []
  | .read _ n, .ack bytes => if bytes.length = n then .ok bytes else .error .malformedResponse

/-- The end of a command whose deadline is reached: BusTimeout, emitted at exactly TMOeff (R46, R211). -/
def timeOut (s : State) : State := raiseAt s.tmoeff.toNat .busTimeout s

/-- What becomes of an issued call `c` with draw `ev` (R46, R242). A call that never returns with TMOeff = 0 leaves the command
running for ever (R223). -/
def settleCall (c : BusCall) (ev : CallEvent) (s : State) : Flow (List Byte) :=
  match ev with
  | .resetAsserted => .stop (hardReset s)
  | .never => if s.tmoeff = 0 then .stop { s with busy := true } else .stop (timeOut s)
  | .answered d reply =>
    if deadlineReached s (s.elapsed + d) then .stop (timeOut s)
    else
      match judge c reply with
      | .ok bytes => .go bytes { s with elapsed := s.elapsed + d }
      | .error f => .stop (raise f { s with elapsed := s.elapsed + d })

/-- `call(c)` (R46). -/
def call (c : BusCall) (s : State) : Flow (List Byte) :=
  let r := issue c s
  settleCall c r.1 r.2

/-- `MemRead(dev, reg, n)` (R48): the register-address write, then the read. -/
def memRead (dev reg : Byte) (n : Nat) (s : State) : Flow (List Byte) :=
  (call (.write dev [reg]) s).andThen fun _ s => call (.read dev n) s

/-- `MemWrite(dev, reg, bytes)` (R49): one call, the register address first. -/
def memWrite (dev reg : Byte) (bytes : List Byte) (s : State) : Flow (List Byte) :=
  call (.write dev (reg :: bytes)) s

/-- The loop of SeqRead (R56) for a chunk size `cap` and a total of `n` bytes, with `got` already delivered; K stands in the
state. `fuel` bounds the number of chunks; `n` is enough, since every chunk moves K on. -/
def seqLoop (dev reg : Byte) (inc : Bool) (cap n : Nat) : Nat → List Byte → State → Flow (List Byte)
  | 0, got, s => .go got s
  | fuel + 1, got, s =>
    if s.chunk < n then
      let m := min cap (n - s.chunk)
      (memRead dev (chunkReg reg inc s.chunk) m s).andThen fun bytes s =>
        seqLoop dev reg inc cap n fuel (got ++ bytes) { s with chunk := s.chunk + m }
    else .go got s

/-- `SeqRead(dev, reg, n, ai, unit)` (R56). -/
def seqRead (dev reg : Byte) (n : Nat) (inc : Bool) (unit : Nat) (s : State) : Flow (List Byte) :=
  seqLoop dev reg inc (chunkCap s.cfg.busCap unit) n n [] { s with chunk := 0 }

/-- A sequence read of `n ≥ 1` bytes into DB (R107, R108): every valid bit cleared at acceptance, the delivered ones set only on
success. -/
def readIntoBuffer (dev reg : Byte) (n : Nat) (inc : Bool) (unit : Nat) (s : State) : State :=
  (seqRead dev reg n inc unit { s with buf := [] }).finish fun bytes s =>
    complete [] { s with buf := Memory.writeRun s.buf 0 bytes }

/-- A sequence write of the `n ≥ 1` bytes at DB[0] (R126, R127): refused when it does not fit one call, then when a payload byte
holds no value. -/
def writeFromBuffer (dev reg : Byte) (n : Nat) (s : State) : State :=
  if writeFits s.cfg.busCap n then
    match Memory.readRun s.buf 0 n with
    | some bytes => (memWrite dev reg bytes s).finish fun _ s => complete [] s
    | none => raise .callerContractViolation s
  else raise .callerContractViolation s

/-- Read a register byte and complete with a word computed from it (R101, R103, R105). -/
def readByteWith (dev reg : Byte) (f : Byte → Word) (s : State) : State :=
  (memRead dev reg 1 s).finish fun bytes s => complete [f (byteAt bytes 0)] s

/-- Read a register word and complete with a word computed from it (R102, R104, R106). -/
def readWordWith (dev reg : Byte) (f : HalfWord → Word) (s : State) : State :=
  (memRead dev reg 2 s).finish fun bytes s => complete [f (wordAt bytes)] s

/-- The read-modify-write unit on a register byte (R120, R122): always read, TMP, always write back. -/
def modifyByte (dev reg : Byte) (f : Byte → Byte) (s : State) : State :=
  (memRead dev reg 1 s).finish fun bytes s =>
    let s1 := { s with tmp := (byteAt bytes 0).setWidth 16 }
    (memWrite dev reg [f (loByte s1.tmp)] s1).finish fun _ s => complete [] s

/-- The read-modify-write unit on a register word (R121, R123). -/
def modifyWord (dev reg : Byte) (f : HalfWord → HalfWord) (s : State) : State :=
  (memRead dev reg 2 s).finish fun bytes s =>
    let s1 := { s with tmp := wordAt bytes }
    (memWrite dev reg [hiByte (f s1.tmp), loByte (f s1.tmp)] s1).finish fun _ s => complete [] s

/-- One write call and completion (R124, R125). -/
def writeBytes (dev reg : Byte) (bytes : List Byte) (s : State) : State :=
  (memWrite dev reg bytes s).finish fun _ s => complete [] s

/-- A control register as CFGRD returns it, zero-extended (R16, R192); `none` for a number that does not exist. -/
def csrRead (num : Byte) (s : State) : Option Word :=
  match num.toNat with
  | 0 => some (s.estk.setWidth 32)
  | 1 => some (s.tmod.setWidth 32)
  | 2 => some (s.chen.setWidth 32)
  | 3 => some (s.lpfa.setWidth 32)
  | 4 => some (s.a1g.setWidth 32)
  | 5 => some (BitVec.ofNat 32 (flenOf s.chen))
  | 6 => some (BitVec.ofNat 32 s.cfg.busCap)
  | _ => none

/-- A control-register write (R17 to R23, R193); `none` for a read-only or undefined register or an out-of-range value. -/
def csrWrite (num : Byte) (data : HalfWord) (s : State) : Option State :=
  match num.toNat with
  | 0 => if estkWriteOk data then some { s with estk := estkClear s.estk data } else none
  | 1 => some { s with tmod := data }
  | 2 => if chenWriteOk data then some { s with chen := data.extractLsb' 0 4 } else none
  | 3 => some { s with lpfa := data }
  | 4 => some { s with a1g := data }
  | _ => none

/-- DecodePrologue(need) (R140): every needed channel enabled, then every byte of the frame valid. -/
def decodePrologue (need : List Channel) (s : State) : Except Failure Frame :=
  if need.all (channelEnabled s.chen) then
    match Memory.readRun s.buf 0 (flenOf s.chen) with
    | some bytes => .ok { bytes := bytes, chen := s.chen }
    | none => .error .callerContractViolation
  else .error .channelNotPresent

/-- A decode command: the prologue, then what the command does with the frame (R140, R219). -/
def decodeFrame (need : List Channel) (k : Frame → State → State) (s : State) : State :=
  match decodePrologue need s with
  | .ok fr => k fr s
  | .error f => raise f s

/-- The degenerate test (R163), then what the command does with the raw quaternion. -/
def withQuat (fr : Frame) (k : RawQuat → State → State) (s : State) : State :=
  if normSq (rawQuatOf fr) < (s.cfg.qepsSqRaw : Int) then raise .decodeDegenerate s else k (rawQuatOf fr) s

/-- Three integers as result words, sign-extended (R145 to R147). -/
def intWords (v : Vec3 Int) : List Word := (v.map sextInt).toList

/-- Three exact rationals as result words of the chosen numerics (R161). -/
def rndWords (c : NumericsChoice) (v : Vec3 Rat) : List Word := (v.map (rndRat c)).toList

/-- Three integers as floating result words, scale 1 (R160, R165 to R167). -/
def floatWords (c : NumericsChoice) (v : Vec3 Int) : List Word := rndWords c (v.map fun (n : Int) => (n : Rat))

end Sys2Proof.Machine
end

