-- ==== Sys2Proof/Machine/BusRead.lean ====
section
/-! DEFINITION. The bus read commands (R100 to R108). -/

namespace Sys2Proof.Machine

/-- RDBIT (R101). -/
def execRdbit (dev reg start : Byte) (tmo : Timeout) (s : State) : Host.Outcome State Fault Refusal :=
  .next <|
    let s := busPrologue tmo s
    if bitNumberOk 8 start then readByteWith dev reg (fun b => zextByte (extractField b start.toNat 1)) s
    else raise .callerContractViolation s

/-- RDBITW (R102). -/
def execRdbitw (dev reg start : Byte) (tmo : Timeout) (s : State) : Host.Outcome State Fault Refusal :=
  .next <|
    let s := busPrologue tmo s
    if bitNumberOk 16 start then readWordWith dev reg (fun w => zextHalf (extractField w start.toNat 1)) s
    else raise .callerContractViolation s

/-- RDBITS (R103). -/
def execRdbits (dev reg start len : Byte) (tmo : Timeout) (s : State) : Host.Outcome State Fault Refusal :=
  .next <|
    let s := busPrologue tmo s
    if descriptorOk 8 start len then readByteWith dev reg (fun b => zextByte (extractField b start.toNat len.toNat)) s
    else raise .callerContractViolation s

/-- RDBITSW (R104). -/
def execRdbitsw (dev reg start len : Byte) (tmo : Timeout) (s : State) : Host.Outcome State Fault Refusal :=
  .next <|
    let s := busPrologue tmo s
    if descriptorOk 16 start len then readWordWith dev reg (fun w => zextHalf (extractField w start.toNat len.toNat)) s
    else raise .callerContractViolation s

/-- RDBYTE (R105). -/
def execRdbyte (dev reg : Byte) (tmo : Timeout) (s : State) : Host.Outcome State Fault Refusal :=
  .next (readByteWith dev reg zextByte (busPrologue tmo s))

/-- RDWORD (R106). -/
def execRdword (dev reg : Byte) (tmo : Timeout) (s : State) : Host.Outcome State Fault Refusal :=
  .next (readWordWith dev reg zextHalf (busPrologue tmo s))

/-- RDBYTES (R107); LEN = 0 is a no-op with OK. -/
def execRdbytes (dev reg len : Byte) (inc : Bool) (tmo : Timeout) (s : State) : Host.Outcome State Fault Refusal :=
  .next <|
    let s := busPrologue tmo s
    if len.toNat = 0 then complete [] s else readIntoBuffer dev reg len.toNat inc 1 s

/-- RDWORDS (R108); LEN = 0 is a no-op with OK, LEN > 128 is refused with DBV untouched. -/
def execRdwords (dev reg len : Byte) (inc : Bool) (tmo : Timeout) (s : State) : Host.Outcome State Fault Refusal :=
  .next <|
    let s := busPrologue tmo s
    if len.toNat = 0 then complete [] s
    else if 128 < len.toNat then raise .callerContractViolation s
    else readIntoBuffer dev reg (wordBytes len) inc 2 s

end Sys2Proof.Machine
end

