-- ==== Sys2Proof/Machine/BusWrite.lean ====
section
/-! DEFINITION. The bus write commands (R120 to R127). -/

namespace Sys2Proof.Machine

/-- WRBIT (R120). -/
def execWrbit (dev reg start : Byte) (bit : Bool) (tmo : Timeout) (s : State) : Host.Outcome State Fault Refusal :=
  .next <|
    let s := busPrologue tmo s
    if bitNumberOk 8 start then modifyByte dev reg (fun b => insertField b start.toNat 1 (bitValue 8 bit)) s
    else raise .callerContractViolation s

/-- WRBITW (R121). -/
def execWrbitw (dev reg start : Byte) (bit : Bool) (tmo : Timeout) (s : State) : Host.Outcome State Fault Refusal :=
  .next <|
    let s := busPrologue tmo s
    if bitNumberOk 16 start then modifyWord dev reg (fun w => insertField w start.toNat 1 (bitValue 16 bit)) s
    else raise .callerContractViolation s

/-- WRBITS (R122); only DATA[LEN−1:0] reaches the register. -/
def execWrbits (dev reg start len : Byte) (data : HalfWord) (tmo : Timeout) (s : State) :
    Host.Outcome State Fault Refusal :=
  .next <|
    let s := busPrologue tmo s
    if descriptorOk 8 start len then
      modifyByte dev reg (fun b => insertField b start.toNat len.toNat (loByte data)) s
    else raise .callerContractViolation s

/-- WRBITSW (R123). -/
def execWrbitsw (dev reg start len : Byte) (data : HalfWord) (tmo : Timeout) (s : State) :
    Host.Outcome State Fault Refusal :=
  .next <|
    let s := busPrologue tmo s
    if descriptorOk 16 start len then modifyWord dev reg (fun w => insertField w start.toNat len.toNat data) s
    else raise .callerContractViolation s

/-- WRBYTE (R124). -/
def execWrbyte (dev reg data : Byte) (tmo : Timeout) (s : State) : Host.Outcome State Fault Refusal :=
  .next (writeBytes dev reg [data] (busPrologue tmo s))

/-- WRWORD (R125); the high byte goes first. -/
def execWrword (dev reg : Byte) (data : HalfWord) (tmo : Timeout) (s : State) : Host.Outcome State Fault Refusal :=
  .next (writeBytes dev reg [hiByte data, loByte data] (busPrologue tmo s))

/-- WRBYTES (R126); LEN = 0 is a no-op with OK. -/
def execWrbytes (dev reg len : Byte) (tmo : Timeout) (s : State) : Host.Outcome State Fault Refusal :=
  .next <|
    let s := busPrologue tmo s
    if len.toNat = 0 then complete [] s else writeFromBuffer dev reg len.toNat s

/-- WRWORDS (R127); LEN = 0 is a no-op with OK. -/
def execWrwords (dev reg len : Byte) (tmo : Timeout) (s : State) : Host.Outcome State Fault Refusal :=
  .next <|
    let s := busPrologue tmo s
    if len.toNat = 0 then complete [] s else writeFromBuffer dev reg (wordBytes len) s

end Sys2Proof.Machine
end

