-- ==== Sys2Proof/Machine/DecodeFloat.lean ====
section
/-! DEFINITION. The floating and derived decode commands (R164 to R175). -/

namespace Sys2Proof.Machine

/-- DQF (R164): the unit quaternion, each component rounded once. -/
def execDqf (s : State) : Host.Outcome State Fault Refusal :=
  .next <| decodeFrame [.quat] (fun fr => withQuat fr fun q s =>
    complete [(numericsOf s.cfg.numerics).rnd (unitQuat q).w, (numericsOf s.cfg.numerics).rnd (unitQuat q).x,
              (numericsOf s.cfg.numerics).rnd (unitQuat q).y, (numericsOf s.cfg.numerics).rnd (unitQuat q).z] s) s

/-- DGYROF (R165). -/
def execDgyrof (s : State) : Host.Outcome State Fault Refusal :=
  .next <| decodeFrame [.gyro] (fun fr s => complete (floatWords s.cfg.numerics (gyroOf fr)) s) s

/-- DACCF (R166). -/
def execDaccf (s : State) : Host.Outcome State Fault Refusal :=
  .next <| decodeFrame [.accel] (fun fr s => complete (floatWords s.cfg.numerics (accelOf fr)) s) s

/-- DMAGF (R167). -/
def execDmagf (s : State) : Host.Outcome State Fault Refusal :=
  .next <| decodeFrame [.mag] (fun fr s => complete (floatWords s.cfg.numerics (magOf fr)) s) s

/-- DGRAV (R169): gravity from the exact rationals, each component rounded once. -/
def execDgrav (s : State) : Host.Outcome State Fault Refusal :=
  .next <| decodeFrame [.quat] (fun fr => withQuat fr fun q s =>
    complete (rndWords s.cfg.numerics (gravity q)) s) s

/-- DEULER (R170): EULER_FN of the unit quaternion, rounded. -/
def execDeuler (s : State) : Host.Outcome State Fault Refusal :=
  .next <| decodeFrame [.quat] (fun fr => withQuat fr fun q s =>
    complete ((Config.eulerFn (unitQuat q)).map (rndAngle s.cfg.numerics)).toList s) s

/-- DYPR (R171): YPR_FN of the unit quaternion and gravity, rounded. -/
def execDypr (s : State) : Host.Outcome State Fault Refusal :=
  .next <| decodeFrame [.quat] (fun fr => withQuat fr fun q s =>
    complete ((Config.yprFn (unitQuat q) (gravity q)).map (rndAngle s.cfg.numerics)).toList s) s

/-- DLINACC (R174): the linear acceleration; with LP = 1 the filtered output, which becomes P with PV = 1 (R175). -/
def execDlinacc (lp : Bool) (s : State) : Host.Outcome State Fault Refusal :=
  .next <| decodeFrame [.quat, .accel] (fun fr => withQuat fr fun q s =>
    let xl := linearAccel s.a1g (accelOf fr) (gravity q)
    if lp then
      let r := (filterOut s.cfg.numerics s.pv s.lpfa s.prev xl).map (rndRat s.cfg.numerics)
      complete r.toList { s with prev := r, pv := true }
    else complete (rndWords s.cfg.numerics xl) s) s

end Sys2Proof.Machine
end

