-- ==== Sys2Proof/Machine/DecodeInt.lean ====
section
/-! DEFINITION. The integer decode commands (R143 to R147). -/

namespace Sys2Proof.Machine

/-- DQ16 (R143): the 16-bit views of W, X, Y, Z, sign-extended. -/
def execDq16 (s : State) : Host.Outcome State Fault Refusal :=
  .next <| decodeFrame [.quat] (fun fr s =>
    complete [sextInt (frameF16 fr (qbase fr + 0)), sextInt (frameF16 fr (qbase fr + 4)),
              sextInt (frameF16 fr (qbase fr + 8)), sextInt (frameF16 fr (qbase fr + 12))] s) s

/-- DQ32 (R144): the 32-bit views of W, X, Y, Z. -/
def execDq32 (s : State) : Host.Outcome State Fault Refusal :=
  .next <| decodeFrame [.quat] (fun fr s =>
    complete [sextInt (frameF32 fr (qbase fr + 0)), sextInt (frameF32 fr (qbase fr + 4)),
              sextInt (frameF32 fr (qbase fr + 8)), sextInt (frameF32 fr (qbase fr + 12))] s) s

/-- DGYRO (R145). -/
def execDgyro (s : State) : Host.Outcome State Fault Refusal :=
  .next <| decodeFrame [.gyro] (fun fr s => complete (intWords (gyroOf fr)) s) s

/-- DACC (R146). -/
def execDacc (s : State) : Host.Outcome State Fault Refusal :=
  .next <| decodeFrame [.accel] (fun fr s => complete (intWords (accelOf fr)) s) s

/-- DMAG (R147). -/
def execDmag (s : State) : Host.Outcome State Fault Refusal :=
  .next <| decodeFrame [.mag] (fun fr s => complete (intWords (magOf fr)) s) s

end Sys2Proof.Machine
end

