-- ==== Sys2Proof/Machine/System.lean ====
section
/-! DEFINITION. The system commands (R190 to R196). -/

namespace Sys2Proof.Machine

/-- CFGRD (R192). -/
def execCfgrd (num : Byte) (s : State) : Host.Outcome State Fault Refusal :=
  .next <|
    match csrRead num s with
    | some v => complete [v] s
    | none => raise .callerContractViolation s

/-- CFGWR (R193). -/
def execCfgwr (num : Byte) (data : HalfWord) (s : State) : Host.Outcome State Fault Refusal :=
  .next <|
    match csrWrite num data s with
    | some s1 => complete [] s1
    | none => raise .callerContractViolation s

/-- BUFRD (R194). -/
def execBufrd (idx : Byte) (s : State) : Host.Outcome State Fault Refusal :=
  .next <|
    match Memory.read s.buf idx.toNat with
    | some b => complete [zextByte b] s
    | none => raise .callerContractViolation s

/-- BUFWR (R195). -/
def execBufwr (idx data : Byte) (s : State) : Host.Outcome State Fault Refusal :=
  .next (complete [] { s with buf := Memory.write s.buf idx.toNat data })

/-- LARST (R196): PV <- 0, and P becomes unspecified. -/
def execLarst (s : State) : Host.Outcome State Fault Refusal :=
  .next (complete []
    { s with
      pv := false
      prev := ⟨Config.freeWord s.fresh, Config.freeWord (s.fresh + 1), Config.freeWord (s.fresh + 2)⟩
      fresh := s.fresh + 3 })

end Sys2Proof.Machine
end

