-- ==== Sys2Proof/Machine/Dispatch.lean ====
section
/-! DEFINITION. One arm per command (R74). -/

namespace Sys2Proof.Machine

/-- The whole procedure of one accepted command. -/
def exec (i : Instr) (s : State) : Host.Outcome State Fault Refusal :=
  match i with
  | .rdbit dev reg start tmo => Sys2Proof.Machine.execRdbit dev reg start tmo s
  | .rdbitw dev reg start tmo => Sys2Proof.Machine.execRdbitw dev reg start tmo s
  | .rdbits dev reg start len tmo => Sys2Proof.Machine.execRdbits dev reg start len tmo s
  | .rdbitsw dev reg start len tmo => Sys2Proof.Machine.execRdbitsw dev reg start len tmo s
  | .rdbyte dev reg tmo => Sys2Proof.Machine.execRdbyte dev reg tmo s
  | .rdword dev reg tmo => Sys2Proof.Machine.execRdword dev reg tmo s
  | .rdbytes dev reg len inc tmo => Sys2Proof.Machine.execRdbytes dev reg len inc tmo s
  | .rdwords dev reg len inc tmo => Sys2Proof.Machine.execRdwords dev reg len inc tmo s
  | .wrbit dev reg start bit tmo => Sys2Proof.Machine.execWrbit dev reg start bit tmo s
  | .wrbitw dev reg start bit tmo => Sys2Proof.Machine.execWrbitw dev reg start bit tmo s
  | .wrbits dev reg start len data tmo => Sys2Proof.Machine.execWrbits dev reg start len data tmo s
  | .wrbitsw dev reg start len data tmo => Sys2Proof.Machine.execWrbitsw dev reg start len data tmo s
  | .wrbyte dev reg data tmo => Sys2Proof.Machine.execWrbyte dev reg data tmo s
  | .wrword dev reg data tmo => Sys2Proof.Machine.execWrword dev reg data tmo s
  | .wrbytes dev reg len tmo => Sys2Proof.Machine.execWrbytes dev reg len tmo s
  | .wrwords dev reg len tmo => Sys2Proof.Machine.execWrwords dev reg len tmo s
  | .dq16 => Sys2Proof.Machine.execDq16 s
  | .dq32 => Sys2Proof.Machine.execDq32 s
  | .dgyro => Sys2Proof.Machine.execDgyro s
  | .dacc => Sys2Proof.Machine.execDacc s
  | .dmag => Sys2Proof.Machine.execDmag s
  | .dqf => Sys2Proof.Machine.execDqf s
  | .dgyrof => Sys2Proof.Machine.execDgyrof s
  | .daccf => Sys2Proof.Machine.execDaccf s
  | .dmagf => Sys2Proof.Machine.execDmagf s
  | .dgrav => Sys2Proof.Machine.execDgrav s
  | .deuler => Sys2Proof.Machine.execDeuler s
  | .dypr => Sys2Proof.Machine.execDypr s
  | .dlinacc lp => Sys2Proof.Machine.execDlinacc lp s
  | .cfgrd num => Sys2Proof.Machine.execCfgrd num s
  | .cfgwr num data => Sys2Proof.Machine.execCfgwr num data s
  | .bufrd idx => Sys2Proof.Machine.execBufrd idx s
  | .bufwr idx data => Sys2Proof.Machine.execBufwr idx data s
  | .larst => Sys2Proof.Machine.execLarst s

end Sys2Proof.Machine
end

