-- ==== Sys2Proof/Machine/Step.lean ====
section
/-! DEFINITION. One step of the machine: a reset, or one whole command from its acceptance to its completion (R12, R7),
or nothing when the host presents nothing. -/

namespace Sys2Proof.Machine

/-- What the engine does with the command word it has accepted (R82): a reserved encoding completes at once with
CallerContractViolation (R75), any other runs. -/
def runAccepted (w : CommandWord) (s : State) : Host.Outcome State Fault Refusal :=
  match decodeWord w with
  | .ok i => exec i s
  | .error _ => .next (raise .callerContractViolation s)

/-- One step: reset if it is asserted (R240, R242); while BUSY = 1 nothing more happens (R223) and commands stay held (R12);
otherwise the command the host presents is accepted and run. -/
def step (s : State) : Host.Outcome State Fault Refusal :=
  if s.resetLine then .next (hardReset s)
  else if s.busy then .fault .hung
  else
    match s.port with
    | [] => .next s
    | w :: rest => runAccepted w (accept w rest s)

/-- `s` with the host presenting, as its next command, the command whose bits are `w` (numbered as the opcode table numbers
them), the engine idle and reset released, so that the very next step accepts and runs it. -/
def State.withFetchWord (s : State) (nbits w : Nat) : State :=
  { s with port := BitVec.ofNat 80 (w % 2 ^ nbits) :: s.port, busy := false, resetLine := false }

end Sys2Proof.Machine
end

