-- ==== Sys2Proof/WellFormed.lean ====
section
/-! DEFINITION. Well-formed commands: those whose own operands meet the legality tables of rules R76 and R77 and
the control-register tests of R192 and R193. Every `Instr` can be encoded and decoded; an ill-formed one is what the
spec refuses at run time with CallerContractViolation, whatever the state (R216). Tests that also depend on the
state or on the value of BUS_CAP (payload validity, write capacity, frame validity) are not here. -/

namespace Sys2Proof

/-- R76, RDBIT and WRBIT (`width` 8), RDBITW and WRBITW (`width` 16): the bit number lies in the register. -/
def bitLegal (width : Nat) (start : Byte) : Bool := decide (start.toNat < width)

/-- R76, the bit-run forms: START, LEN at least 1 and at most the width, and LEN at most START + 1. -/
def runLegal (width : Nat) (start len : Byte) : Bool :=
  decide (start.toNat < width) && decide (1 ≤ len.toNat) && decide (len.toNat ≤ width) &&
    decide (len.toNat ≤ start.toNat + 1)

/-- R77, RDWORDS: at most 128 words fit DB. -/
def wordCountLegal (len : Byte) : Bool := decide (len.toNat ≤ 128)

/-- R77, WRWORDS: 128 words and more never fit one call (2L + 1 > 256 ≥ BUS_CAP). -/
def wordWriteCountLegal (len : Byte) : Bool := decide (len.toNat ≤ 127)

/-- R16, R192: control registers 0x00 to 0x06 exist. -/
def csrReadLegal (num : Byte) : Bool := decide (num.toNat ≤ 6)

/-- R193: what CFGWR accepts. ESTK takes bits 6:1 only, CHEN bits 3:0 only; FLEN and BCAP are read-only. -/
def csrWriteLegal (num : Byte) (data : HalfWord) : Bool :=
  match num.toNat with
  | 0 => !(data.getLsbD 0) && decide (data.toNat < 128)
  | 1 => true
  | 2 => decide (data.toNat < 16)
  | 3 => true
  | 4 => true
  | _ => false

/-- The checks of one command on its own operands. -/
def Instr.wellFormed : Instr → Bool
  | .rdbit _ _ start _ => bitLegal 8 start
  | .rdbitw _ _ start _ => bitLegal 16 start
  | .rdbits _ _ start len _ => runLegal 8 start len
  | .rdbitsw _ _ start len _ => runLegal 16 start len
  | .rdbyte _ _ _ => true
  | .rdword _ _ _ => true
  | .rdbytes _ _ _ _ _ => true
  | .rdwords _ _ len _ _ => wordCountLegal len
  | .wrbit _ _ start _ _ => bitLegal 8 start
  | .wrbitw _ _ start _ _ => bitLegal 16 start
  | .wrbits _ _ start len _ _ => runLegal 8 start len
  | .wrbitsw _ _ start len _ _ => runLegal 16 start len
  | .wrbyte _ _ _ _ => true
  | .wrword _ _ _ _ => true
  | .wrbytes _ _ _ _ => true
  | .wrwords _ _ len _ => wordWriteCountLegal len
  | .dq16 => true
  | .dq32 => true
  | .dgyro => true
  | .dacc => true
  | .dmag => true
  | .dqf => true
  | .dgyrof => true
  | .daccf => true
  | .dmagf => true
  | .dgrav => true
  | .deuler => true
  | .dypr => true
  | .dlinacc _ => true
  | .cfgrd num => csrReadLegal num
  | .cfgwr num data => csrWriteLegal num data
  | .bufrd _ => true
  | .bufwr _ _ => true
  | .larst => true

end Sys2Proof
end

