-- ==== Sys2Proof/Safety.lean ====
section
/-! DEFINITION. The terms the claims use: what a completed or failed command leaves, what it leaves alone, the
invariant of the block, and the tables of the spec that a claim compares the model with. -/

namespace Sys2Proof.Machine

/-! ## What a command leaves -/

/-- The command completed with status OK and these result words, emitted at time `ms` (R217): idle, RN their number, RES[0..RN−1] the
words, one response, ESTK unchanged. -/
def answeredOk (s t : State) (words : List Word) (ms : Nat) : Prop :=
  t.busy = false ∧ t.rn.toNat = words.length ∧ (ResultRegs.toList t.res).take words.length = words ∧
    t.out = { status := .ok, words := words, ms := ms } :: s.out ∧ t.estk = s.estk

/-- The status code of each failure as rule R210 numbers it. -/
def statusNumber : Failure → Nat
  | .busTimeout => 1
  | .busNack => 2
  | .malformedResponse => 3
  | .channelNotPresent => 4
  | .decodeDegenerate => 5
  | .callerContractViolation => 6

/-- The command ended with failure `f`, emitted at time `ms` (R218): idle, RN = 0, one response without words, the sticky bit of `f` set and
every other ESTK bit kept. -/
def answeredFailure (s t : State) (f : Failure) (ms : Nat) : Prop :=
  t.busy = false ∧ t.rn = 0 ∧ t.out = { status := .failed f, words := [], ms := ms } :: s.out ∧
    ∀ k, k < 7 → t.estk.getLsbD k = (s.estk.getLsbD k || decide (k = statusNumber f))

/-- TMOD, CHEN, LPFA, A1G and the parameters are unchanged. -/
def sameSettings (s t : State) : Prop :=
  t.tmod = s.tmod ∧ t.chen = s.chen ∧ t.lpfa = s.lpfa ∧ t.a1g = s.a1g ∧ t.cfg = s.cfg

/-- Every byte of DB reads as before, valid or not. -/
def sameBuffer (s t : State) : Prop := ∀ a, Memory.read t.buf a = Memory.read s.buf a

/-- PV and P are unchanged. -/
def sameFilter (s t : State) : Prop := t.pv = s.pv ∧ t.prev = s.prev

/-- The command latch and what stands at the ports beside the responses are unchanged. -/
def samePorts (s t : State) : Prop := t.cur = s.cur ∧ t.port = s.port ∧ t.resetLine = s.resetLine

/-- TMP and K are unchanged. -/
def sameLatches (s t : State) : Prop := t.tmp = s.tmp ∧ t.chunk = s.chunk

/-- No driver call is issued and no time is consulted: trace, bus side and timer are unchanged (R190, R140). -/
def noBusUse (s t : State) : Prop :=
  t.calls = s.calls ∧ t.bus = s.bus ∧ t.elapsed = s.elapsed ∧ t.tmoeff = s.tmoeff

/-- Exactly these driver calls were issued, in this order, with `rest` of the script left and `ms` milliseconds used under the timeout the
command takes (R45, R51, R53). -/
def usedBus (s t : State) (tmo : Timeout) (calls : List BusCall) (rest : List CallEvent) (ms : Nat) : Prop :=
  t.calls = calls.reverse ++ s.calls ∧ t.bus = .scripted rest ∧ t.elapsed = ms ∧ t.tmoeff = effectiveTimeout tmo s.tmod

/-- A time of `ms` milliseconds is before the deadline of the timeout the command takes (R45, R46). -/
def inTime (tmo : Timeout) (s : State) (ms : Nat) : Prop :=
  effectiveTimeout tmo s.tmod = 0 ∨ ms < (effectiveTimeout tmo s.tmod).toNat

/-- A refused bus command (R57 point 1): CallerContractViolation at once, no driver call, nothing written but RN, RES, ESTK and the
timer the prologue starts. -/
def refusedBeforeCalls (s t : State) : Prop :=
  answeredFailure s t .callerContractViolation 0 ∧ t.calls = s.calls ∧ t.bus = s.bus ∧
    sameSettings s t ∧ sameBuffer s t ∧ sameFilter s t ∧ samePorts s t ∧ sameLatches s t

/-- A decode or system command that fails with `f` changes nothing but RN, RES and ESTK. -/
def refusedWithoutEffect (s t : State) (f : Failure) : Prop :=
  answeredFailure s t f s.elapsed ∧ noBusUse s t ∧ sameSettings s t ∧ sameBuffer s t ∧ sameFilter s t ∧
    samePorts s t ∧ sameLatches s t

/-- The state after a reset that dropped the running command (R241, R242): the reset values, no response, the host's and the bus
side's own affairs as they stand. -/
def resetFrom (s t : State) : Prop :=
  t = { State.atReset s.cfg with port := s.port, bus := t.bus, calls := t.calls, out := s.out, fresh := t.fresh }

/-! ## Classes of commands -/

/-- The timeout operand of a bus command; `none` for a decode or system command (R45). -/
def timeoutOf : Instr → Option Timeout
  | .rdbit _ _ _ tmo => some tmo
  | .rdbitw _ _ _ tmo => some tmo
  | .rdbits _ _ _ _ tmo => some tmo
  | .rdbitsw _ _ _ _ tmo => some tmo
  | .rdbyte _ _ tmo => some tmo
  | .rdword _ _ tmo => some tmo
  | .rdbytes _ _ _ _ tmo => some tmo
  | .rdwords _ _ _ _ tmo => some tmo
  | .wrbit _ _ _ _ tmo => some tmo
  | .wrbitw _ _ _ _ tmo => some tmo
  | .wrbits _ _ _ _ _ tmo => some tmo
  | .wrbitsw _ _ _ _ _ tmo => some tmo
  | .wrbyte _ _ _ tmo => some tmo
  | .wrword _ _ _ tmo => some tmo
  | .wrbytes _ _ _ tmo => some tmo
  | .wrwords _ _ _ tmo => some tmo
  | .dq16 => none
  | .dq32 => none
  | .dgyro => none
  | .dacc => none
  | .dmag => none
  | .dqf => none
  | .dgyrof => none
  | .daccf => none
  | .dmagf => none
  | .dgrav => none
  | .deuler => none
  | .dypr => none
  | .dlinacc _ => none
  | .cfgrd _ => none
  | .cfgwr _ _ => none
  | .bufrd _ => none
  | .bufwr _ _ => none
  | .larst => none

/-- The CHEN bits a decode command needs, in the order tested (R214); `none` for a command that is no decode command. -/
def channelsOf : Instr → Option (List Nat)
  | .rdbit _ _ _ _ => none
  | .rdbitw _ _ _ _ => none
  | .rdbits _ _ _ _ _ => none
  | .rdbitsw _ _ _ _ _ => none
  | .rdbyte _ _ _ => none
  | .rdword _ _ _ => none
  | .rdbytes _ _ _ _ _ => none
  | .rdwords _ _ _ _ _ => none
  | .wrbit _ _ _ _ _ => none
  | .wrbitw _ _ _ _ _ => none
  | .wrbits _ _ _ _ _ _ => none
  | .wrbitsw _ _ _ _ _ _ => none
  | .wrbyte _ _ _ _ => none
  | .wrword _ _ _ _ => none
  | .wrbytes _ _ _ _ => none
  | .wrwords _ _ _ _ => none
  | .dq16 => some [0]
  | .dq32 => some [0]
  | .dgyro => some [1]
  | .dacc => some [3]
  | .dmag => some [2]
  | .dqf => some [0]
  | .dgyrof => some [1]
  | .daccf => some [3]
  | .dmagf => some [2]
  | .dgrav => some [0]
  | .deuler => some [0]
  | .dypr => some [0]
  | .dlinacc _ => some [0, 3]
  | .cfgrd _ => none
  | .cfgwr _ _ => none
  | .bufrd _ => none
  | .bufwr _ _ => none
  | .larst => none

/-- The device, register and byte count of the read half of a scalar read or a read-modify-write (R51); `none` for the others. -/
def readHalf : Instr → Option (Byte × Byte × Nat)
  | .rdbit dev reg _ _ => some (dev, reg, 1)
  | .rdbitw dev reg _ _ => some (dev, reg, 2)
  | .rdbits dev reg _ _ _ => some (dev, reg, 1)
  | .rdbitsw dev reg _ _ _ => some (dev, reg, 2)
  | .rdbyte dev reg _ => some (dev, reg, 1)
  | .rdword dev reg _ => some (dev, reg, 2)
  | .rdbytes _ _ _ _ _ => none
  | .rdwords _ _ _ _ _ => none
  | .wrbit dev reg _ _ _ => some (dev, reg, 1)
  | .wrbitw dev reg _ _ _ => some (dev, reg, 2)
  | .wrbits dev reg _ _ _ _ => some (dev, reg, 1)
  | .wrbitsw dev reg _ _ _ _ => some (dev, reg, 2)
  | .wrbyte _ _ _ _ => none
  | .wrword _ _ _ _ => none
  | .wrbytes _ _ _ _ => none
  | .wrwords _ _ _ _ => none
  | .dq16 => none
  | .dq32 => none
  | .dgyro => none
  | .dacc => none
  | .dmag => none
  | .dqf => none
  | .dgyrof => none
  | .daccf => none
  | .dmagf => none
  | .dgrav => none
  | .deuler => none
  | .dypr => none
  | .dlinacc _ => none
  | .cfgrd _ => none
  | .cfgwr _ _ => none
  | .bufrd _ => none
  | .bufwr _ _ => none
  | .larst => none

/-- How many result words a command returns when it completes with OK (R79). -/
def resultCount : Instr → Nat
  | .rdbit _ _ _ _ => 1
  | .rdbitw _ _ _ _ => 1
  | .rdbits _ _ _ _ _ => 1
  | .rdbitsw _ _ _ _ _ => 1
  | .rdbyte _ _ _ => 1
  | .rdword _ _ _ => 1
  | .rdbytes _ _ _ _ _ => 0
  | .rdwords _ _ _ _ _ => 0
  | .wrbit _ _ _ _ _ => 0
  | .wrbitw _ _ _ _ _ => 0
  | .wrbits _ _ _ _ _ _ => 0
  | .wrbitsw _ _ _ _ _ _ => 0
  | .wrbyte _ _ _ _ => 0
  | .wrword _ _ _ _ => 0
  | .wrbytes _ _ _ _ => 0
  | .wrwords _ _ _ _ => 0
  | .dq16 => 4
  | .dq32 => 4
  | .dgyro => 3
  | .dacc => 3
  | .dmag => 3
  | .dqf => 4
  | .dgyrof => 3
  | .daccf => 3
  | .dmagf => 3
  | .dgrav => 3
  | .deuler => 3
  | .dypr => 3
  | .dlinacc _ => 3
  | .cfgrd _ => 1
  | .cfgwr _ _ => 0
  | .bufrd _ => 1
  | .bufwr _ _ => 0
  | .larst => 0

/-- The word `w` has this opcode and no reserved flag bit (R74). -/
def opcodeIs (w : CommandWord) (op : Byte) : Prop := w.extractLsb' 72 8 = op ∧ w.extractLsb' 35 5 = 0

/-! ## The frame, in the spec's own offsets -/

/-- The frame length of CHEN (R22). -/
def frameLength (chen : BitVec 4) : Nat :=
  16 * (chen.getLsbD 0).toNat + 8 * (chen.getLsbD 1).toNat + 8 * (chen.getLsbD 2).toNat + 16 * (chen.getLsbD 3).toNat

/-- DB holds a complete frame, byte a being `bs a` (R140, R141). -/
def frameHolds (s : State) (bs : Nat → Byte) : Prop :=
  ∀ a, a < frameLength s.chen → Memory.read s.buf a = some (bs a)

/-- A decode command touches no other state: no driver call, DB, the settings and the latches as before (R140). The filter state is claimed
separately. -/
def quietDecode (s t : State) : Prop :=
  noBusUse s t ∧ sameSettings s t ∧ sameBuffer s t ∧ samePorts s t ∧ sameLatches s t

/-- The 16-bit field at offset o as a sign-extended word (R142, R143). -/
def field16 (bs : Nat → Byte) (o : Nat) : Word := (bs o ++ bs (o + 1)).signExtend 32

/-- The 16-bit field at offset o as an integer (R142). -/
def int16 (bs : Nat → Byte) (o : Nat) : Int := (bs o ++ bs (o + 1)).toInt

/-- The 32-bit field at offset o as its pattern (R142, R144). -/
def field32 (bs : Nat → Byte) (o : Nat) : Word := bs o ++ bs (o + 1) ++ bs (o + 2) ++ bs (o + 3)

/-- The raw quaternion of a frame (R162). -/
def quatAt (bs : Nat → Byte) : RawQuat :=
  ⟨(field32 bs 0).toInt, (field32 bs 4).toInt, (field32 bs 8).toInt, (field32 bs 12).toInt⟩

/-- S of a raw quaternion (R162). -/
def sumSquares (q : RawQuat) : Int := q.w ^ 2 + q.x ^ 2 + q.y ^ 2 + q.z ^ 2

/-- gx, gy, gz on the unit quaternion's exact rationals (R168). -/
def gravityX (q : RawQuat) : Rat := 2 * ((q.x : Rat) * q.z - q.w * q.y) / sumSquares q

/-- See `gravityX`. -/
def gravityY (q : RawQuat) : Rat := 2 * ((q.w : Rat) * q.x + q.y * q.z) / sumSquares q

/-- See `gravityX`. -/
def gravityZ (q : RawQuat) : Rat := ((q.w : Rat) ^ 2 - q.x ^ 2 - q.y ^ 2 + q.z ^ 2) / sumSquares q

/-- `rnd` of Wr / √S in the numerics of the parameters (R164). -/
def rndComponent (s : State) (n S : Int) : Word :=
  (numericsOf s.cfg.numerics).rnd { neg := decide (n < 0), square := (n : Rat) ^ 2 / S }

/-- `rnd` of a rational in the numerics of the parameters (R161). -/
def rndValue (s : State) (q : Rat) : Word :=
  (numericsOf s.cfg.numerics).rnd { neg := decide (q < 0), square := q ^ 2 }

/-- The offset of the accel group (R141). -/
def accelBase (chen : BitVec 4) : Nat :=
  16 * (chen.getLsbD 0).toNat + 8 * (chen.getLsbD 1).toNat + 8 * (chen.getLsbD 2).toNat

/-- The offset of the mag group (R141). -/
def magBase (chen : BitVec 4) : Nat := 16 * (chen.getLsbD 0).toNat + 8 * (chen.getLsbD 1).toNat

/-- The offset of the gyro group (R141). -/
def gyroBase (chen : BitVec 4) : Nat := 16 * (chen.getLsbD 0).toNat

/-- xl of one axis (R174): the raw acceleration less gravity times A1G. -/
def linearAt (s : State) (a : Int) (g : Rat) : Rat := a - g * s.a1g.toNat

/-! ## The invariant -/

/-- A call the engine may issue (R42, R43): 1 to BUS_CAP bytes. -/
def callLegal (busCap : Nat) : BusCall → Bool
  | .write _ bytes => decide (1 ≤ bytes.length) && decide (bytes.length ≤ busCap)
  | .read _ n => decide (1 ≤ n) && decide (n ≤ busCap)

/-- A response of the format R79: at most four words, none with a failure. -/
def responseLegal (r : Response) : Bool :=
  match r.status with
  | .ok => decide (r.words.length ≤ 4)
  | .failed _ => r.words.isEmpty

/-- The invariant of the block between steps: DB in canonical form inside 0..255 (R14), ESTK bit 0 clear (R17), RN at most 4 (R10),
BUSY = 1 only in the hang (R223), every driver call issued within the capacity (R42, R43), every response of the format (R79). -/
def State.inv (s : State) : Prop :=
  Memory.wf s.buf = true ∧ Memory.below 256 s.buf = true ∧ s.estk.getLsbD 0 = false ∧ s.rn.toNat ≤ 4 ∧
    (s.busy = true → s.tmoeff = 0) ∧ (∀ c ∈ s.calls, callLegal s.cfg.busCap c = true) ∧
    (∀ r ∈ s.out, responseLegal r = true)

/-! ## Tables of the spec that claims compare with -/

/-- The 34 opcodes of R74. -/
def opcodeList : List Nat :=
  [0x10, 0x11, 0x12, 0x13, 0x14, 0x15, 0x16, 0x17, 0x20, 0x21, 0x22, 0x23, 0x24, 0x25, 0x26, 0x27,
   0x40, 0x41, 0x42, 0x43, 0x44, 0x48, 0x49, 0x4A, 0x4B, 0x4C, 0x4D, 0x4E, 0x4F, 0x80, 0x81, 0x82, 0x83, 0x84]

/-- The bits of a word that a bus command uses (R71): OP, DEV, REG and TD always, TMO with TD = 0, and the others given. -/
def busMask (tmo : Timeout) (start len ai : Bool) (data : HalfWord) : CommandWord :=
  wordOf
    { op := 0xFF
      dev := 0xFF
      reg := 0xFF
      start := if start then 0xFF else 0
      len := if len then 0xFF else 0
      flags := if ai then 3 else 1
      tmo := match tmo with
        | .default => 0
        | .ms _ => 0xFFFF
      data := data }

/-- The bits of a word that another command uses (R71). -/
def plainMask (reg lp : Bool) (data : HalfWord) : CommandWord :=
  wordOf
    { op := 0xFF
      dev := 0
      reg := if reg then 0xFF else 0
      start := 0
      len := 0
      flags := if lp then 4 else 0
      tmo := 0
      data := data }

/-- The field-use table R71: the bits of its word that a command uses. DATA is "bit 0" for the single-bit writes, "bits 7:0" for WRBYTE and
BUFWR, all 16 for the bit-run writes (whose value is its low LEN bits), WRWORD and CFGWR. -/
def usedBits : Instr → CommandWord
  | .rdbit _ _ _ tmo => busMask tmo true false false 0
  | .rdbitw _ _ _ tmo => busMask tmo true false false 0
  | .rdbits _ _ _ _ tmo => busMask tmo true true false 0
  | .rdbitsw _ _ _ _ tmo => busMask tmo true true false 0
  | .rdbyte _ _ tmo => busMask tmo false false false 0
  | .rdword _ _ tmo => busMask tmo false false false 0
  | .rdbytes _ _ _ _ tmo => busMask tmo false true true 0
  | .rdwords _ _ _ _ tmo => busMask tmo false true true 0
  | .wrbit _ _ _ _ tmo => busMask tmo true false false 1
  | .wrbitw _ _ _ _ tmo => busMask tmo true false false 1
  | .wrbits _ _ _ _ _ tmo => busMask tmo true true false 0xFFFF
  | .wrbitsw _ _ _ _ _ tmo => busMask tmo true true false 0xFFFF
  | .wrbyte _ _ _ tmo => busMask tmo false false false 0xFF
  | .wrword _ _ _ tmo => busMask tmo false false false 0xFFFF
  | .wrbytes _ _ _ tmo => busMask tmo false true false 0
  | .wrwords _ _ _ tmo => busMask tmo false true false 0
  | .dq16 => plainMask false false 0
  | .dq32 => plainMask false false 0
  | .dgyro => plainMask false false 0
  | .dacc => plainMask false false 0
  | .dmag => plainMask false false 0
  | .dqf => plainMask false false 0
  | .dgyrof => plainMask false false 0
  | .daccf => plainMask false false 0
  | .dmagf => plainMask false false 0
  | .dgrav => plainMask false false 0
  | .deuler => plainMask false false 0
  | .dypr => plainMask false false 0
  | .dlinacc _ => plainMask false true 0
  | .cfgrd _ => plainMask true false 0
  | .cfgwr _ _ => plainMask true false 0xFFFF
  | .bufrd _ => plainMask true false 0
  | .bufwr _ _ => plainMask true false 0xFF
  | .larst => plainMask false false 0

/-- Offset `o` holds a pad byte of the layout of CHEN other than a quaternion pad (R141, R148): the last cell of the GYRO and MAG groups,
and of the ACCEL group the cells +2, +6, +10, +12, +14. The four arguments are the CHEN bits QUAT, GYRO, MAG, ACCEL. -/
def padOffset (q g m a : Bool) (o : Nat) : Bool :=
  let gb := if q then 16 else 0
  let mb := gb + (if g then 8 else 0)
  let ab := mb + (if m then 8 else 0)
  (g && decide (o = gb + 6 ∨ o = gb + 7)) || (m && decide (o = mb + 6 ∨ o = mb + 7)) ||
    (a && decide (o = ab + 2 ∨ o = ab + 3 ∨ o = ab + 6 ∨ o = ab + 7 ∨ (ab + 10 ≤ o ∧ o ≤ ab + 15)))

/-- The decode commands that read no 32-bit view of a quaternion component (R142 to R147, R165 to R167): the quaternion pads are pads to them. -/
def shortViews : List Instr := [.dq16, .dgyro, .dacc, .dmag, .dgyrof, .daccf, .dmagf]

/-- The chunks of a split sequence read of `n` bytes, `cap` bytes at most each (R56): ceil(n / cap) of them, chunk j at byte offset j · cap,
every one but the last of exactly cap bytes. -/
def chunkPlan (cap n : Nat) : List (Nat × Nat) :=
  (List.range ((n + cap - 1) / cap)).map fun j => (j * cap, min cap (n - j * cap))

/-- The calls of a split sequence read, in order: W[a_k], R(m) for each chunk (R56, R51). -/
def chunkCalls (dev reg : Byte) (inc : Bool) (plan : List (Nat × Nat)) : List BusCall :=
  plan.flatMap fun c =>
    [.write dev [if inc then BitVec.ofNat 8 (reg.toNat + c.1) else reg], .read dev c.2]

/-- A script that answers every address write after `dw` milliseconds and every read after `dr` with the next bytes of `data`. -/
def chunkScript (dw dr : Nat) (data : List Byte) (plan : List (Nat × Nat)) : List CallEvent :=
  plan.flatMap fun c => [.answered dw (.ack []), .answered dr (.ack ((data.drop c.1).take c.2))]

/-- A store of an ideal device in canonical form (R60): addresses strictly rising, and no listed 0. -/
def zeroFree : Memory → Bool
  | [] => true
  | (_, b) :: rest => !(b == 0) && zeroFree rest

/-- The ideal device's stores are canonical. -/
def deviceWf (d : IdealDevice) : Bool :=
  Memory.wf d.mem && zeroFree d.mem && Memory.wf d.ptr && zeroFree d.ptr

end Sys2Proof.Machine
end

