-- ==== Sys2Proof/Certificates/Slice0/Obligations.lean ====
section
/-! DEFINITION. The statements for the provers. -/

open Sys2Proof Sys2Proof.Machine

/-! ### Encoding -/

/-- R70 to R74: the decoder reads every encoded command back, with every operand at every value, from the word and from the
bytes of a byte-serial port. -/
def Obligations.DecodeReadsEveryEncodedCommand : Prop :=
  ∀ i : Instr, decodeWord (encode i) = .ok i ∧ decode (encodeBytes i) = .ok i

/-- R71: the decoder keeps exactly the bits a command uses; every other bit of the word is ignored. -/
def Obligations.DecodeKeepsExactlyTheUsedBits : Prop :=
  ∀ (w : CommandWord) (i : Instr), decodeWord w = .ok i → encode i = w &&& usedBits i

/-- R74: a word is a command exactly when its opcode is one of the 34 and its five reserved flag bits are 0. -/
def Obligations.CommandsAreTheOpcodeTable : Prop :=
  ∀ w : CommandWord, (∃ i, decodeWord w = .ok i) ↔
    (w.extractLsb' 35 5 = 0 ∧ (w.extractLsb' 72 8).toNat ∈ opcodeList)

/-- R80: the six example words of the spec decode to the commands it prints beside them. -/
def Obligations.ExampleWordsDecode : Prop :=
  decodeWord 0x22681B04020000640003 = .ok (.wrbits 0x68 0x1B 4 2 3 (.ms 100)) ∧
  decodeWord 0x12681B04020100000000 = .ok (.rdbits 0x68 0x1B 4 2 .default) ∧
  decodeWord 0x16687400300000320000 = .ok (.rdbytes 0x68 0x74 48 false (.ms 50)) ∧
  decodeWord 0x48000000000000000000 = .ok .dqf ∧
  decodeWord 0x4F000000000400000000 = .ok (.dlinacc true) ∧
  decodeWord 0x8100020000000000000F = .ok (.cfgwr 2 0xF)

/-- R75: a reserved opcode or a reserved flag bit is accepted (the command latch, the timer and K as acceptance writes them, R12, R241) and
refused at once: no driver call, and no change but RN, ESTK bit 6 and the unspecified RES. -/
def Obligations.ReservedEncodingsAreRefused : Prop :=
  ∀ (s : State) (w : CommandWord) (rest : List CommandWord),
    s.resetLine = false → s.busy = false → s.port = w :: rest →
    (w.extractLsb' 35 5 ≠ 0 ∨ (w.extractLsb' 72 8).toNat ∉ opcodeList) →
    ∃ t, step s = .next t ∧ answeredFailure s t .callerContractViolation 0 ∧ t.calls = s.calls ∧ t.bus = s.bus ∧
      sameSettings s t ∧ sameBuffer s t ∧ sameFilter s t ∧ t.tmp = s.tmp ∧ t.tmoeff = s.tmoeff ∧ t.port = rest ∧
      t.cur = w ∧ t.elapsed = 0 ∧ t.chunk = 0 ∧ t.resetLine = false

/-! ### Steps, reset, invariant -/

/-- R12: an idle engine accepts the presented command (BUSY, CUR, ELAPSED, K written, the port moved on) and runs it. -/
def Obligations.StepRunsTheDecodedCommand : Prop :=
  ∀ (s : State) (w : CommandWord) (rest : List CommandWord) (i : Instr),
    s.resetLine = false → s.busy = false → s.port = w :: rest → decodeWord w = .ok i →
    step s = exec i { s with busy := true, cur := w, elapsed := 0, chunk := 0, port := rest }

/-- R12, R223: with nothing presented an idle engine stays as it is; while BUSY = 1 no further step happens (the fault `hung`, log 11). -/
def Obligations.IdleStaysAndHangHolds : Prop :=
  ∀ s : State, s.resetLine = false →
    (s.busy = false → s.port = [] → step s = .next s) ∧ (s.busy = true → step s = .fault .hung)

/-- R240, R242: asserted reset gives the reset values, whatever the block was doing, the hang included; the bus side and the record of its calls
are no part of the block and stay (log 6). -/
def Obligations.AssertedResetRestoresTheResetState : Prop :=
  ∀ s : State, s.resetLine = true →
    ∃ t, step s = .next t ∧ resetFrom s t ∧ t.bus = s.bus ∧ t.calls = s.calls

/-- R28, R241: the guaranteed reset values, for every setting of the parameters; the machine's reset state is one of these. -/
def Obligations.ResetLeavesTheGuaranteedValues : Prop :=
  (∀ cfg : Params,
    (State.atReset cfg).rn = 0 ∧ (State.atReset cfg).busy = false ∧ (State.atReset cfg).estk = 0 ∧
    (State.atReset cfg).tmod = cfg.defaultTimeoutMs ∧ (State.atReset cfg).chen = 0 ∧ (State.atReset cfg).lpfa = 0 ∧
    (State.atReset cfg).a1g = 0 ∧ (∀ a, Memory.read (State.atReset cfg).buf a = none) ∧
    (State.atReset cfg).pv = false ∧ (State.atReset cfg).elapsed = 0 ∧ (State.atReset cfg).chunk = 0 ∧
    frameLength (State.atReset cfg).chen = 0 ∧ (State.atReset cfg).cfg.busCap = cfg.busCap) ∧
  State.reset = State.atReset Config.params

/-- Every step keeps the invariant: DB canonical, ESTK bit 0 clear, RN at most 4, BUSY only in the hang, every driver call of 1 to
BUS_CAP bytes, every response of the stated format. -/
def Obligations.StepKeepsTheInvariant : Prop :=
  ∀ s t : State, s.inv → step s = .next t → t.inv

/-- The reset state meets the invariant, for every setting of the parameters. -/
def Obligations.ResetMeetsTheInvariant : Prop :=
  State.reset.inv ∧ ∀ cfg : Params, (State.atReset cfg).inv

/-- R12, R79, R223, R242: a command ends with exactly one response and an idle engine, or reset dropped it without a response, or it is a bus
command without bound that hangs. The state a reset leaves is the model's `State.atReset`: RES, CUR, P, TMP and TMOeff 0 in it are
the model's choice (log 7), and what stands outside the block stays (log 6). -/
def Obligations.OneResponsePerCommand : Prop :=
  ∀ (i : Instr) (s t : State), exec i s = .next t →
    (∃ r, t.out = r :: s.out ∧ t.busy = false) ∨ resetFrom s t ∨
    (t.out = s.out ∧ t.busy = true ∧ t.tmoeff = 0 ∧ timeoutOf i ≠ none)

/-- R45, R223, "No operation blocks beyond its configured timeout": with TMOeff ≠ 0 a bus command leaves the engine idle, and its response is
emitted no later than TMOeff. -/
def Obligations.NoCommandOutlastsItsTimeout : Prop :=
  ∀ (i : Instr) (tmo : Timeout) (s t : State), timeoutOf i = some tmo → effectiveTimeout tmo s.tmod ≠ 0 →
    exec i s = .next t →
    t.busy = false ∧ ∀ r, t.out = r :: s.out → r.ms ≤ (effectiveTimeout tmo s.tmod).toNat

/-- R17, R218: no completed command clears an ESTK bit, but CFGWR to ESTK; a command that reports a failure sets that failure's bit. -/
def Obligations.ErrorBitsAreSticky : Prop :=
  ∀ (i : Instr) (s t : State) (r : Response), exec i s = .next t → t.out = r :: s.out →
    ((∀ data, i ≠ .cfgwr 0 data) → ∀ k, s.estk.getLsbD k = true → t.estk.getLsbD k = true) ∧
    (∀ f, r.status = .failed f → t.estk.getLsbD (statusNumber f) = true)

/-- What a completed command leaves alone, over all 34 commands: only CFGWR writes TMOD, CHEN, LPFA, A1G; only `DLINACC lp` and LARST write
PV and P; only RDBYTES, RDWORDS and BUFWR write DB; none writes CUR, the presented commands or the parameters. -/
def Obligations.OnlyTheNamedCommandsWrite : Prop :=
  ∀ (i : Instr) (s t : State) (r : Response), exec i s = .next t → t.out = r :: s.out →
    samePorts s t ∧ t.cfg = s.cfg ∧
    ((∀ num data, i ≠ .cfgwr num data) → sameSettings s t) ∧
    (i ≠ .dlinacc true → i ≠ .larst → sameFilter s t) ∧
    ((∀ dev reg len inc tmo, i ≠ .rdbytes dev reg len inc tmo ∧ i ≠ .rdwords dev reg len inc tmo) →
      (∀ idx data, i ≠ .bufwr idx data) → sameBuffer s t)

/-- R79: RN of every command. With OK a command returns 1 word for the six scalar reads, CFGRD and BUFRD, 4 for DQ16, DQ32 and DQF, 3 for every
other decode command and 0 for the rest; with any other status none. -/
def Obligations.ResultCountOfEveryCommand : Prop :=
  ∀ (i : Instr) (s t : State) (r : Response), exec i s = .next t → t.out = r :: s.out →
    (r.status = .ok → r.words.length = resultCount i ∧ t.rn.toNat = resultCount i) ∧
    (r.status ≠ .ok → r.words = [] ∧ t.rn = 0)

/-- R211 to R214: which commands can report which failure. BusTimeout needs a bus command with a bound, BusNack a bus command, MalformedResponse one
that reads, ChannelNotPresent a decode command with a channel off. -/
def Obligations.FailureStatusesOfEachFamily : Prop :=
  ∀ (i : Instr) (s t : State) (r : Response) (f : Failure), exec i s = .next t → t.out = r :: s.out → r.status = .failed f →
    (f = .busTimeout → ∃ tmo, timeoutOf i = some tmo ∧ effectiveTimeout tmo s.tmod ≠ 0) ∧
    (f = .busNack → timeoutOf i ≠ none) ∧
    (f = .malformedResponse → readHalf i ≠ none ∨
      ∃ dev reg len inc tmo, i = .rdbytes dev reg len inc tmo ∨ i = .rdwords dev reg len inc tmo) ∧
    (f = .channelNotPresent → ∃ need, channelsOf i = some need ∧ ∃ c ∈ need, s.chen.getLsbD c = false)

/-- R223: no command issues more than 2·ceil(256 / 2) = 256 driver calls, and the trace only grows. -/
def Obligations.AtMostTwoHundredFiftySixCalls : Prop :=
  ∀ (i : Instr) (s t : State), exec i s = .next t → ∃ new, t.calls = new ++ s.calls ∧ new.length ≤ 256

/-- R217: `complete` writes RN and RES, emits one OK response, falls idle and leaves ESTK and everything else alone; and the failing
counterpart `raise` does what R218 says, with everything written before it kept. -/
def Obligations.CompletionAndFailure : Prop :=
  ∀ (s : State) (values : List Word) (f : Failure), values.length ≤ 4 →
    (answeredOk s (complete values s) values s.elapsed ∧ quietDecode s (complete values s) ∧
      sameFilter s (complete values s)) ∧
    refusedWithoutEffect s (raise f s) f

/-- R46: what one driver call makes of its draw: the deadline first, then the answer; a call that never returns without a bound leaves BUSY = 1 and
no response. -/
def Obligations.DriverCallRule : Prop :=
  ∀ (c : BusCall) (s s1 : State) (e : CallEvent) (rest : List CallEvent), s.bus = .scripted (e :: rest) →
    s1 = { s with
      bus := .scripted rest
      calls := c :: s.calls
      fresh := s.fresh + 1 } →
    (e = .never → s.tmoeff ≠ 0 → call c s = .stop (raiseAt s.tmoeff.toNat .busTimeout s1)) ∧
    (e = .never → s.tmoeff = 0 → call c s = .stop { s1 with busy := true }) ∧
    (∀ d reply, e = .answered d reply →
      (s.tmoeff ≠ 0 → s.tmoeff.toNat ≤ s.elapsed + d → call c s = .stop (raiseAt s.tmoeff.toNat .busTimeout s1)) ∧
      (s.tmoeff = 0 ∨ s.elapsed + d < s.tmoeff.toNat →
        (∀ bytes, reply = .ack bytes →
          (∀ dev sent, c = .write dev sent → call c s = .go [] { s1 with elapsed := s.elapsed + d }) ∧
          (∀ dev n, c = .read dev n →
            (bytes.length = n → call c s = .go bytes { s1 with elapsed := s.elapsed + d }) ∧
            (bytes.length ≠ n →
              call c s = .stop (raiseAt (s.elapsed + d) .malformedResponse { s1 with elapsed := s.elapsed + d })))) ∧
        (reply = .nack →
          call c s = .stop (raiseAt (s.elapsed + d) .busNack { s1 with elapsed := s.elapsed + d }))))

/-- R78, an inference of the spec's own (R81: "[derived: from rule R78]"): a single-bit command is the bit-run command with LEN = 1 at the same bit number, the new bit in DATA[0]. -/
def Obligations.SingleBitFormsAreRunsOfLengthOne : Prop :=
  ∀ (s : State) (dev reg bit : Byte) (data : HalfWord) (tmo : Timeout),
    exec (.rdbit dev reg bit tmo) s = exec (.rdbits dev reg bit 1 tmo) s ∧
    exec (.rdbitw dev reg bit tmo) s = exec (.rdbitsw dev reg bit 1 tmo) s ∧
    exec (.wrbit dev reg bit (data.getLsbD 0) tmo) s = exec (.wrbits dev reg bit 1 data tmo) s ∧
    exec (.wrbitw dev reg bit (data.getLsbD 0) tmo) s = exec (.wrbitsw dev reg bit 1 data tmo) s

/-- R216: a command whose own operands are illegal ends with CallerContractViolation, before any driver call and with no other change. -/
def Obligations.IllFormedCommandsAreRefused : Prop :=
  ∀ (i : Instr) (s : State), i.wellFormed = false →
    ∃ t ms, exec i s = .next t ∧ answeredFailure s t .callerContractViolation ms ∧ t.calls = s.calls ∧ t.bus = s.bus ∧
      sameSettings s t ∧ sameBuffer s t ∧ sameFilter s t ∧ samePorts s t ∧ sameLatches s t

/-- R79: the response is a header byte with RN in bits 6:4 and STATUS in bits 2:0, the other bits 0, and four bytes for each result
word, most significant first. -/
def Obligations.ResponseFormat : Prop :=
  ∀ r : Response, r.words.length ≤ 4 →
    (responseBytes r).length = 1 + 4 * r.words.length ∧
    (responseHeader r).toNat =
      16 * r.words.length + (match r.status with | .ok => 0 | .failed f => statusNumber f) ∧
    responseBytes r = responseHeader r ::
      r.words.flatMap fun w =>
        [BitVec.ofNat 8 (w.toNat / 2 ^ 24), BitVec.ofNat 8 (w.toNat / 2 ^ 16), BitVec.ofNat 8 (w.toNat / 2 ^ 8),
         BitVec.ofNat 8 w.toNat]

/-! ### Field arithmetic -/

/-- R78: `extract` reads the run of `len` bits whose top bit is `start`, right-aligned, at every width. -/
def Obligations.ExtractReadsTheRun : Prop :=
  ∀ (w : Nat) (x : BitVec w) (start len : Nat), start < w → 1 ≤ len → len ≤ start + 1 →
    (extractField x start len).toNat = x.toNat / 2 ^ (start + 1 - len) % 2 ^ len

/-- R78: `insert` replaces exactly the bits of the run, by the low bits of the value. -/
def Obligations.InsertReplacesExactlyTheRun : Prop :=
  ∀ (w : Nat) (x v : BitVec w) (start len : Nat), start < w → 1 ≤ len → len ≤ start + 1 →
    ∀ k, k < w → (insertField x start len v).getLsbD k =
      (if start + 1 - len ≤ k ∧ k ≤ start then v.getLsbD (k - (start + 1 - len)) else x.getLsbD k)

/-- R78, the laws, an inference the spec marks as its own ("Laws [derived: from the definitions]"): reading back an inserted value gives it modulo 2^len, inserting what is there changes nothing, and the full-width run is
the whole register. -/
def Obligations.FieldLaws : Prop :=
  ∀ (w : Nat) (x v : BitVec w) (start len : Nat), start < w → 1 ≤ len → len ≤ start + 1 →
    (extractField (insertField x start len v) start len).toNat = v.toNat % 2 ^ len ∧
    insertField x start len v &&& ~~~(fieldMask w start len) = x &&& ~~~(fieldMask w start len) ∧
    insertField x start len (extractField x start len) = x ∧
    (len = w → start = w - 1 → extractField x start len = x ∧ insertField x start len v = v)

/-! ### Bus reads -/

/-- R101, R102: RDBIT and RDBITW return the bit as 0 or 1, by the calls W[REG], R(1) or R(2), with everything else unchanged. -/
def Obligations.ReadBitReturnsTheBit : Prop :=
  ∀ (s : State) (dev reg start : Byte) (tmo : Timeout) (d1 d2 : Nat) (x : List Byte) (b0 b1 : Byte)
    (rest : List CallEvent), inTime tmo s (d1 + d2) →
    (start.toNat ≤ 7 → s.bus = .scripted (.answered d1 (.ack x) :: .answered d2 (.ack [b0]) :: rest) →
      ∃ t, exec (.rdbit dev reg start tmo) s = .next t ∧
        answeredOk s t [if b0.getLsbD start.toNat then 1 else 0] (d1 + d2) ∧
        usedBus s t tmo [.write dev [reg], .read dev 1] rest (d1 + d2) ∧
        sameSettings s t ∧ sameBuffer s t ∧ sameFilter s t ∧ samePorts s t ∧ sameLatches s t) ∧
    (start.toNat ≤ 15 → s.bus = .scripted (.answered d1 (.ack x) :: .answered d2 (.ack [b0, b1]) :: rest) →
      ∃ t, exec (.rdbitw dev reg start tmo) s = .next t ∧
        answeredOk s t [if (b0 ++ b1).getLsbD start.toNat then 1 else 0] (d1 + d2) ∧
        usedBus s t tmo [.write dev [reg], .read dev 2] rest (d1 + d2) ∧
        sameSettings s t ∧ sameBuffer s t ∧ sameFilter s t ∧ samePorts s t ∧ sameLatches s t)

/-- R103, R104: RDBITS and RDBITSW return bits START down to START − LEN + 1 of the byte, or of the big-endian word, right-aligned. -/
def Obligations.ReadBitRunReturnsTheRun : Prop :=
  ∀ (s : State) (dev reg start len : Byte) (tmo : Timeout) (d1 d2 : Nat) (x : List Byte) (b0 b1 : Byte)
    (rest : List CallEvent), inTime tmo s (d1 + d2) → 1 ≤ len.toNat → len.toNat ≤ start.toNat + 1 →
    (start.toNat ≤ 7 → s.bus = .scripted (.answered d1 (.ack x) :: .answered d2 (.ack [b0]) :: rest) →
      ∃ t, exec (.rdbits dev reg start len tmo) s = .next t ∧
        answeredOk s t [BitVec.ofNat 32 (b0.toNat / 2 ^ (start.toNat + 1 - len.toNat) % 2 ^ len.toNat)] (d1 + d2) ∧
        usedBus s t tmo [.write dev [reg], .read dev 1] rest (d1 + d2) ∧
        sameSettings s t ∧ sameBuffer s t ∧ sameFilter s t ∧ samePorts s t ∧ sameLatches s t) ∧
    (start.toNat ≤ 15 → s.bus = .scripted (.answered d1 (.ack x) :: .answered d2 (.ack [b0, b1]) :: rest) →
      ∃ t, exec (.rdbitsw dev reg start len tmo) s = .next t ∧
        answeredOk s t
          [BitVec.ofNat 32 ((256 * b0.toNat + b1.toNat) / 2 ^ (start.toNat + 1 - len.toNat) % 2 ^ len.toNat)] (d1 + d2) ∧
        usedBus s t tmo [.write dev [reg], .read dev 2] rest (d1 + d2) ∧
        sameSettings s t ∧ sameBuffer s t ∧ sameFilter s t ∧ samePorts s t ∧ sameLatches s t)

/-- R105, R106: RDBYTE and RDWORD return the byte, or the big-endian word, zero-extended. -/
def Obligations.ReadByteAndWordZeroExtend : Prop :=
  ∀ (s : State) (dev reg : Byte) (tmo : Timeout) (d1 d2 : Nat) (x : List Byte) (b0 b1 : Byte)
    (rest : List CallEvent), inTime tmo s (d1 + d2) →
    (s.bus = .scripted (.answered d1 (.ack x) :: .answered d2 (.ack [b0]) :: rest) →
      ∃ t, exec (.rdbyte dev reg tmo) s = .next t ∧ answeredOk s t [BitVec.ofNat 32 b0.toNat] (d1 + d2) ∧
        usedBus s t tmo [.write dev [reg], .read dev 1] rest (d1 + d2) ∧
        sameSettings s t ∧ sameBuffer s t ∧ sameFilter s t ∧ samePorts s t ∧ sameLatches s t) ∧
    (s.bus = .scripted (.answered d1 (.ack x) :: .answered d2 (.ack [b0, b1]) :: rest) →
      ∃ t, exec (.rdword dev reg tmo) s = .next t ∧
        answeredOk s t [BitVec.ofNat 32 (256 * b0.toNat + b1.toNat)] (d1 + d2) ∧
        usedBus s t tmo [.write dev [reg], .read dev 2] rest (d1 + d2) ∧
        sameSettings s t ∧ sameBuffer s t ∧ sameFilter s t ∧ samePorts s t ∧ sameLatches s t)

/-- R76: the descriptor table. An illegal bit number or descriptor is refused before any driver call; a legal one is not refused: its
first driver call is issued. -/
def Obligations.DescriptorTable : Prop :=
  ∀ (s : State) (dev reg start len : Byte) (bit : Bool) (data : HalfWord) (tmo : Timeout),
    (∀ i, i = Instr.rdbit dev reg start tmo ∨ i = Instr.wrbit dev reg start bit tmo →
      ∃ t, exec i s = .next t ∧
        (if start.toNat ≤ 7 then s.calls.length < t.calls.length else refusedBeforeCalls s t)) ∧
    (∀ i, i = Instr.rdbitw dev reg start tmo ∨ i = Instr.wrbitw dev reg start bit tmo →
      ∃ t, exec i s = .next t ∧
        (if start.toNat ≤ 15 then s.calls.length < t.calls.length else refusedBeforeCalls s t)) ∧
    (∀ i, i = Instr.rdbits dev reg start len tmo ∨ i = Instr.wrbits dev reg start len data tmo →
      ∃ t, exec i s = .next t ∧
        (if start.toNat ≤ 7 ∧ 1 ≤ len.toNat ∧ len.toNat ≤ 8 ∧ len.toNat ≤ start.toNat + 1 then
          s.calls.length < t.calls.length else refusedBeforeCalls s t)) ∧
    (∀ i, i = Instr.rdbitsw dev reg start len tmo ∨ i = Instr.wrbitsw dev reg start len data tmo →
      ∃ t, exec i s = .next t ∧
        (if start.toNat ≤ 15 ∧ 1 ≤ len.toNat ∧ len.toNat ≤ 16 ∧ len.toNat ≤ start.toNat + 1 then
          s.calls.length < t.calls.length else refusedBeforeCalls s t))

/-- R107, R56: RDBYTES of L ≥ 1 bytes issues ceil(L / BUS_CAP) chunks, each with its own register-address write (REG, or REG plus the bytes already
read modulo 256), and on success DB holds exactly the L delivered bytes. Every address write takes the same time in the script, and every read; L = 0
is in `SequenceLengthTable`. -/
def Obligations.ByteSequenceReadDelivers : Prop :=
  ∀ (s : State) (dev reg len : Byte) (inc : Bool) (tmo : Timeout) (dw dr : Nat) (data : List Byte)
    (rest : List CallEvent),
    1 ≤ len.toNat → data.length = len.toNat →
    s.bus = .scripted (chunkScript dw dr data (chunkPlan s.cfg.busCap len.toNat) ++ rest) →
    inTime tmo s ((chunkPlan s.cfg.busCap len.toNat).length * (dw + dr)) →
    ∃ t, exec (.rdbytes dev reg len inc tmo) s = .next t ∧
      answeredOk s t [] ((chunkPlan s.cfg.busCap len.toNat).length * (dw + dr)) ∧
      usedBus s t tmo (chunkCalls dev reg inc (chunkPlan s.cfg.busCap len.toNat)) rest
        ((chunkPlan s.cfg.busCap len.toNat).length * (dw + dr)) ∧
      (∀ a, Memory.read t.buf a = data[a]?) ∧
      sameSettings s t ∧ sameFilter s t ∧ samePorts s t ∧ t.tmp = s.tmp ∧ t.chunk = len.toNat

/-- R108, R56: RDWORDS of 1 to 128 words does the same for 2L bytes, with chunks of an even number of bytes. Every address write takes
the same time in the script, and every read; L = 0 and L > 128 are in `SequenceLengthTable`. -/
def Obligations.WordSequenceReadDelivers : Prop :=
  ∀ (s : State) (dev reg len : Byte) (inc : Bool) (tmo : Timeout) (dw dr : Nat) (data : List Byte)
    (rest : List CallEvent),
    1 ≤ len.toNat → len.toNat ≤ 128 → data.length = 2 * len.toNat →
    s.bus = .scripted
      (chunkScript dw dr data (chunkPlan (s.cfg.busCap - s.cfg.busCap % 2) (2 * len.toNat)) ++ rest) →
    inTime tmo s ((chunkPlan (s.cfg.busCap - s.cfg.busCap % 2) (2 * len.toNat)).length * (dw + dr)) →
    ∃ t, exec (.rdwords dev reg len inc tmo) s = .next t ∧
      answeredOk s t [] ((chunkPlan (s.cfg.busCap - s.cfg.busCap % 2) (2 * len.toNat)).length * (dw + dr)) ∧
      usedBus s t tmo (chunkCalls dev reg inc (chunkPlan (s.cfg.busCap - s.cfg.busCap % 2) (2 * len.toNat))) rest
        ((chunkPlan (s.cfg.busCap - s.cfg.busCap % 2) (2 * len.toNat)).length * (dw + dr)) ∧
      (∀ a, Memory.read t.buf a = data[a]?) ∧
      (∀ k, k < len.toNat → wordView t k = some (data.getD (2 * k) 0 ++ data.getD (2 * k + 1) 0)) ∧
      sameSettings s t ∧ sameFilter s t ∧ samePorts s t ∧ t.tmp = s.tmp ∧ t.chunk = 2 * len.toNat

/-- R107, R108: a sequence read of at least one element that does not complete with OK leaves every valid bit 0, bytes of earlier
chunks included. -/
def Obligations.UnfinishedSequenceReadLeavesNoByte : Prop :=
  ∀ (s t : State) (dev reg len : Byte) (inc : Bool) (tmo : Timeout), 1 ≤ len.toNat →
    (exec (.rdbytes dev reg len inc tmo) s = .next t ∨
      (len.toNat ≤ 128 ∧ exec (.rdwords dev reg len inc tmo) s = .next t)) →
    (∀ ms, t.out ≠ { status := .ok, words := [], ms := ms } :: s.out) →
    ∀ a, Memory.read t.buf a = none

/-! ### Bus writes -/

/-- R120, R121: WRBIT and WRBITW read, change exactly bit START, and write back the byte, or the word high byte first. -/
def Obligations.BitWriteChangesOneBit : Prop :=
  ∀ (s : State) (dev reg start : Byte) (bit : Bool) (tmo : Timeout) (d1 d2 d3 : Nat) (x y : List Byte) (b0 b1 : Byte)
    (rest : List CallEvent), inTime tmo s (d1 + d2 + d3) →
    (start.toNat ≤ 7 →
      s.bus = .scripted (.answered d1 (.ack x) :: .answered d2 (.ack [b0]) :: .answered d3 (.ack y) :: rest) →
      ∃ t b, exec (.wrbit dev reg start bit tmo) s = .next t ∧
        (∀ k, k < 8 → BitVec.getLsbD b k = (if k = start.toNat then bit else b0.getLsbD k)) ∧
        answeredOk s t [] (d1 + d2 + d3) ∧
        usedBus s t tmo [.write dev [reg], .read dev 1, .write dev [reg, b]] rest (d1 + d2 + d3) ∧
        t.tmp = BitVec.ofNat 16 b0.toNat ∧ t.chunk = s.chunk ∧
        sameSettings s t ∧ sameBuffer s t ∧ sameFilter s t ∧ samePorts s t) ∧
    (start.toNat ≤ 15 →
      s.bus = .scripted (.answered d1 (.ack x) :: .answered d2 (.ack [b0, b1]) :: .answered d3 (.ack y) :: rest) →
      ∃ t hi lo, exec (.wrbitw dev reg start bit tmo) s = .next t ∧
        (∀ k, k < 16 → BitVec.getLsbD (BitVec.append hi lo) k =
          (if k = start.toNat then bit else (b0 ++ b1).getLsbD k)) ∧
        answeredOk s t [] (d1 + d2 + d3) ∧
        usedBus s t tmo [.write dev [reg], .read dev 2, .write dev [reg, hi, lo]] rest (d1 + d2 + d3) ∧
        t.tmp = b0 ++ b1 ∧ t.chunk = s.chunk ∧
        sameSettings s t ∧ sameBuffer s t ∧ sameFilter s t ∧ samePorts s t)

/-- R122, R123: WRBITS and WRBITSW read, put DATA[LEN−1:0] at bits START down to START − LEN + 1, keep every other bit as read, and write
back. -/
def Obligations.BitRunWriteReplacesTheRun : Prop :=
  ∀ (s : State) (dev reg start len : Byte) (data : HalfWord) (tmo : Timeout) (d1 d2 d3 : Nat) (x y : List Byte)
    (b0 b1 : Byte) (rest : List CallEvent), inTime tmo s (d1 + d2 + d3) →
    1 ≤ len.toNat → len.toNat ≤ start.toNat + 1 →
    (start.toNat ≤ 7 →
      s.bus = .scripted (.answered d1 (.ack x) :: .answered d2 (.ack [b0]) :: .answered d3 (.ack y) :: rest) →
      ∃ t b, exec (.wrbits dev reg start len data tmo) s = .next t ∧
        (∀ k, k < 8 → BitVec.getLsbD b k =
          (if start.toNat + 1 - len.toNat ≤ k ∧ k ≤ start.toNat then
            data.getLsbD (k - (start.toNat + 1 - len.toNat)) else b0.getLsbD k)) ∧
        answeredOk s t [] (d1 + d2 + d3) ∧
        usedBus s t tmo [.write dev [reg], .read dev 1, .write dev [reg, b]] rest (d1 + d2 + d3) ∧
        t.tmp = BitVec.ofNat 16 b0.toNat ∧ t.chunk = s.chunk ∧
        sameSettings s t ∧ sameBuffer s t ∧ sameFilter s t ∧ samePorts s t) ∧
    (start.toNat ≤ 15 →
      s.bus = .scripted (.answered d1 (.ack x) :: .answered d2 (.ack [b0, b1]) :: .answered d3 (.ack y) :: rest) →
      ∃ t hi lo, exec (.wrbitsw dev reg start len data tmo) s = .next t ∧
        (∀ k, k < 16 → BitVec.getLsbD (BitVec.append hi lo) k =
          (if start.toNat + 1 - len.toNat ≤ k ∧ k ≤ start.toNat then
            data.getLsbD (k - (start.toNat + 1 - len.toNat)) else (b0 ++ b1).getLsbD k)) ∧
        answeredOk s t [] (d1 + d2 + d3) ∧
        usedBus s t tmo [.write dev [reg], .read dev 2, .write dev [reg, hi, lo]] rest (d1 + d2 + d3) ∧
        t.tmp = b0 ++ b1 ∧ t.chunk = s.chunk ∧
        sameSettings s t ∧ sameBuffer s t ∧ sameFilter s t ∧ samePorts s t)

/-- R124, R125: WRBYTE and WRWORD issue one write call, the word high byte first, and change nothing else. -/
def Obligations.ByteAndWordWriteOneCall : Prop :=
  ∀ (s : State) (dev reg b : Byte) (data : HalfWord) (tmo : Timeout) (d : Nat) (x : List Byte) (rest : List CallEvent),
    inTime tmo s d → s.bus = .scripted (.answered d (.ack x) :: rest) →
    (∃ t, exec (.wrbyte dev reg b tmo) s = .next t ∧ answeredOk s t [] d ∧
      usedBus s t tmo [.write dev [reg, b]] rest d ∧
      sameSettings s t ∧ sameBuffer s t ∧ sameFilter s t ∧ samePorts s t ∧ sameLatches s t) ∧
    (∃ t, exec (.wrword dev reg data tmo) s = .next t ∧ answeredOk s t [] d ∧
      usedBus s t tmo
        [.write dev [reg, BitVec.ofNat 8 (data.toNat / 256), BitVec.ofNat 8 (data.toNat % 256)]] rest d ∧
      sameSettings s t ∧ sameBuffer s t ∧ sameFilter s t ∧ samePorts s t ∧ sameLatches s t)

/-- R126, R127: WRBYTES and WRWORDS send the register address and the payload DB[0..n−1] in one call; DB keeps every byte. -/
def Obligations.SequenceWriteSendsThePayload : Prop :=
  ∀ (s : State) (dev reg len : Byte) (tmo : Timeout) (d : Nat) (x payload : List Byte) (rest : List CallEvent),
    1 ≤ len.toNat → inTime tmo s d → s.bus = .scripted (.answered d (.ack x) :: rest) →
    (∀ k, k < payload.length → Memory.read s.buf k = payload[k]?) → payload.length + 1 ≤ s.cfg.busCap →
    (payload.length = len.toNat → ∃ t, exec (.wrbytes dev reg len tmo) s = .next t ∧ answeredOk s t [] d ∧
      usedBus s t tmo [.write dev (reg :: payload)] rest d ∧
      sameSettings s t ∧ sameBuffer s t ∧ sameFilter s t ∧ samePorts s t ∧ sameLatches s t) ∧
    (payload.length = 2 * len.toNat → ∃ t, exec (.wrwords dev reg len tmo) s = .next t ∧ answeredOk s t [] d ∧
      usedBus s t tmo [.write dev (reg :: payload)] rest d ∧
      sameSettings s t ∧ sameBuffer s t ∧ sameFilter s t ∧ samePorts s t ∧ sameLatches s t)

/-- R77: the sequence-length table. LEN = 0 is a no-op with OK; RDWORDS of more than 128 words, a write that does not fit one call, and a write
with a payload byte that holds no value are refused before any driver call; every other sequence form issues one. -/
def Obligations.SequenceLengthTable : Prop :=
  ∀ (s : State) (dev reg len : Byte) (inc : Bool) (tmo : Timeout),
    (∀ i, i = Instr.rdbytes dev reg len inc tmo ∨ i = Instr.rdwords dev reg len inc tmo ∨
        i = Instr.wrbytes dev reg len tmo ∨ i = Instr.wrwords dev reg len tmo → len.toNat = 0 →
      ∃ t, exec i s = .next t ∧ answeredOk s t [] 0 ∧ t.calls = s.calls ∧ t.bus = s.bus ∧
        sameSettings s t ∧ sameBuffer s t ∧ sameFilter s t ∧ samePorts s t ∧ sameLatches s t) ∧
    (1 ≤ len.toNat →
      (∃ t, exec (.rdbytes dev reg len inc tmo) s = .next t ∧ s.calls.length < t.calls.length) ∧
      (∃ t, exec (.rdwords dev reg len inc tmo) s = .next t ∧
        (if len.toNat ≤ 128 then s.calls.length < t.calls.length else refusedBeforeCalls s t)) ∧
      (∃ t, exec (.wrbytes dev reg len tmo) s = .next t ∧
        (if len.toNat + 1 ≤ s.cfg.busCap ∧ ∀ k, k < len.toNat → dbv s k = true then
          t.calls.length = s.calls.length + 1 else refusedBeforeCalls s t)) ∧
      (∃ t, exec (.wrwords dev reg len tmo) s = .next t ∧
        (if 2 * len.toNat + 1 ≤ s.cfg.busCap ∧ ∀ k, k < 2 * len.toNat → dbv s k = true then
          t.calls.length = s.calls.length + 1 else refusedBeforeCalls s t)))

/-! ### Bus failures -/

/-- R46, R211, R212, R223: what the first driver call of any of the 16 bus commands makes of the command: a call that never returns is BusTimeout at
exactly TMOeff, or the hang when TMOeff is 0; an answer at or after the deadline is BusTimeout whatever it is; a Nack in time is BusNack. No second
call is issued. -/
def Obligations.FirstCallFailures : Prop :=
  ∀ (i : Instr) (tmo : Timeout) (s t : State) (e : CallEvent) (rest : List CallEvent),
    timeoutOf i = some tmo → s.bus = .scripted (e :: rest) → exec i s = .next t → t.calls ≠ s.calls →
    (e = .never → effectiveTimeout tmo s.tmod ≠ 0 →
      answeredFailure s t .busTimeout (effectiveTimeout tmo s.tmod).toNat ∧ t.calls.length = s.calls.length + 1) ∧
    (e = .never → effectiveTimeout tmo s.tmod = 0 →
      t.busy = true ∧ t.out = s.out ∧ t.estk = s.estk ∧ t.calls.length = s.calls.length + 1) ∧
    (∀ d reply, e = .answered d reply → effectiveTimeout tmo s.tmod ≠ 0 → (effectiveTimeout tmo s.tmod).toNat ≤ d →
      answeredFailure s t .busTimeout (effectiveTimeout tmo s.tmod).toNat ∧ t.calls.length = s.calls.length + 1) ∧
    (∀ d, e = .answered d .nack → inTime tmo s d →
      answeredFailure s t .busNack d ∧ t.calls.length = s.calls.length + 1)

/-- R57 point 3, R212, R213: when the read half of a scalar read or a read-modify-write answers Nack, or another number of bytes than asked, the
command reports BusNack, or MalformedResponse, and issues no further call: no write-back. -/
def Obligations.FailedReadHalfIssuesNoWrite : Prop :=
  ∀ (i : Instr) (tmo : Timeout) (s : State) (dev reg : Byte) (n d1 d2 : Nat) (x : List Byte) (reply : Reply)
    (rest : List CallEvent),
    timeoutOf i = some tmo → i.wellFormed = true → readHalf i = some (dev, reg, n) → inTime tmo s (d1 + d2) →
    s.bus = .scripted (.answered d1 (.ack x) :: .answered d2 reply :: rest) → (∀ bytes, reply = .ack bytes → bytes.length ≠ n) →
    ∃ t, exec i s = .next t ∧
      answeredFailure s t (if reply = .nack then .busNack else .malformedResponse) (d1 + d2) ∧
      usedBus s t tmo [.write dev [reg], .read dev n] rest (d1 + d2) ∧
      sameSettings s t ∧ sameBuffer s t ∧ sameFilter s t ∧ samePorts s t ∧ sameLatches s t

/-! ### Decode -/

/-- R143, R144: DQ16 returns the four 16-bit views sign-extended, DQ32 the four 32-bit views as they stand in the frame, W, X, Y, Z. -/
def Obligations.IntegerQuaternion : Prop :=
  ∀ (s : State) (bs : Nat → Byte), s.chen.getLsbD 0 = true → frameHolds s bs →
    (∃ t, exec .dq16 s = .next t ∧
      answeredOk s t [field16 bs 0, field16 bs 4, field16 bs 8, field16 bs 12] s.elapsed ∧
      quietDecode s t ∧ sameFilter s t) ∧
    (∃ t, exec .dq32 s = .next t ∧
      answeredOk s t [field32 bs 0, field32 bs 4, field32 bs 8, field32 bs 12] s.elapsed ∧
      quietDecode s t ∧ sameFilter s t)

/-- R145, R146, R147: DGYRO and DMAG read three fields two bytes apart, DACC three fields four bytes apart, at the group base that follows from
CHEN. -/
def Obligations.IntegerVectors : Prop :=
  ∀ (s : State) (bs : Nat → Byte), frameHolds s bs →
    (s.chen.getLsbD 1 = true → ∃ t, exec .dgyro s = .next t ∧
      answeredOk s t [field16 bs (gyroBase s.chen), field16 bs (gyroBase s.chen + 2), field16 bs (gyroBase s.chen + 4)]
        s.elapsed ∧ quietDecode s t ∧ sameFilter s t) ∧
    (s.chen.getLsbD 2 = true → ∃ t, exec .dmag s = .next t ∧
      answeredOk s t [field16 bs (magBase s.chen), field16 bs (magBase s.chen + 2), field16 bs (magBase s.chen + 4)]
        s.elapsed ∧ quietDecode s t ∧ sameFilter s t) ∧
    (s.chen.getLsbD 3 = true → ∃ t, exec .dacc s = .next t ∧
      answeredOk s t
        [field16 bs (accelBase s.chen), field16 bs (accelBase s.chen + 4), field16 bs (accelBase s.chen + 8)]
        s.elapsed ∧ quietDecode s t ∧ sameFilter s t)

/-- R140, R214, R216: a decode command of a channel that is not enabled answers ChannelNotPresent whatever DB holds; with its channels enabled it
answers CallerContractViolation when any byte of the frame is missing. Nothing else changes. -/
def Obligations.DecodePrologueFailures : Prop :=
  ∀ (i : Instr) (need : List Nat) (s : State), channelsOf i = some need →
    ((∃ c ∈ need, s.chen.getLsbD c = false) →
      ∃ t, exec i s = .next t ∧ refusedWithoutEffect s t .channelNotPresent) ∧
    ((∀ c ∈ need, s.chen.getLsbD c = true) → (∃ a, a < frameLength s.chen ∧ Memory.read s.buf a = none) →
      ∃ t, exec i s = .next t ∧ refusedWithoutEffect s t .callerContractViolation)

/-- R163, R215: DQF, DGRAV, DEULER, DYPR and DLINACC answer DecodeDegenerate when S < QEPS_SQ_RAW, so for the all-zero quaternion whatever the
parameter; and no other command, and no other frame, answers it. -/
def Obligations.ShortQuaternionIsDegenerate : Prop :=
  (∀ (s : State) (bs : Nat → Byte) (lp : Bool) (i : Instr),
    i = .dqf ∨ i = .dgrav ∨ i = .deuler ∨ i = .dypr ∨ (i = .dlinacc lp ∧ s.chen.getLsbD 3 = true) →
    s.chen.getLsbD 0 = true → frameHolds s bs →
    (sumSquares (quatAt bs) < s.cfg.qepsSqRaw ∨ ∀ a, a < 16 → bs a = 0) →
    ∃ t, exec i s = .next t ∧ refusedWithoutEffect s t .decodeDegenerate) ∧
  (∀ (i : Instr) (s t : State) (r : Response), exec i s = .next t → t.out = r :: s.out →
    r.status = .failed .decodeDegenerate →
    (i = .dqf ∨ i = .dgrav ∨ i = .deuler ∨ i = .dypr ∨ ∃ lp, i = .dlinacc lp) ∧
    ∃ bs, frameHolds s bs ∧ sumSquares (quatAt bs) < s.cfg.qepsSqRaw)

/-- R164: DQF returns Wr/√S, Xr/√S, Yr/√S and Zr/√S, each rounded once. -/
def Obligations.UnitQuaternionFloating : Prop :=
  ∀ (s : State) (bs : Nat → Byte), s.chen.getLsbD 0 = true → frameHolds s bs →
    (s.cfg.qepsSqRaw : Int) ≤ sumSquares (quatAt bs) →
    ∃ t, exec .dqf s = .next t ∧
      answeredOk s t
        [rndComponent s (quatAt bs).w (sumSquares (quatAt bs)), rndComponent s (quatAt bs).x (sumSquares (quatAt bs)),
         rndComponent s (quatAt bs).y (sumSquares (quatAt bs)), rndComponent s (quatAt bs).z (sumSquares (quatAt bs))]
        s.elapsed ∧ quietDecode s t ∧ sameFilter s t

/-- R169, R168: DGRAV returns gx, gy, gz of the exact rationals, each rounded once. -/
def Obligations.GravityFloating : Prop :=
  ∀ (s : State) (bs : Nat → Byte), s.chen.getLsbD 0 = true → frameHolds s bs →
    (s.cfg.qepsSqRaw : Int) ≤ sumSquares (quatAt bs) →
    ∃ t, exec .dgrav s = .next t ∧
      answeredOk s t
        [rndValue s (gravityX (quatAt bs)), rndValue s (gravityY (quatAt bs)), rndValue s (gravityZ (quatAt bs))]
        s.elapsed ∧ quietDecode s t ∧ sameFilter s t

/-- R168: the gravity vector the block computes is the one of the formulas; for every quaternion that is not zero it has length exactly 1 and each
component lies in −1..1 (an inference the spec marks as its own: "[derived: algebraic identity"). -/
def Obligations.GravityHasUnitLength : Prop :=
  ∀ q : RawQuat, normSq q ≠ 0 →
    gravity q = ⟨gravityX q, gravityY q, gravityZ q⟩ ∧
    (gravity q).x ^ 2 + (gravity q).y ^ 2 + (gravity q).z ^ 2 = 1 ∧
    -1 ≤ (gravity q).x ∧ (gravity q).x ≤ 1 ∧ -1 ≤ (gravity q).y ∧ (gravity q).y ≤ 1 ∧
    -1 ≤ (gravity q).z ∧ (gravity q).z ≤ 1

/-- R170, R171, R176 P2 and P4: DEULER and DYPR complete for every quaternion that is not degenerate, gimbal lock included, with the three
angles of the open functions EULER_FN and YPR_FN, each rounded (log 13: what those angles are is left open), and no word is a NaN or an
infinity. -/
def Obligations.AnglesComplete : Prop :=
  ∀ (s : State) (bs : Nat → Byte), s.chen.getLsbD 0 = true → frameHolds s bs →
    (s.cfg.qepsSqRaw : Int) ≤ sumSquares (quatAt bs) →
    (∃ t, exec .deuler s = .next t ∧
      answeredOk s t ((Config.eulerFn (unitQuat (quatAt bs))).map (rndAngle s.cfg.numerics)).toList s.elapsed ∧
      (∀ w ∈ ((Config.eulerFn (unitQuat (quatAt bs))).map (rndAngle s.cfg.numerics)).toList,
        (numericsOf s.cfg.numerics).isNumber w = true) ∧
      quietDecode s t ∧ sameFilter s t) ∧
    (∃ t, exec .dypr s = .next t ∧
      answeredOk s t
        ((Config.yprFn (unitQuat (quatAt bs))
          ⟨gravityX (quatAt bs), gravityY (quatAt bs), gravityZ (quatAt bs)⟩).map (rndAngle s.cfg.numerics)).toList s.elapsed ∧
      (∀ w ∈ ((Config.yprFn (unitQuat (quatAt bs))
          ⟨gravityX (quatAt bs), gravityY (quatAt bs), gravityZ (quatAt bs)⟩).map (rndAngle s.cfg.numerics)).toList,
        (numericsOf s.cfg.numerics).isNumber w = true) ∧
      quietDecode s t ∧ sameFilter s t)

/-- R162: the unit quaternion the angle functions get is the same for a raw quaternion and any positive multiple of it. -/
def Obligations.UnitQuaternionIgnoresLength : Prop :=
  ∀ (q : RawQuat) (k : Int), 0 < k → normSq q ≠ 0 →
    unitQuat ⟨k * q.w, k * q.x, k * q.y, k * q.z⟩ = unitQuat q

/-- R165, R166, R167: DGYROF, DMAGF and DACCF return the integers of their vector with scale 1, each rounded once. -/
def Obligations.FloatingVectors : Prop :=
  ∀ (s : State) (bs : Nat → Byte), frameHolds s bs →
    (s.chen.getLsbD 1 = true → ∃ t, exec .dgyrof s = .next t ∧
      answeredOk s t
        [rndValue s (int16 bs (gyroBase s.chen)), rndValue s (int16 bs (gyroBase s.chen + 2)),
         rndValue s (int16 bs (gyroBase s.chen + 4))] s.elapsed ∧ quietDecode s t ∧ sameFilter s t) ∧
    (s.chen.getLsbD 2 = true → ∃ t, exec .dmagf s = .next t ∧
      answeredOk s t
        [rndValue s (int16 bs (magBase s.chen)), rndValue s (int16 bs (magBase s.chen + 2)),
         rndValue s (int16 bs (magBase s.chen + 4))] s.elapsed ∧ quietDecode s t ∧ sameFilter s t) ∧
    (s.chen.getLsbD 3 = true → ∃ t, exec .daccf s = .next t ∧
      answeredOk s t
        [rndValue s (int16 bs (accelBase s.chen)), rndValue s (int16 bs (accelBase s.chen + 4)),
         rndValue s (int16 bs (accelBase s.chen + 8))] s.elapsed ∧ quietDecode s t ∧ sameFilter s t)

/-- R161, R165, in the suggested binary32, which the spec takes from general knowledge (log 12): every 16-bit integer is represented exactly. -/
def Obligations.Binary32HoldsSixteenBitIntegers : Prop :=
  ∀ n : Int, -32768 ≤ n → n ≤ 32767 → binary32Val (binary32Rnd (ExactReal.ofRat n)) = n

/-- R174, R175: DLINACC returns a − g·A1G per axis, each rounded once, and leaves PV and P alone; with LP = 1 it returns the filtered output
P + alpha·(xl − P), or xl when PV = 0, and that output becomes P with PV = 1. -/
def Obligations.LinearAcceleration : Prop :=
  ∀ (s : State) (bs : Nat → Byte) (q : RawQuat) (ab : Nat) (x y z : Rat),
    s.chen.getLsbD 0 = true → s.chen.getLsbD 3 = true → frameHolds s bs → q = quatAt bs →
    (s.cfg.qepsSqRaw : Int) ≤ sumSquares q → ab = accelBase s.chen →
    x = linearAt s (int16 bs ab) (gravityX q) → y = linearAt s (int16 bs (ab + 4)) (gravityY q) →
    z = linearAt s (int16 bs (ab + 8)) (gravityZ q) →
    (∃ t, exec (.dlinacc false) s = .next t ∧
      answeredOk s t [rndValue s x, rndValue s y, rndValue s z] s.elapsed ∧ quietDecode s t ∧ sameFilter s t) ∧
    (s.pv = false → ∃ t, exec (.dlinacc true) s = .next t ∧
      answeredOk s t [rndValue s x, rndValue s y, rndValue s z] s.elapsed ∧ quietDecode s t ∧
      t.pv = true ∧ t.prev = ⟨rndValue s x, rndValue s y, rndValue s z⟩) ∧
    (s.pv = true → ∀ (smooth : Word → Rat → Word),
      (∀ p v, smooth p v = rndValue s ((numericsOf s.cfg.numerics).val p +
        (s.lpfa.toNat : Rat) / 65536 * (v - (numericsOf s.cfg.numerics).val p))) →
      ∃ t, exec (.dlinacc true) s = .next t ∧
        answeredOk s t [smooth s.prev.x x, smooth s.prev.y y, smooth s.prev.z z] s.elapsed ∧ quietDecode s t ∧
        t.pv = true ∧ t.prev = ⟨smooth s.prev.x x, smooth s.prev.y y, smooth s.prev.z z⟩)

/-- R176 P1: a decode command issued twice answers the same, but for `DLINACC lp`. -/
def Obligations.DecodingTwiceAnswersTheSame : Prop :=
  ∀ (i : Instr) (need : List Nat) (s t u : State), channelsOf i = some need → i ≠ .dlinacc true →
    exec i s = .next t → exec i t = .next u →
    ∃ r, t.out = r :: s.out ∧ u.out = r :: t.out

/-- R148: two buffers that agree but for pad bytes give every decode command the same response; the quaternion pads are pads only to the commands
without a 32-bit view. Pad bytes must be valid like any other byte of the frame. -/
def Obligations.PadBytesDoNotMatter : Prop :=
  ∀ (i : Instr) (need : List Nat) (s : State), channelsOf i = some need →
    (∀ (t t' : State) (m : Memory),
      (∀ a, (Memory.read m a).isSome = (Memory.read s.buf a).isSome) →
      (∀ a, padOffset (s.chen.getLsbD 0) (s.chen.getLsbD 1) (s.chen.getLsbD 2) (s.chen.getLsbD 3) a = false →
        ¬ (s.chen.getLsbD 0 = true ∧ a < 16 ∧ 2 ≤ a % 4 ∧ i ∈ shortViews) → Memory.read m a = Memory.read s.buf a) →
      exec i s = .next t → exec i { s with buf := m } = .next t' → t'.out = t.out ∧ t'.prev = t.prev ∧ t'.pv = t.pv) ∧
    (∀ a, (∀ c ∈ need, s.chen.getLsbD c = true) → a < frameLength s.chen → Memory.read s.buf a = none →
      (padOffset (s.chen.getLsbD 0) (s.chen.getLsbD 1) (s.chen.getLsbD 2) (s.chen.getLsbD 3) a = true ∨
        (s.chen.getLsbD 0 = true ∧ a < 16 ∧ 2 ≤ a % 4)) →
      ∃ t, exec i s = .next t ∧ refusedWithoutEffect s t .callerContractViolation)

/-! ### System commands -/

/-- R192, R16 to R23: opcode 0x80 is CFGRD of REG; it returns the seven control registers zero-extended, FLEN from CHEN and BCAP from BUS_CAP, and refuses every other
number. -/
def Obligations.ControlRegisterRead : Prop :=
  (∀ w : CommandWord, opcodeIs w 0x80 → decodeWord w = .ok (.cfgrd (w.extractLsb' 56 8))) ∧
  ∀ (s : State) (num : Byte),
    (∀ v : Nat,
      (num = 0 ∧ v = s.estk.toNat) ∨ (num = 1 ∧ v = s.tmod.toNat) ∨ (num = 2 ∧ v = s.chen.toNat) ∨
      (num = 3 ∧ v = s.lpfa.toNat) ∨ (num = 4 ∧ v = s.a1g.toNat) ∨ (num = 5 ∧ v = frameLength s.chen) ∨
      (num = 6 ∧ v = s.cfg.busCap) →
      ∃ t, exec (.cfgrd num) s = .next t ∧ answeredOk s t [BitVec.ofNat 32 v] s.elapsed ∧
        quietDecode s t ∧ sameFilter s t) ∧
    (7 ≤ num.toNat → ∃ t, exec (.cfgrd num) s = .next t ∧ refusedWithoutEffect s t .callerContractViolation)

/-- R193: opcode 0x81 is CFGWR of REG and DATA; it writes the named register and nothing else; ESTK is write-1-to-clear; a read-only or undefined register, a value for CHEN beyond 4
bits and a value for ESTK with bit 0 or bits 15:7 set are refused. -/
def Obligations.ControlRegisterWrite : Prop :=
  (∀ w : CommandWord, opcodeIs w 0x81 → decodeWord w = .ok (.cfgwr (w.extractLsb' 56 8) (w.extractLsb' 0 16))) ∧
  ∀ (s : State) (num : Byte) (data : HalfWord),
    (num = 0 → data.getLsbD 0 = false → data.toNat < 128 → ∃ t, exec (.cfgwr num data) s = .next t ∧
      t.busy = false ∧ t.rn = 0 ∧ t.out = { status := .ok, words := [], ms := s.elapsed } :: s.out ∧
      (∀ k, k < 7 → t.estk.getLsbD k = (s.estk.getLsbD k && !data.getLsbD k)) ∧
      quietDecode s t ∧ sameFilter s t) ∧
    (num = 1 → ∃ t, exec (.cfgwr num data) s = .next t ∧ answeredOk s t [] s.elapsed ∧ noBusUse s t ∧
      sameBuffer s t ∧ sameFilter s t ∧ samePorts s t ∧ sameLatches s t ∧
      t.tmod = data ∧ effectiveTimeout .default t.tmod = data ∧ t.chen = s.chen ∧ t.lpfa = s.lpfa ∧ t.a1g = s.a1g ∧
      t.cfg = s.cfg) ∧
    (num = 2 → data.toNat < 16 → ∃ t, exec (.cfgwr num data) s = .next t ∧ answeredOk s t [] s.elapsed ∧ noBusUse s t ∧
      sameBuffer s t ∧ sameFilter s t ∧ samePorts s t ∧ sameLatches s t ∧
      t.tmod = s.tmod ∧ t.chen = BitVec.ofNat 4 data.toNat ∧ t.lpfa = s.lpfa ∧ t.a1g = s.a1g ∧ t.cfg = s.cfg) ∧
    (num = 3 → ∃ t, exec (.cfgwr num data) s = .next t ∧ answeredOk s t [] s.elapsed ∧ noBusUse s t ∧
      sameBuffer s t ∧ sameFilter s t ∧ samePorts s t ∧ sameLatches s t ∧
      t.tmod = s.tmod ∧ t.chen = s.chen ∧ t.lpfa = data ∧ t.a1g = s.a1g ∧ t.cfg = s.cfg) ∧
    (num = 4 → ∃ t, exec (.cfgwr num data) s = .next t ∧ answeredOk s t [] s.elapsed ∧ noBusUse s t ∧
      sameBuffer s t ∧ sameFilter s t ∧ samePorts s t ∧ sameLatches s t ∧
      t.tmod = s.tmod ∧ t.chen = s.chen ∧ t.lpfa = s.lpfa ∧ t.a1g = data ∧ t.cfg = s.cfg) ∧
    ((num = 0 ∧ (data.getLsbD 0 = true ∨ 128 ≤ data.toNat)) ∨ (num = 2 ∧ 16 ≤ data.toNat) ∨ 5 ≤ num.toNat →
      ∃ t, exec (.cfgwr num data) s = .next t ∧ refusedWithoutEffect s t .callerContractViolation)

/-- R194, R195: opcodes 0x82 and 0x83 are BUFRD of REG and BUFWR of REG and DATA[7:0]; BUFRD returns a valid byte zero-extended and refuses one that holds no value; BUFWR stores one byte, makes it valid and leaves
every other byte of DB as it was. -/
def Obligations.BufferByteAccess : Prop :=
  (∀ w : CommandWord,
    (opcodeIs w 0x82 → decodeWord w = .ok (.bufrd (w.extractLsb' 56 8))) ∧
    (opcodeIs w 0x83 → decodeWord w = .ok (.bufwr (w.extractLsb' 56 8) (w.extractLsb' 0 8)))) ∧
  ∀ (s : State) (idx data : Byte),
    (∀ b, Memory.read s.buf idx.toNat = some b → ∃ t, exec (.bufrd idx) s = .next t ∧
      answeredOk s t [BitVec.ofNat 32 b.toNat] s.elapsed ∧ quietDecode s t ∧ sameFilter s t) ∧
    (Memory.read s.buf idx.toNat = none →
      ∃ t, exec (.bufrd idx) s = .next t ∧ refusedWithoutEffect s t .callerContractViolation) ∧
    (∃ t, exec (.bufwr idx data) s = .next t ∧ answeredOk s t [] s.elapsed ∧ noBusUse s t ∧ sameSettings s t ∧
      sameFilter s t ∧ samePorts s t ∧ sameLatches s t ∧ Memory.read t.buf idx.toNat = some data ∧
      ∀ a, a ≠ idx.toNat → Memory.read t.buf a = Memory.read s.buf a)

/-- R196: opcode 0x84 is LARST; it always completes, clears PV and leaves DB, the settings and the bus alone (P becomes unspecified: nothing is
claimed of it); after it `DLINACC lp` gives the response `DLINACC` gives on the same frame and, when that is OK, starts a new history from its
words. -/
def Obligations.FilterReset : Prop :=
  (∀ w : CommandWord, opcodeIs w 0x84 → decodeWord w = .ok .larst) ∧
  ∀ s : State, ∃ t, exec .larst s = .next t ∧ answeredOk s t [] s.elapsed ∧ t.pv = false ∧ quietDecode s t ∧
    ∃ u v r, exec (.dlinacc true) t = .next u ∧ exec (.dlinacc false) s = .next v ∧ u.out = r :: t.out ∧ v.out = r :: s.out ∧
      (r.status = .ok → u.pv = true ∧ r.words = u.prev.toList)

/-! ### The block with the ideal device -/

/-- The source's round-trip property (S1) on the ideal device of R60, a test fixture whose address pointer is from general knowledge (log 5), for the bit-run of a byte, with every call passing in 0 ms: WRBITS completes OK and changes exactly the field of that register, to
DATA[LEN−1:0]; RDBITS of the field then returns it. The single-bit
forms are these by `SingleBitFormsAreRunsOfLengthOne`; the word forms are not stated. -/
def Obligations.BitRunRoundTripOnTheIdealDevice : Prop :=
  ∀ (s : State) (d : IdealDevice) (dev reg start len : Byte) (data : HalfWord) (tmo tmo2 : Timeout),
    s.bus = .ideal d → d.plan = [] → deviceWf d = true → queueAt d.queues (deviceKey dev reg) = none →
    start.toNat ≤ 7 → 1 ≤ len.toNat → len.toNat ≤ start.toNat + 1 →
    ∃ t u d', exec (.wrbits dev reg start len data tmo) s = .next t ∧ t.bus = .ideal d' ∧ answeredOk s t [] 0 ∧
      (∀ k, k < 8 → (readOrZero d'.mem (deviceKey dev reg)).getLsbD k =
        (if start.toNat + 1 - len.toNat ≤ k ∧ k ≤ start.toNat then
          data.getLsbD (k - (start.toNat + 1 - len.toNat)) else (readOrZero d.mem (deviceKey dev reg)).getLsbD k)) ∧
      (∀ a, a ≠ deviceKey dev reg → readOrZero d'.mem a = readOrZero d.mem a) ∧
      exec (.rdbits dev reg start len tmo2) t = .next u ∧
      answeredOk t u [BitVec.ofNat 32 (data.toNat % 2 ^ len.toNat)] 0

/-- The source's endianness round trip (S2) on the ideal device, a test fixture whose address pointer is from general knowledge (log 5), with every call passing in 0 ms: WRWORD then RDWORD of the same register returns the word. -/
def Obligations.WordRoundTripOnTheIdealDevice : Prop :=
  ∀ (s : State) (d : IdealDevice) (dev reg : Byte) (data : HalfWord) (tmo tmo2 : Timeout),
    s.bus = .ideal d → d.plan = [] → deviceWf d = true → queueAt d.queues (deviceKey dev reg) = none →
    queueAt d.queues (deviceKey dev (reg + 1)) = none →
    ∃ t u, exec (.wrword dev reg data tmo) s = .next t ∧ answeredOk s t [] 0 ∧
      exec (.rdword dev reg tmo2) t = .next u ∧ answeredOk t u [BitVec.ofNat 32 data.toNat] 0
end

