-- ==== Sys2Proof/Laws/Encoding.lean ====
section
/-! SUPPORT. The fields of an assembled command word are the fields it was assembled from (R70), and a word is
assembled from its fields. -/

namespace Sys2Proof

theorem fieldsOf_wordOf (f : Fields) : fieldsOf (wordOf f) = f := by
  obtain ⟨op, dev, reg, start, len, flags, tmo, data⟩ := f
  simp only [fieldsOf, wordOf, Fields.mk.injEq]
  refine ⟨?_, ?_, ?_, ?_, ?_, ?_, ?_, ?_⟩ <;>
    (apply BitVec.eq_of_getLsbD_eq
     intro i hi
     simp only [BitVec.getLsbD_extractLsb', BitVec.getLsbD_append, hi, decide_true, Bool.true_and]
     repeat' split
     all_goals first
       | omega
       | (congr 1; omega))

theorem wordOf_fieldsOf (w : CommandWord) : wordOf (fieldsOf w) = w := by
  apply BitVec.eq_of_getLsbD_eq
  intro i hi
  simp only [fieldsOf, wordOf, BitVec.getLsbD_extractLsb', BitVec.getLsbD_append]
  repeat' split
  all_goals
    (rw [decide_eq_true (by omega)]
     simp only [Bool.true_and]
     congr 1
     omega)

/-- The bytes of a byte-serial port carry the word unchanged. -/
theorem wordOfBytes_bytesOfWord (w : CommandWord) : wordOfBytes (bytesOfWord w) = some w := by
  simp only [wordOfBytes, bytesOfWord, Option.some.injEq]
  apply BitVec.eq_of_getLsbD_eq
  intro i hi
  simp only [BitVec.getLsbD_extractLsb', BitVec.getLsbD_append]
  repeat' split
  all_goals
    (rw [decide_eq_true (by omega)]
     simp only [Bool.true_and]
     congr 1
     omega)

/-- Decoding the bytes of a word is decoding the word. -/
theorem decode_bytesOfWord (w : CommandWord) : decode (bytesOfWord w) = decodeWord w := by
  simp [decode, wordOfBytes_bytesOfWord]

/-- The decoder on an assembled word, in terms of the fields. -/
theorem decodeWord_wordOf (f : Fields) :
    decodeWord (wordOf f) = if f.flags >>> 3 ≠ 0 then .error (.reservedFlags f.flags) else decodeOpcode f := by
  simp only [decodeWord, fieldsOf_wordOf]

end Sys2Proof
end

