-- ==== Sys2Proof/Laws/Memory.lean ====
section
/-! SUPPORT. The laws of the byte store: reading after a write or an erase, and the canonical form every operation keeps. -/

namespace Sys2Proof.Machine

@[simp] theorem Memory.read_nil (a : Nat) : Memory.read [] a = none := rfl

theorem Memory.read_write_same (m : Memory) (a : Nat) (b : Byte) : Memory.read (Memory.write m a b) a = some b := by
  induction m with
  | nil => simp [Memory.write, Memory.read]
  | cons c rest ih =>
    obtain ⟨k, x⟩ := c
    simp only [Memory.write]
    split
    · simp [Memory.read]
    · split
      · simp [Memory.read]
      · rename_i h1 h2
        have hk : k ≠ a := fun h => h2 h.symm
        simp [Memory.read, hk, ih]

theorem Memory.read_write_other (m : Memory) (a : Nat) (b : Byte) (c : Nat) (h : c ≠ a) :
    Memory.read (Memory.write m a b) c = Memory.read m c := by
  induction m with
  | nil => simp [Memory.write, Memory.read, Ne.symm h]
  | cons d rest ih =>
    obtain ⟨k, x⟩ := d
    simp only [Memory.write]
    split
    · simp [Memory.read, Ne.symm h]
    · split
      · rename_i h1 h2
        subst h2
        simp [Memory.read, Ne.symm h]
      · simp [Memory.read, ih]

/-- What a write does to every read. -/
theorem Memory.read_write (m : Memory) (a : Nat) (b : Byte) (c : Nat) :
    Memory.read (Memory.write m a b) c = if c = a then some b else Memory.read m c := by
  by_cases h : c = a
  · subst h; simp [Memory.read_write_same]
  · simp [h, Memory.read_write_other m a b c h]

/-- What a run of writes does to every read. -/
theorem Memory.read_writeRun (bytes : List Byte) (m : Memory) (a c : Nat) :
    Memory.read (Memory.writeRun m a bytes) c =
      if a ≤ c ∧ c < a + bytes.length then bytes[c - a]? else Memory.read m c := by
  induction bytes generalizing m a with
  | nil => simp [Memory.writeRun]
  | cons b rest ih =>
    rw [Memory.writeRun, ih, Memory.read_write]
    by_cases h1 : c = a
    · subst h1
      simp
    · by_cases h2 : a + 1 ≤ c ∧ c < a + 1 + rest.length
      · have h3 : a ≤ c ∧ c < a + (rest.length + 1) := by omega
        obtain ⟨k, rfl⟩ : ∃ k, c = a + 1 + k := ⟨c - (a + 1), by omega⟩
        have e1 : a + 1 + k - (a + 1) = k := by omega
        have e2 : a + 1 + k - a = k + 1 := by omega
        simp only [List.length_cons, h2, h3, if_true, e1, e2, and_self, List.getElem?_cons_succ]
      · have h3 : ¬ (a ≤ c ∧ c < a + (rest.length + 1)) := by omega
        simp only [List.length_cons, h2, h3, if_false, h1]

/-- Reading a run succeeds exactly when every byte of it holds a value, and gives those values. -/
theorem Memory.readRun_eq_some (m : Memory) (n a : Nat) (bytes : List Byte) :
    Memory.readRun m a n = some bytes ↔
      bytes.length = n ∧ ∀ i, i < n → Memory.read m (a + i) = bytes[i]? := by
  induction n generalizing a bytes with
  | zero =>
    simp only [Memory.readRun, Option.some.injEq, Nat.not_lt_zero, false_imp_iff, implies_true, and_true]
    constructor
    · rintro rfl; rfl
    · intro h; exact (List.length_eq_zero_iff.mp h).symm
  | succ n ih =>
    simp only [Memory.readRun]
    constructor
    · intro h
      split at h
      · rename_i b rest hb hr
        obtain ⟨hl, hi⟩ := (ih (a + 1) rest).mp hr
        cases h
        refine ⟨by simp [hl], fun i hi' => ?_⟩
        cases i with
        | zero => simpa using hb
        | succ i =>
          have := hi i (by omega)
          rw [show a + (i + 1) = a + 1 + i by omega]
          simpa using this
      · cases h
    · rintro ⟨hl, hi⟩
      cases bytes with
      | nil => simp at hl
      | cons b rest =>
        have hb : Memory.read m a = some b := by simpa using hi 0 (by omega)
        have hr : Memory.readRun m (a + 1) n = some rest := by
          refine (ih (a + 1) rest).mpr ⟨by simpa using hl, fun i h => ?_⟩
          have := hi (i + 1) (by omega)
          rw [show a + (i + 1) = a + 1 + i by omega] at this
          simpa using this
        simp [hb, hr]

/-- Reading a run fails exactly when a byte of it holds no value. -/
theorem Memory.readRun_eq_none (m : Memory) (n a : Nat) :
    Memory.readRun m a n = none ↔ ∃ i, i < n ∧ Memory.read m (a + i) = none := by
  induction n generalizing a with
  | zero => simp [Memory.readRun]
  | succ n ih =>
    simp only [Memory.readRun]
    constructor
    · intro h
      split at h
      · cases h
      · rename_i hno
        cases hb : Memory.read m a with
        | none => exact ⟨0, by omega, by simpa using hb⟩
        | some b =>
          cases hr : Memory.readRun m (a + 1) n with
          | some rest => exact absurd hr (hno b rest hb)
          | none =>
            obtain ⟨i, hi, h⟩ := (ih (a + 1)).mp hr
            exact ⟨i + 1, by omega, by rw [show a + (i + 1) = a + 1 + i by omega]; exact h⟩
    · rintro ⟨i, hi, h⟩
      cases i with
      | zero =>
        simp only [Nat.add_zero] at h
        simp [h]
      | succ i =>
        have hr : Memory.readRun m (a + 1) n = none :=
          (ih (a + 1)).mpr ⟨i, by omega, by rw [show a + 1 + i = a + (i + 1) by omega]; exact h⟩
        simp [hr]

theorem Memory.above_write {k : Nat} {m : Memory} {a : Nat} {b : Byte} (hk : k < a)
    (h : Memory.above k m = true) : Memory.above k (Memory.write m a b) = true := by
  induction m with
  | nil => simpa [Memory.write, Memory.above] using hk
  | cons c rest ih =>
    obtain ⟨j, x⟩ := c
    simp only [Memory.above, Bool.and_eq_true, decide_eq_true_eq] at h
    simp only [Memory.write]
    split
    · simp [Memory.above, hk, h.1, h.2]
    · split
      · simp [Memory.above, hk, h.2]
      · simp [Memory.above, h.1, ih h.2]

theorem Memory.above_mono {j k : Nat} {m : Memory} (hjk : j ≤ k) (h : Memory.above k m = true) :
    Memory.above j m = true := by
  induction m with
  | nil => rfl
  | cons c rest ih =>
    obtain ⟨i, x⟩ := c
    simp only [Memory.above, Bool.and_eq_true, decide_eq_true_eq] at h ⊢
    exact ⟨by omega, ih h.2⟩

/-- A write keeps the canonical form. -/
theorem Memory.wf_write {m : Memory} {a : Nat} {b : Byte} (h : Memory.wf m = true) :
    Memory.wf (Memory.write m a b) = true := by
  induction m with
  | nil => simp [Memory.write, Memory.wf, Memory.above]
  | cons c rest ih =>
    obtain ⟨k, x⟩ := c
    simp only [Memory.wf, Bool.and_eq_true] at h
    simp only [Memory.write]
    split
    · rename_i hlt
      simp [Memory.wf, Memory.above, hlt, h.1, h.2, Memory.above_mono (Nat.le_of_lt hlt) h.1]
    · split
      · rename_i heq; subst heq
        simp [Memory.wf, h.1, h.2]
      · have hk : k < a := by omega
        simp [Memory.wf, Memory.above_write hk h.1, ih h.2]

theorem Memory.above_erase {k : Nat} {m : Memory} (a : Nat) (h : Memory.above k m = true) :
    Memory.above k (Memory.erase m a) = true := by
  induction m with
  | nil => rfl
  | cons c rest ih =>
    obtain ⟨j, x⟩ := c
    simp only [Memory.above, Bool.and_eq_true, decide_eq_true_eq] at h
    simp only [Memory.erase]
    split
    · exact h.2
    · simp [Memory.above, h.1, ih h.2]

/-- An erase keeps the canonical form. -/
theorem Memory.wf_erase {m : Memory} (a : Nat) (h : Memory.wf m = true) : Memory.wf (Memory.erase m a) = true := by
  induction m with
  | nil => rfl
  | cons c rest ih =>
    obtain ⟨k, x⟩ := c
    simp only [Memory.wf, Bool.and_eq_true] at h
    simp only [Memory.erase]
    split
    · exact h.2
    · simp [Memory.wf, Memory.above_erase a h.1, ih h.2]

theorem Memory.read_of_above {k : Nat} {m : Memory} (h : Memory.above k m = true) {a : Nat} (ha : a ≤ k) :
    Memory.read m a = none := by
  induction m with
  | nil => rfl
  | cons c rest ih =>
    obtain ⟨j, x⟩ := c
    simp only [Memory.above, Bool.and_eq_true, decide_eq_true_eq] at h
    simp [Memory.read, show j ≠ a by omega, ih h.2]

/-- What an erase does to every read of a canonical store. -/
theorem Memory.read_erase {m : Memory} (a c : Nat) (h : Memory.wf m = true) :
    Memory.read (Memory.erase m a) c = if c = a then none else Memory.read m c := by
  induction m with
  | nil => simp [Memory.erase]
  | cons d rest ih =>
    obtain ⟨k, x⟩ := d
    simp only [Memory.wf, Bool.and_eq_true] at h
    simp only [Memory.erase]
    split
    · rename_i hk; subst hk
      by_cases hc : c = k
      · subst hc; simp [Memory.read_of_above h.1 (Nat.le_refl _)]
      · simp [Memory.read, Ne.symm hc, hc]
    · rename_i hk
      by_cases hc : k = c
      · subst hc; simp [Memory.read, hk]
      · simp only [Memory.read, if_neg hc]
        exact ih h.2

theorem Memory.below_write {limit : Nat} {m : Memory} {a : Nat} {b : Byte} (ha : a < limit)
    (h : Memory.below limit m = true) : Memory.below limit (Memory.write m a b) = true := by
  induction m with
  | nil => simpa [Memory.write, Memory.below] using ha
  | cons c rest ih =>
    obtain ⟨j, x⟩ := c
    simp only [Memory.below, Bool.and_eq_true, decide_eq_true_eq] at h
    simp only [Memory.write]
    split
    · simp [Memory.below, ha, h.1, h.2]
    · split
      · simp [Memory.below, ha, h.2]
      · simp [Memory.below, h.1, ih h.2]

/-- A run of writes keeps the canonical form. -/
theorem Memory.wf_writeRun (bytes : List Byte) {m : Memory} (a : Nat) (h : Memory.wf m = true) :
    Memory.wf (Memory.writeRun m a bytes) = true := by
  induction bytes generalizing m a with
  | nil => exact h
  | cons b rest ih => exact ih (a + 1) (Memory.wf_write h)

theorem Memory.below_writeRun {limit : Nat} (bytes : List Byte) {m : Memory} (a : Nat)
    (ha : a + bytes.length ≤ limit) (h : Memory.below limit m = true) :
    Memory.below limit (Memory.writeRun m a bytes) = true := by
  induction bytes generalizing m a with
  | nil => exact h
  | cons b rest ih =>
    simp only [List.length_cons] at ha
    exact ih (a + 1) (by omega) (Memory.below_write (by omega) h)

end Sys2Proof.Machine
end

