-- ==== Sys2Proof/Laws/State.lean ====
section
/-! SUPPORT. One lemma per field per shared update of the state, so that no proof unfolds an update. -/

namespace Sys2Proof.Machine

/-! ### raiseAt -/

@[simp] theorem raiseAt_res (ms : Nat) (f : Failure) (s : State) : (raiseAt ms f s).res = freeRegs s.fresh := rfl
@[simp] theorem raiseAt_rn (ms : Nat) (f : Failure) (s : State) : (raiseAt ms f s).rn = 0 := rfl
@[simp] theorem raiseAt_busy (ms : Nat) (f : Failure) (s : State) : (raiseAt ms f s).busy = false := rfl
@[simp] theorem raiseAt_cur (ms : Nat) (f : Failure) (s : State) : (raiseAt ms f s).cur = s.cur := rfl
@[simp] theorem raiseAt_buf (ms : Nat) (f : Failure) (s : State) : (raiseAt ms f s).buf = s.buf := rfl
@[simp] theorem raiseAt_estk (ms : Nat) (f : Failure) (s : State) : (raiseAt ms f s).estk = estkRaise s.estk f := rfl
@[simp] theorem raiseAt_tmod (ms : Nat) (f : Failure) (s : State) : (raiseAt ms f s).tmod = s.tmod := rfl
@[simp] theorem raiseAt_chen (ms : Nat) (f : Failure) (s : State) : (raiseAt ms f s).chen = s.chen := rfl
@[simp] theorem raiseAt_lpfa (ms : Nat) (f : Failure) (s : State) : (raiseAt ms f s).lpfa = s.lpfa := rfl
@[simp] theorem raiseAt_a1g (ms : Nat) (f : Failure) (s : State) : (raiseAt ms f s).a1g = s.a1g := rfl
@[simp] theorem raiseAt_pv (ms : Nat) (f : Failure) (s : State) : (raiseAt ms f s).pv = s.pv := rfl
@[simp] theorem raiseAt_prev (ms : Nat) (f : Failure) (s : State) : (raiseAt ms f s).prev = s.prev := rfl
@[simp] theorem raiseAt_elapsed (ms : Nat) (f : Failure) (s : State) : (raiseAt ms f s).elapsed = s.elapsed := rfl
@[simp] theorem raiseAt_chunk (ms : Nat) (f : Failure) (s : State) : (raiseAt ms f s).chunk = s.chunk := rfl
@[simp] theorem raiseAt_tmp (ms : Nat) (f : Failure) (s : State) : (raiseAt ms f s).tmp = s.tmp := rfl
@[simp] theorem raiseAt_tmoeff (ms : Nat) (f : Failure) (s : State) : (raiseAt ms f s).tmoeff = s.tmoeff := rfl
@[simp] theorem raiseAt_cfg (ms : Nat) (f : Failure) (s : State) : (raiseAt ms f s).cfg = s.cfg := rfl
@[simp] theorem raiseAt_port (ms : Nat) (f : Failure) (s : State) : (raiseAt ms f s).port = s.port := rfl
@[simp] theorem raiseAt_resetLine (ms : Nat) (f : Failure) (s : State) :
    (raiseAt ms f s).resetLine = s.resetLine := rfl
@[simp] theorem raiseAt_bus (ms : Nat) (f : Failure) (s : State) : (raiseAt ms f s).bus = s.bus := rfl
@[simp] theorem raiseAt_calls (ms : Nat) (f : Failure) (s : State) : (raiseAt ms f s).calls = s.calls := rfl
@[simp] theorem raiseAt_out (ms : Nat) (f : Failure) (s : State) :
    (raiseAt ms f s).out = { status := .failed f, words := [], ms := ms } :: s.out := rfl
@[simp] theorem raiseAt_fresh (ms : Nat) (f : Failure) (s : State) : (raiseAt ms f s).fresh = s.fresh + 4 := rfl

/-! ### raise -/

@[simp] theorem raise_res (f : Failure) (s : State) : (raise f s).res = freeRegs s.fresh := rfl
@[simp] theorem raise_rn (f : Failure) (s : State) : (raise f s).rn = 0 := rfl
@[simp] theorem raise_busy (f : Failure) (s : State) : (raise f s).busy = false := rfl
@[simp] theorem raise_cur (f : Failure) (s : State) : (raise f s).cur = s.cur := rfl
@[simp] theorem raise_buf (f : Failure) (s : State) : (raise f s).buf = s.buf := rfl
@[simp] theorem raise_estk (f : Failure) (s : State) : (raise f s).estk = estkRaise s.estk f := rfl
@[simp] theorem raise_tmod (f : Failure) (s : State) : (raise f s).tmod = s.tmod := rfl
@[simp] theorem raise_chen (f : Failure) (s : State) : (raise f s).chen = s.chen := rfl
@[simp] theorem raise_lpfa (f : Failure) (s : State) : (raise f s).lpfa = s.lpfa := rfl
@[simp] theorem raise_a1g (f : Failure) (s : State) : (raise f s).a1g = s.a1g := rfl
@[simp] theorem raise_pv (f : Failure) (s : State) : (raise f s).pv = s.pv := rfl
@[simp] theorem raise_prev (f : Failure) (s : State) : (raise f s).prev = s.prev := rfl
@[simp] theorem raise_elapsed (f : Failure) (s : State) : (raise f s).elapsed = s.elapsed := rfl
@[simp] theorem raise_chunk (f : Failure) (s : State) : (raise f s).chunk = s.chunk := rfl
@[simp] theorem raise_tmp (f : Failure) (s : State) : (raise f s).tmp = s.tmp := rfl
@[simp] theorem raise_tmoeff (f : Failure) (s : State) : (raise f s).tmoeff = s.tmoeff := rfl
@[simp] theorem raise_cfg (f : Failure) (s : State) : (raise f s).cfg = s.cfg := rfl
@[simp] theorem raise_port (f : Failure) (s : State) : (raise f s).port = s.port := rfl
@[simp] theorem raise_resetLine (f : Failure) (s : State) : (raise f s).resetLine = s.resetLine := rfl
@[simp] theorem raise_bus (f : Failure) (s : State) : (raise f s).bus = s.bus := rfl
@[simp] theorem raise_calls (f : Failure) (s : State) : (raise f s).calls = s.calls := rfl
@[simp] theorem raise_out (f : Failure) (s : State) :
    (raise f s).out = { status := .failed f, words := [], ms := s.elapsed } :: s.out := rfl
@[simp] theorem raise_fresh (f : Failure) (s : State) : (raise f s).fresh = s.fresh + 4 := rfl

/-! ### timeOut -/

@[simp] theorem timeOut_res (s : State) : (timeOut s).res = freeRegs s.fresh := rfl
@[simp] theorem timeOut_rn (s : State) : (timeOut s).rn = 0 := rfl
@[simp] theorem timeOut_busy (s : State) : (timeOut s).busy = false := rfl
@[simp] theorem timeOut_cur (s : State) : (timeOut s).cur = s.cur := rfl
@[simp] theorem timeOut_buf (s : State) : (timeOut s).buf = s.buf := rfl
@[simp] theorem timeOut_estk (s : State) : (timeOut s).estk = estkRaise s.estk .busTimeout := rfl
@[simp] theorem timeOut_tmod (s : State) : (timeOut s).tmod = s.tmod := rfl
@[simp] theorem timeOut_chen (s : State) : (timeOut s).chen = s.chen := rfl
@[simp] theorem timeOut_lpfa (s : State) : (timeOut s).lpfa = s.lpfa := rfl
@[simp] theorem timeOut_a1g (s : State) : (timeOut s).a1g = s.a1g := rfl
@[simp] theorem timeOut_pv (s : State) : (timeOut s).pv = s.pv := rfl
@[simp] theorem timeOut_prev (s : State) : (timeOut s).prev = s.prev := rfl
@[simp] theorem timeOut_elapsed (s : State) : (timeOut s).elapsed = s.elapsed := rfl
@[simp] theorem timeOut_chunk (s : State) : (timeOut s).chunk = s.chunk := rfl
@[simp] theorem timeOut_tmp (s : State) : (timeOut s).tmp = s.tmp := rfl
@[simp] theorem timeOut_tmoeff (s : State) : (timeOut s).tmoeff = s.tmoeff := rfl
@[simp] theorem timeOut_cfg (s : State) : (timeOut s).cfg = s.cfg := rfl
@[simp] theorem timeOut_port (s : State) : (timeOut s).port = s.port := rfl
@[simp] theorem timeOut_resetLine (s : State) : (timeOut s).resetLine = s.resetLine := rfl
@[simp] theorem timeOut_bus (s : State) : (timeOut s).bus = s.bus := rfl
@[simp] theorem timeOut_calls (s : State) : (timeOut s).calls = s.calls := rfl
@[simp] theorem timeOut_out (s : State) :
    (timeOut s).out = { status := .failed .busTimeout, words := [], ms := s.tmoeff.toNat } :: s.out := rfl
@[simp] theorem timeOut_fresh (s : State) : (timeOut s).fresh = s.fresh + 4 := rfl

/-! ### complete -/

@[simp] theorem complete_res (values : List Word) (s : State) :
    (complete values s).res = resultRegs values s.fresh := rfl
@[simp] theorem complete_rn (values : List Word) (s : State) :
    (complete values s).rn = BitVec.ofNat 3 values.length := rfl
@[simp] theorem complete_busy (values : List Word) (s : State) : (complete values s).busy = false := rfl
@[simp] theorem complete_cur (values : List Word) (s : State) : (complete values s).cur = s.cur := rfl
@[simp] theorem complete_buf (values : List Word) (s : State) : (complete values s).buf = s.buf := rfl
@[simp] theorem complete_estk (values : List Word) (s : State) : (complete values s).estk = s.estk := rfl
@[simp] theorem complete_tmod (values : List Word) (s : State) : (complete values s).tmod = s.tmod := rfl
@[simp] theorem complete_chen (values : List Word) (s : State) : (complete values s).chen = s.chen := rfl
@[simp] theorem complete_lpfa (values : List Word) (s : State) : (complete values s).lpfa = s.lpfa := rfl
@[simp] theorem complete_a1g (values : List Word) (s : State) : (complete values s).a1g = s.a1g := rfl
@[simp] theorem complete_pv (values : List Word) (s : State) : (complete values s).pv = s.pv := rfl
@[simp] theorem complete_prev (values : List Word) (s : State) : (complete values s).prev = s.prev := rfl
@[simp] theorem complete_elapsed (values : List Word) (s : State) : (complete values s).elapsed = s.elapsed := rfl
@[simp] theorem complete_chunk (values : List Word) (s : State) : (complete values s).chunk = s.chunk := rfl
@[simp] theorem complete_tmp (values : List Word) (s : State) : (complete values s).tmp = s.tmp := rfl
@[simp] theorem complete_tmoeff (values : List Word) (s : State) : (complete values s).tmoeff = s.tmoeff := rfl
@[simp] theorem complete_cfg (values : List Word) (s : State) : (complete values s).cfg = s.cfg := rfl
@[simp] theorem complete_port (values : List Word) (s : State) : (complete values s).port = s.port := rfl
@[simp] theorem complete_resetLine (values : List Word) (s : State) :
    (complete values s).resetLine = s.resetLine := rfl
@[simp] theorem complete_bus (values : List Word) (s : State) : (complete values s).bus = s.bus := rfl
@[simp] theorem complete_calls (values : List Word) (s : State) : (complete values s).calls = s.calls := rfl
@[simp] theorem complete_out (values : List Word) (s : State) :
    (complete values s).out = { status := .ok, words := (ResultRegs.toList (resultRegs values s.fresh)).take values.length, ms := s.elapsed } :: s.out := rfl
@[simp] theorem complete_fresh (values : List Word) (s : State) : (complete values s).fresh = s.fresh + 4 := rfl

/-! ### hardReset -/

@[simp] theorem hardReset_res (s : State) : (hardReset s).res = ⟨0, 0, 0, 0⟩ := rfl
@[simp] theorem hardReset_rn (s : State) : (hardReset s).rn = 0 := rfl
@[simp] theorem hardReset_busy (s : State) : (hardReset s).busy = false := rfl
@[simp] theorem hardReset_cur (s : State) : (hardReset s).cur = 0 := rfl
@[simp] theorem hardReset_buf (s : State) : (hardReset s).buf = [] := rfl
@[simp] theorem hardReset_estk (s : State) : (hardReset s).estk = 0 := rfl
@[simp] theorem hardReset_tmod (s : State) : (hardReset s).tmod = s.cfg.defaultTimeoutMs := rfl
@[simp] theorem hardReset_chen (s : State) : (hardReset s).chen = 0 := rfl
@[simp] theorem hardReset_lpfa (s : State) : (hardReset s).lpfa = 0 := rfl
@[simp] theorem hardReset_a1g (s : State) : (hardReset s).a1g = 0 := rfl
@[simp] theorem hardReset_pv (s : State) : (hardReset s).pv = false := rfl
@[simp] theorem hardReset_prev (s : State) : (hardReset s).prev = ⟨0, 0, 0⟩ := rfl
@[simp] theorem hardReset_elapsed (s : State) : (hardReset s).elapsed = 0 := rfl
@[simp] theorem hardReset_chunk (s : State) : (hardReset s).chunk = 0 := rfl
@[simp] theorem hardReset_tmp (s : State) : (hardReset s).tmp = 0 := rfl
@[simp] theorem hardReset_tmoeff (s : State) : (hardReset s).tmoeff = 0 := rfl
@[simp] theorem hardReset_cfg (s : State) : (hardReset s).cfg = s.cfg := rfl
@[simp] theorem hardReset_port (s : State) : (hardReset s).port = s.port := rfl
@[simp] theorem hardReset_resetLine (s : State) : (hardReset s).resetLine = false := rfl
@[simp] theorem hardReset_bus (s : State) : (hardReset s).bus = s.bus := rfl
@[simp] theorem hardReset_calls (s : State) : (hardReset s).calls = s.calls := rfl
@[simp] theorem hardReset_out (s : State) : (hardReset s).out = s.out := rfl
@[simp] theorem hardReset_fresh (s : State) : (hardReset s).fresh = s.fresh := rfl

/-! ### accept -/

@[simp] theorem accept_res (w : CommandWord) (rest : List CommandWord) (s : State) :
    (accept w rest s).res = s.res := rfl
@[simp] theorem accept_rn (w : CommandWord) (rest : List CommandWord) (s : State) : (accept w rest s).rn = s.rn := rfl
@[simp] theorem accept_busy (w : CommandWord) (rest : List CommandWord) (s : State) :
    (accept w rest s).busy = true := rfl
@[simp] theorem accept_cur (w : CommandWord) (rest : List CommandWord) (s : State) : (accept w rest s).cur = w := rfl
@[simp] theorem accept_buf (w : CommandWord) (rest : List CommandWord) (s : State) :
    (accept w rest s).buf = s.buf := rfl
@[simp] theorem accept_estk (w : CommandWord) (rest : List CommandWord) (s : State) :
    (accept w rest s).estk = s.estk := rfl
@[simp] theorem accept_tmod (w : CommandWord) (rest : List CommandWord) (s : State) :
    (accept w rest s).tmod = s.tmod := rfl
@[simp] theorem accept_chen (w : CommandWord) (rest : List CommandWord) (s : State) :
    (accept w rest s).chen = s.chen := rfl
@[simp] theorem accept_lpfa (w : CommandWord) (rest : List CommandWord) (s : State) :
    (accept w rest s).lpfa = s.lpfa := rfl
@[simp] theorem accept_a1g (w : CommandWord) (rest : List CommandWord) (s : State) :
    (accept w rest s).a1g = s.a1g := rfl
@[simp] theorem accept_pv (w : CommandWord) (rest : List CommandWord) (s : State) : (accept w rest s).pv = s.pv := rfl
@[simp] theorem accept_prev (w : CommandWord) (rest : List CommandWord) (s : State) :
    (accept w rest s).prev = s.prev := rfl
@[simp] theorem accept_elapsed (w : CommandWord) (rest : List CommandWord) (s : State) :
    (accept w rest s).elapsed = 0 := rfl
@[simp] theorem accept_chunk (w : CommandWord) (rest : List CommandWord) (s : State) :
    (accept w rest s).chunk = 0 := rfl
@[simp] theorem accept_tmp (w : CommandWord) (rest : List CommandWord) (s : State) :
    (accept w rest s).tmp = s.tmp := rfl
@[simp] theorem accept_tmoeff (w : CommandWord) (rest : List CommandWord) (s : State) :
    (accept w rest s).tmoeff = s.tmoeff := rfl
@[simp] theorem accept_cfg (w : CommandWord) (rest : List CommandWord) (s : State) :
    (accept w rest s).cfg = s.cfg := rfl
@[simp] theorem accept_port (w : CommandWord) (rest : List CommandWord) (s : State) :
    (accept w rest s).port = rest := rfl
@[simp] theorem accept_resetLine (w : CommandWord) (rest : List CommandWord) (s : State) :
    (accept w rest s).resetLine = s.resetLine := rfl
@[simp] theorem accept_bus (w : CommandWord) (rest : List CommandWord) (s : State) :
    (accept w rest s).bus = s.bus := rfl
@[simp] theorem accept_calls (w : CommandWord) (rest : List CommandWord) (s : State) :
    (accept w rest s).calls = s.calls := rfl
@[simp] theorem accept_out (w : CommandWord) (rest : List CommandWord) (s : State) :
    (accept w rest s).out = s.out := rfl
@[simp] theorem accept_fresh (w : CommandWord) (rest : List CommandWord) (s : State) :
    (accept w rest s).fresh = s.fresh := rfl

/-! ### busPrologue -/

@[simp] theorem busPrologue_res (tmo : Timeout) (s : State) : (busPrologue tmo s).res = s.res := rfl
@[simp] theorem busPrologue_rn (tmo : Timeout) (s : State) : (busPrologue tmo s).rn = s.rn := rfl
@[simp] theorem busPrologue_busy (tmo : Timeout) (s : State) : (busPrologue tmo s).busy = s.busy := rfl
@[simp] theorem busPrologue_cur (tmo : Timeout) (s : State) : (busPrologue tmo s).cur = s.cur := rfl
@[simp] theorem busPrologue_buf (tmo : Timeout) (s : State) : (busPrologue tmo s).buf = s.buf := rfl
@[simp] theorem busPrologue_estk (tmo : Timeout) (s : State) : (busPrologue tmo s).estk = s.estk := rfl
@[simp] theorem busPrologue_tmod (tmo : Timeout) (s : State) : (busPrologue tmo s).tmod = s.tmod := rfl
@[simp] theorem busPrologue_chen (tmo : Timeout) (s : State) : (busPrologue tmo s).chen = s.chen := rfl
@[simp] theorem busPrologue_lpfa (tmo : Timeout) (s : State) : (busPrologue tmo s).lpfa = s.lpfa := rfl
@[simp] theorem busPrologue_a1g (tmo : Timeout) (s : State) : (busPrologue tmo s).a1g = s.a1g := rfl
@[simp] theorem busPrologue_pv (tmo : Timeout) (s : State) : (busPrologue tmo s).pv = s.pv := rfl
@[simp] theorem busPrologue_prev (tmo : Timeout) (s : State) : (busPrologue tmo s).prev = s.prev := rfl
@[simp] theorem busPrologue_elapsed (tmo : Timeout) (s : State) : (busPrologue tmo s).elapsed = 0 := rfl
@[simp] theorem busPrologue_chunk (tmo : Timeout) (s : State) : (busPrologue tmo s).chunk = s.chunk := rfl
@[simp] theorem busPrologue_tmp (tmo : Timeout) (s : State) : (busPrologue tmo s).tmp = s.tmp := rfl
@[simp] theorem busPrologue_tmoeff (tmo : Timeout) (s : State) :
    (busPrologue tmo s).tmoeff = effectiveTimeout tmo s.tmod := rfl
@[simp] theorem busPrologue_cfg (tmo : Timeout) (s : State) : (busPrologue tmo s).cfg = s.cfg := rfl
@[simp] theorem busPrologue_port (tmo : Timeout) (s : State) : (busPrologue tmo s).port = s.port := rfl
@[simp] theorem busPrologue_resetLine (tmo : Timeout) (s : State) : (busPrologue tmo s).resetLine = s.resetLine := rfl
@[simp] theorem busPrologue_bus (tmo : Timeout) (s : State) : (busPrologue tmo s).bus = s.bus := rfl
@[simp] theorem busPrologue_calls (tmo : Timeout) (s : State) : (busPrologue tmo s).calls = s.calls := rfl
@[simp] theorem busPrologue_out (tmo : Timeout) (s : State) : (busPrologue tmo s).out = s.out := rfl
@[simp] theorem busPrologue_fresh (tmo : Timeout) (s : State) : (busPrologue tmo s).fresh = s.fresh := rfl

/-! ### issue -/

@[simp] theorem issue_res (c : BusCall) (s : State) : (issue c s).2.res = s.res := rfl
@[simp] theorem issue_rn (c : BusCall) (s : State) : (issue c s).2.rn = s.rn := rfl
@[simp] theorem issue_busy (c : BusCall) (s : State) : (issue c s).2.busy = s.busy := rfl
@[simp] theorem issue_cur (c : BusCall) (s : State) : (issue c s).2.cur = s.cur := rfl
@[simp] theorem issue_buf (c : BusCall) (s : State) : (issue c s).2.buf = s.buf := rfl
@[simp] theorem issue_estk (c : BusCall) (s : State) : (issue c s).2.estk = s.estk := rfl
@[simp] theorem issue_tmod (c : BusCall) (s : State) : (issue c s).2.tmod = s.tmod := rfl
@[simp] theorem issue_chen (c : BusCall) (s : State) : (issue c s).2.chen = s.chen := rfl
@[simp] theorem issue_lpfa (c : BusCall) (s : State) : (issue c s).2.lpfa = s.lpfa := rfl
@[simp] theorem issue_a1g (c : BusCall) (s : State) : (issue c s).2.a1g = s.a1g := rfl
@[simp] theorem issue_pv (c : BusCall) (s : State) : (issue c s).2.pv = s.pv := rfl
@[simp] theorem issue_prev (c : BusCall) (s : State) : (issue c s).2.prev = s.prev := rfl
@[simp] theorem issue_elapsed (c : BusCall) (s : State) : (issue c s).2.elapsed = s.elapsed := rfl
@[simp] theorem issue_chunk (c : BusCall) (s : State) : (issue c s).2.chunk = s.chunk := rfl
@[simp] theorem issue_tmp (c : BusCall) (s : State) : (issue c s).2.tmp = s.tmp := rfl
@[simp] theorem issue_tmoeff (c : BusCall) (s : State) : (issue c s).2.tmoeff = s.tmoeff := rfl
@[simp] theorem issue_cfg (c : BusCall) (s : State) : (issue c s).2.cfg = s.cfg := rfl
@[simp] theorem issue_port (c : BusCall) (s : State) : (issue c s).2.port = s.port := rfl
@[simp] theorem issue_resetLine (c : BusCall) (s : State) : (issue c s).2.resetLine = s.resetLine := rfl
@[simp] theorem issue_bus (c : BusCall) (s : State) : 
    (issue c s).2.bus = (busAnswer s.fresh (fun d => deadlineReached s (s.elapsed + d)) c s.bus).2 := rfl
@[simp] theorem issue_calls (c : BusCall) (s : State) : (issue c s).2.calls = c :: s.calls := rfl
@[simp] theorem issue_out (c : BusCall) (s : State) : (issue c s).2.out = s.out := rfl
@[simp] theorem issue_fresh (c : BusCall) (s : State) : (issue c s).2.fresh = s.fresh + 1 := rfl

end Sys2Proof.Machine
end

