-- ==== Sys2Proof/Laws/Ops.lean ====
section
/-! SUPPORT. One lemma per shared operation that says once what it can do. -/

namespace Sys2Proof.Machine

@[simp] theorem Flow.andThen_go {α β : Type} (a : α) (s : State) (k : α → State → Flow β) :
    (Flow.go a s).andThen k = k a s := rfl

@[simp] theorem Flow.andThen_stop {α β : Type} (s : State) (k : α → State → Flow β) :
    (Flow.stop s : Flow α).andThen k = .stop s := rfl

@[simp] theorem Flow.finish_go {α : Type} (a : α) (s : State) (k : α → State → State) :
    (Flow.go a s).finish k = k a s := rfl

@[simp] theorem Flow.finish_stop {α : Type} (s : State) (k : α → State → State) :
    (Flow.stop s : Flow α).finish k = s := rfl

/-- A property that holds wherever a procedure stands after an operation. -/
def Flow.Holds {α : Type} (P : α → State → Prop) (Q : State → Prop) : Flow α → Prop
  | .go a s => P a s
  | .stop s => Q s

theorem Flow.Holds.andThen {α β : Type} {P : α → State → Prop} {Q : State → Prop} {P' : β → State → Prop}
    {f : Flow α} {k : α → State → Flow β} (hf : f.Holds P Q) (hk : ∀ a s, P a s → (k a s).Holds P' Q) :
    (f.andThen k).Holds P' Q := by
  cases f with
  | go a s => exact hk a s hf
  | stop s => exact hf

theorem Flow.Holds.finish {α : Type} {P : α → State → Prop} {Q : State → Prop} {f : Flow α}
    {k : α → State → State} (hf : f.Holds P Q) (hk : ∀ a s, P a s → Q (k a s)) : Q (f.finish k) := by
  cases f with
  | go a s => exact hk a s hf
  | stop s => exact hf

theorem Flow.Holds.mono {α : Type} {P P' : α → State → Prop} {Q Q' : State → Prop} {f : Flow α}
    (hf : f.Holds P Q) (hP : ∀ a s, P a s → P' a s) (hQ : ∀ s, Q s → Q' s) : f.Holds P' Q' := by
  cases f with
  | go a s => exact hP a s hf
  | stop s => exact hQ s hf

@[simp] theorem deadlineReached_issue (c : BusCall) (s : State) (t : Nat) :
    deadlineReached (issue c s).2 t = deadlineReached s t := rfl

/-- The deadline test, read as a proposition (R46). -/
theorem deadlineReached_eq_false {s : State} {t : Nat} :
    deadlineReached s t = false ↔ (s.tmoeff = 0 ∨ t < s.tmoeff.toNat) := by
  simp only [deadlineReached, Bool.and_eq_false_iff, bne_eq_false_iff_eq, decide_eq_false_iff_not, Nat.not_le]

/-- What a driver call that goes on leaves (R46): only the elapsed time moved beside the issue, the deadline was not reached, and a
read gave as many bytes as asked. -/
theorem call_go {c : BusCall} {s t : State} {bytes : List Byte} (h : call c s = .go bytes t) :
    ∃ d, t = { (issue c s).2 with elapsed := s.elapsed + d } ∧ deadlineReached s (s.elapsed + d) = false ∧
      (∀ dev n, c = .read dev n → bytes.length = n) := by
  simp only [call, settleCall] at h
  split at h
  · cases h
  · split at h <;> cases h
  · rename_i d reply _
    split at h
    · cases h
    · rename_i hd
      split at h
      · rename_i b hj
        cases h
        refine ⟨d, rfl, by simpa using hd, ?_⟩
        rintro dev n rfl
        cases reply with
        | nack => simp [judge] at hj
        | ack got =>
          simp only [judge] at hj
          split at hj
          · cases hj; assumption
          · cases hj
      · cases h

/-- How a driver call can end a command (R46, R223, R242): reset, the hang, the deadline, or a failure reported in time. -/
theorem call_stop {c : BusCall} {s t : State} (h : call c s = .stop t) :
    t = hardReset (issue c s).2 ∨
    (s.tmoeff = 0 ∧ t = { (issue c s).2 with busy := true }) ∨
    (s.tmoeff ≠ 0 ∧ t = timeOut (issue c s).2) ∨
    (∃ d f, deadlineReached s (s.elapsed + d) = false ∧ (f = .busNack ∨ f = .malformedResponse) ∧
      t = raise f { (issue c s).2 with elapsed := s.elapsed + d }) := by
  simp only [call, settleCall] at h
  split at h
  · cases h; exact .inl rfl
  · split at h
    · rename_i h0; cases h; exact .inr (.inl ⟨h0, rfl⟩)
    · rename_i h0; cases h; exact .inr (.inr (.inl ⟨h0, rfl⟩))
  · rename_i d reply _
    split at h
    · rename_i hd
      cases h
      refine .inr (.inr (.inl ⟨?_, rfl⟩))
      simp only [deadlineReached, issue_tmoeff, Bool.and_eq_true, bne_iff_ne] at hd
      exact hd.1
    · rename_i hd
      split at h
      · cases h
      · rename_i f hj
        cases h
        refine .inr (.inr (.inr ⟨d, f, by simpa using hd, ?_, rfl⟩))
        cases c <;> cases reply <;> simp only [judge] at hj
        · cases hj
        · cases hj; exact .inl rfl
        · split at hj <;> cases hj; exact .inr rfl
        · cases hj; exact .inl rfl

/-- The next draw of a script (R44). -/
theorem issue_scripted {c : BusCall} {s : State} {e : CallEvent} {rest : List CallEvent}
    (h : s.bus = .scripted (e :: rest)) :
    issue c s = (e, { s with bus := .scripted rest, calls := c :: s.calls, fresh := s.fresh + 1 }) := by
  simp [issue, busAnswer, h]

/-- A write call acknowledged before the deadline. -/
theorem call_write_ack {dev : Byte} {bytes x : List Byte} {s : State} {d : Nat} {rest : List CallEvent}
    (h : s.bus = .scripted (.answered d (.ack x) :: rest)) (hd : deadlineReached s (s.elapsed + d) = false) :
    call (.write dev bytes) s = .go []
      { s with
        bus := .scripted rest
        calls := .write dev bytes :: s.calls
        fresh := s.fresh + 1
        elapsed := s.elapsed + d } := by
  have hd' : deadlineReached { s with bus := .scripted rest, calls := .write dev bytes :: s.calls, fresh := s.fresh + 1 }
      (s.elapsed + d) = false := hd
  simp [call, issue_scripted h, settleCall, judge, hd']

/-- A read call that delivers as many bytes as asked before the deadline. -/
theorem call_read_ack {dev : Byte} {n : Nat} {bytes : List Byte} {s : State} {d : Nat} {rest : List CallEvent}
    (h : s.bus = .scripted (.answered d (.ack bytes) :: rest)) (hl : bytes.length = n)
    (hd : deadlineReached s (s.elapsed + d) = false) :
    call (.read dev n) s = .go bytes
      { s with
        bus := .scripted rest
        calls := .read dev n :: s.calls
        fresh := s.fresh + 1
        elapsed := s.elapsed + d } := by
  have hd' : deadlineReached { s with bus := .scripted rest, calls := .read dev n :: s.calls, fresh := s.fresh + 1 }
      (s.elapsed + d) = false := hd
  simp [call, issue_scripted h, settleCall, judge, hl, hd']

/-- MemRead with both calls answered before the deadline (R48). -/
theorem memRead_ack {dev reg : Byte} {n : Nat} {x bytes : List Byte} {s : State} {d1 d2 : Nat} {rest : List CallEvent}
    (h : s.bus = .scripted (.answered d1 (.ack x) :: .answered d2 (.ack bytes) :: rest)) (hl : bytes.length = n)
    (hd1 : deadlineReached s (s.elapsed + d1) = false) (hd2 : deadlineReached s (s.elapsed + d1 + d2) = false) :
    memRead dev reg n s = .go bytes
      { s with
        bus := .scripted rest
        calls := .read dev n :: .write dev [reg] :: s.calls
        fresh := s.fresh + 2
        elapsed := s.elapsed + d1 + d2 } := by
  rw [memRead, call_write_ack h hd1, Flow.andThen_go, call_read_ack rfl hl hd2]

/-- A property kept by issuing, by time and by every way a call can end holds wherever a call leads. -/
theorem call_holds {P Q : State → Prop} {c : BusCall} {s : State} (hs : P s)
    (hgo : ∀ d, P s → deadlineReached s (s.elapsed + d) = false →
      P { (issue c s).2 with elapsed := s.elapsed + d })
    (hstop : ∀ t, P s → call c s = .stop t → Q t) :
    (call c s).Holds (fun bytes t => P t ∧ ∀ dev n, c = .read dev n → bytes.length = n) Q := by
  cases h : call c s with
  | go bytes t =>
    obtain ⟨d, rfl, hd, hl⟩ := call_go h
    exact ⟨hgo d hs hd, hl⟩
  | stop t => exact hstop t hs h

/-- The chunk size of a split read lies between 1 and BUS_CAP for both units (R56). -/
theorem chunkCap_bounds {cap unit : Nat} (hc : 3 ≤ cap) (hu : unit = 1 ∨ unit = 2) :
    2 ≤ chunkCap cap unit ∧ chunkCap cap unit ≤ cap := by
  rcases hu with rfl | rfl <;> simp only [chunkCap] <;> omega

/-- What DecodePrologue can answer (R140). -/
theorem decodePrologue_cases (need : List Channel) (s : State) :
    (∃ bytes, need.all (channelEnabled s.chen) = true ∧ Memory.readRun s.buf 0 (flenOf s.chen) = some bytes ∧
      decodePrologue need s = .ok { bytes := bytes, chen := s.chen }) ∨
    (need.all (channelEnabled s.chen) = true ∧ Memory.readRun s.buf 0 (flenOf s.chen) = none ∧
      decodePrologue need s = .error .callerContractViolation) ∨
    (need.all (channelEnabled s.chen) = false ∧ decodePrologue need s = .error .channelNotPresent) := by
  unfold decodePrologue
  split
  · rename_i h
    split
    · rename_i bytes hb; exact .inl ⟨bytes, h, hb, rfl⟩
    · rename_i hb; exact .inr (.inl ⟨h, hb, rfl⟩)
  · rename_i h; exact .inr (.inr ⟨by simpa using h, rfl⟩)

/-- What a decode command leaves (R140, R219). -/
theorem decodeFrame_cases (need : List Channel) (k : Frame → State → State) (s : State) :
    (∃ bytes, need.all (channelEnabled s.chen) = true ∧ Memory.readRun s.buf 0 (flenOf s.chen) = some bytes ∧
      decodeFrame need k s = k { bytes := bytes, chen := s.chen } s) ∨
    (need.all (channelEnabled s.chen) = true ∧ Memory.readRun s.buf 0 (flenOf s.chen) = none ∧
      decodeFrame need k s = raise .callerContractViolation s) ∨
    (need.all (channelEnabled s.chen) = false ∧ decodeFrame need k s = raise .channelNotPresent s) := by
  rcases decodePrologue_cases need s with ⟨bytes, h1, h2, h3⟩ | ⟨h1, h2, h3⟩ | ⟨h1, h3⟩
  · exact .inl ⟨bytes, h1, h2, by simp [decodeFrame, h3]⟩
  · exact .inr (.inl ⟨h1, h2, by simp [decodeFrame, h3]⟩)
  · exact .inr (.inr ⟨h1, by simp [decodeFrame, h3]⟩)

/-- What the degenerate test leaves (R163). -/
theorem withQuat_cases (fr : Frame) (k : RawQuat → State → State) (s : State) :
    (normSq (rawQuatOf fr) < (s.cfg.qepsSqRaw : Int) ∧ withQuat fr k s = raise .decodeDegenerate s) ∨
    ((s.cfg.qepsSqRaw : Int) ≤ normSq (rawQuatOf fr) ∧ withQuat fr k s = k (rawQuatOf fr) s) := by
  unfold withQuat
  split
  · exact .inl ⟨‹_›, rfl⟩
  · exact .inr ⟨by omega, rfl⟩

end Sys2Proof.Machine
end

