-- ==== Sys2Proof/Laws/Run.lean ====
section
/-! SUPPORT. What a bus command can have done by any point of its procedure, and how it can have ended early: one lemma per shared
bus operation, so that a claim over all bus commands unfolds none of them. -/

namespace Sys2Proof.Machine

/-- `s` is `s0` some driver calls later: only the bus side, the trace, the free-value counter, the timer, K and TMP moved, and every call
issued was within the capacity. -/
def Kept (s0 s : State) : Prop :=
  (∃ new, s.calls = new ++ s0.calls ∧ ∀ c ∈ new, callLegal s0.cfg.busCap c = true) ∧
    s = { s0 with
      bus := s.bus
      calls := s.calls
      fresh := s.fresh
      elapsed := s.elapsed
      chunk := s.chunk
      tmp := s.tmp }

/-- A bus command begun in `s0` is still running in `s`: its deadline is not reached (R46). -/
def Running (s0 s : State) : Prop := Kept s0 s ∧ (s.tmoeff = 0 ∨ s.elapsed < s.tmoeff.toNat)

/-- A bus command begun in `s0` has ended early in `t` (R46, R223, R242): dropped by reset, hanging without a bound, or failed no later than the
deadline. -/
def Stopped (s0 t : State) : Prop :=
  ∃ s, Kept s0 s ∧
    (t = hardReset s ∨ (s.tmoeff = 0 ∧ t = { s with busy := true }) ∨
      ∃ ms f, t = raiseAt ms f s ∧ (s.tmoeff = 0 ∨ ms ≤ s.tmoeff.toNat))

theorem Kept.refl (s : State) : Kept s s := ⟨⟨[], rfl, by simp⟩, rfl⟩

/-- A state that differs in the moving fields only, with the same trace. -/
theorem Kept.touch {s0 s : State} (h : Kept s0 s) (chunk : Nat) (tmp : HalfWord) :
    Kept s0 { s with chunk := chunk, tmp := tmp } := by
  obtain ⟨hc, he⟩ := h
  refine ⟨hc, ?_⟩
  rw [he]

theorem Kept.tmoeff {s0 s : State} (h : Kept s0 s) : s.tmoeff = s0.tmoeff := by rw [h.2]

theorem Kept.cfg {s0 s : State} (h : Kept s0 s) : s.cfg = s0.cfg := by rw [h.2]

theorem Kept.buf {s0 s : State} (h : Kept s0 s) : s.buf = s0.buf := by rw [h.2]

theorem Kept.out {s0 s : State} (h : Kept s0 s) : s.out = s0.out := by rw [h.2]

theorem Kept.estk {s0 s : State} (h : Kept s0 s) : s.estk = s0.estk := by rw [h.2]

/-- Issuing a call of legal size, and time passing. -/
theorem Kept.issue {s0 s : State} (h : Kept s0 s) {c : BusCall} (hc : callLegal s0.cfg.busCap c = true) (ms : Nat) :
    Kept s0 { (issue c s).2 with elapsed := ms } := by
  obtain ⟨⟨new, hn, hl⟩, he⟩ := h
  refine ⟨⟨c :: new, by simp [hn], ?_⟩, ?_⟩
  · intro c' hm
    rcases List.mem_cons.mp hm with rfl | hm
    · exact hc
    · exact hl c' hm
  · rw [he]; rfl

/-- Issuing a call of legal size. -/
theorem Kept.issued {s0 s : State} (h : Kept s0 s) {c : BusCall} (hc : callLegal s0.cfg.busCap c = true) :
    Kept s0 (Machine.issue c s).2 := h.issue hc s.elapsed

/-- A driver call of legal size goes on running, or stops the command (R46). -/
theorem call_run {s0 s : State} {c : BusCall} (h : Running s0 s) (hc : callLegal s0.cfg.busCap c = true) :
    (call c s).Holds
      (fun bytes t => Running s0 t ∧ t.chunk = s.chunk ∧ ∀ dev n, c = .read dev n → bytes.length = n) (Stopped s0) := by
  cases hcall : call c s with
  | go bytes t =>
    obtain ⟨d, rfl, hd, hl⟩ := call_go hcall
    exact ⟨⟨h.1.issue hc _, deadlineReached_eq_false.mp hd⟩, rfl, hl⟩
  | stop t =>
    rcases call_stop hcall with rfl | ⟨h0, rfl⟩ | ⟨h0, rfl⟩ | ⟨d, f, hd, -, rfl⟩
    · exact ⟨_, h.1.issued hc, .inl rfl⟩
    · exact ⟨_, h.1.issued hc, .inr (.inl ⟨h0, rfl⟩)⟩
    · exact ⟨_, h.1.issued hc, .inr (.inr ⟨_, _, rfl, .inr (Nat.le_refl _)⟩)⟩
    · refine ⟨_, h.1.issue hc (s.elapsed + d), .inr (.inr ⟨_, _, rfl, ?_⟩)⟩
      rcases deadlineReached_eq_false.mp hd with h0 | h0
      · exact .inl h0
      · exact .inr (Nat.le_of_lt h0)

/-- MemRead of 1 to BUS_CAP bytes (R48). -/
theorem memRead_run {s0 s : State} {dev reg : Byte} {n : Nat} (h : Running s0 s) (h1 : 1 ≤ n) (hn : n ≤ s0.cfg.busCap) :
    (memRead dev reg n s).Holds (fun bytes t => Running s0 t ∧ t.chunk = s.chunk ∧ bytes.length = n) (Stopped s0) := by
  have hcap := s0.cfg.busCap_ge
  refine (call_run h (by simp [callLegal]; omega)).andThen fun _ t ht => ?_
  refine (call_run ht.1 (by simp [callLegal]; omega)).mono (fun bytes u hu => ⟨hu.1, hu.2.1.trans ht.2.1, hu.2.2 _ _ rfl⟩) fun _ => id

/-- MemWrite of at most BUS_CAP less 1 bytes (R49). -/
theorem memWrite_run {s0 s : State} {dev reg : Byte} {bytes : List Byte} (h : Running s0 s)
    (hn : bytes.length + 1 ≤ s0.cfg.busCap) :
    (memWrite dev reg bytes s).Holds (fun _ t => Running s0 t) (Stopped s0) :=
  (call_run h (by simp [callLegal]; omega)).mono (fun _ _ hu => hu.1) fun _ => id

/-- The chunk loop (R56): when it goes on, exactly `n` bytes are there and K is `n`. -/
theorem seqLoop_run {s0 : State} {dev reg : Byte} {inc : Bool} {cap n : Nat} (h1 : 1 ≤ cap) (hcap : cap ≤ s0.cfg.busCap) :
    ∀ (fuel : Nat) (got : List Byte) (s : State), Running s0 s → got.length = s.chunk → s.chunk ≤ n → n ≤ s.chunk + fuel →
      (seqLoop dev reg inc cap n fuel got s).Holds
        (fun bytes t => Running s0 t ∧ bytes.length = n ∧ t.chunk = n) (Stopped s0)
  | 0, got, s, h, hg, hle, hf => ⟨h, by omega, by omega⟩
  | fuel + 1, got, s, h, hg, hle, hf => by
    unfold seqLoop
    split
    · rename_i hlt
      refine (memRead_run (n := min cap (n - s.chunk)) h (by omega) (by omega)).andThen fun bytes t ht => ?_
      refine seqLoop_run h1 hcap fuel (got ++ bytes) _ ⟨ht.1.1.touch _ t.tmp, ht.1.2⟩ ?_ ?_ ?_
      · simp only [List.length_append, ht.2, hg]
      · simp only [ht.2]; omega
      · simp only [ht.2]; omega
    · exact ⟨h, by omega, by omega⟩

/-- SeqRead of either unit (R56). -/
theorem seqRead_run {s0 s : State} {dev reg : Byte} {n unit : Nat} {inc : Bool} (hu : unit = 1 ∨ unit = 2) (h : Running s0 s) :
    (seqRead dev reg n inc unit s).Holds (fun bytes t => Running s0 t ∧ bytes.length = n ∧ t.chunk = n) (Stopped s0) := by
  have hc := chunkCap_bounds s0.cfg.busCap_ge hu
  have hcfg : s.cfg = s0.cfg := h.1.cfg
  rw [← hcfg] at hc
  exact seqLoop_run (by omega) (hcfg ▸ hc.2) n [] _ ⟨h.1.touch 0 s.tmp, h.2⟩ rfl (Nat.zero_le _) (by simp)

/-- A bus command begun in `s0` has ended in `t`: completed with these many words, or stopped. -/
def Ended (count : Nat) (s0 t : State) : Prop :=
  (∃ values s, values.length = count ∧ Running s0 s ∧ t = complete values s) ∨ Stopped s0 t

/-- Reading a register byte (R101, R103, R105). -/
theorem readByteWith_ended {s0 s : State} (dev reg : Byte) (f : Byte → Word) (h : Running s0 s) :
    Ended 1 s0 (readByteWith dev reg f s) := by
  have hcap := s0.cfg.busCap_ge
  exact ((memRead_run h (by omega) (by omega)).mono (fun _ _ hu => hu.1) fun _ => Or.inr).finish
    (Q := Ended 1 s0) fun _ t ht => .inl ⟨_, t, rfl, ht, rfl⟩

/-- Reading a register word (R102, R104, R106). -/
theorem readWordWith_ended {s0 s : State} (dev reg : Byte) (f : HalfWord → Word) (h : Running s0 s) :
    Ended 1 s0 (readWordWith dev reg f s) := by
  have hcap := s0.cfg.busCap_ge
  exact ((memRead_run h (by omega) (by omega)).mono (fun _ _ hu => hu.1) fun _ => Or.inr).finish
    (Q := Ended 1 s0) fun _ t ht => .inl ⟨_, t, rfl, ht, rfl⟩

/-- One write call (R124, R125, R49). -/
theorem writeBytes_ended {s0 s : State} (dev reg : Byte) (bytes : List Byte) (h : Running s0 s)
    (hn : bytes.length + 1 ≤ s0.cfg.busCap) : Ended 0 s0 (writeBytes dev reg bytes s) :=
  ((memWrite_run h hn).mono (fun _ _ hu => hu) fun _ => Or.inr).finish
    (Q := Ended 0 s0) fun _ t ht => .inl ⟨_, t, rfl, ht, rfl⟩

/-- The read-modify-write unit on a byte (R120, R122). -/
theorem modifyByte_ended {s0 s : State} (dev reg : Byte) (f : Byte → Byte) (h : Running s0 s) :
    Ended 0 s0 (modifyByte dev reg f s) := by
  have hcap := s0.cfg.busCap_ge
  refine ((memRead_run h (by omega) (by omega)).mono (fun _ _ hu => hu.1) fun _ => Or.inr).finish
    (Q := Ended 0 s0) fun bytes t ht => ?_
  refine ((memWrite_run ⟨ht.1.touch t.chunk ((byteAt bytes 0).setWidth 16), ht.2⟩ ?_).mono (fun _ _ hu => hu) fun _ => Or.inr).finish
    (Q := Ended 0 s0) fun _ u hu => .inl ⟨[], u, rfl, hu, rfl⟩
  simp only [List.length_cons, List.length_nil]
  omega

/-- The read-modify-write unit on a word (R121, R123). -/
theorem modifyWord_ended {s0 s : State} (dev reg : Byte) (f : HalfWord → HalfWord) (h : Running s0 s) :
    Ended 0 s0 (modifyWord dev reg f s) := by
  have hcap := s0.cfg.busCap_ge
  refine ((memRead_run h (by omega) (by omega)).mono (fun _ _ hu => hu.1) fun _ => Or.inr).finish
    (Q := Ended 0 s0) fun bytes t ht => ?_
  refine ((memWrite_run ⟨ht.1.touch t.chunk (wordAt bytes), ht.2⟩ ?_).mono (fun _ _ hu => hu) fun _ => Or.inr).finish
    (Q := Ended 0 s0) fun _ u hu => .inl ⟨[], u, rfl, hu, rfl⟩
  simp only [List.length_cons, List.length_nil]
  omega

/-- A sequence write (R126, R127): refused before any call, or one call. -/
theorem writeFromBuffer_ended {s0 s : State} (dev reg : Byte) (n : Nat) (h : Running s0 s) :
    (writeFromBuffer dev reg n s = raise .callerContractViolation s) ∨ Ended 0 s0 (writeFromBuffer dev reg n s) := by
  unfold writeFromBuffer
  split
  · rename_i hfit
    split
    · rename_i bytes hb
      have hlen := (Memory.readRun_eq_some _ _ _ _ |>.mp hb).1
      have hcfg : s.cfg = s0.cfg := h.1.cfg
      refine .inr (writeBytes_ended dev reg bytes h ?_)
      simp only [writeFits, decide_eq_true_eq, hcfg] at hfit
      omega
    · exact .inl rfl
  · exact .inl rfl

/-- A sequence read (R107, R108): DB is emptied first, and filled with exactly `n` bytes on success only. -/
theorem readIntoBuffer_cases {s0 s : State} (dev reg : Byte) (n : Nat) (inc : Bool) {unit : Nat} (hu : unit = 1 ∨ unit = 2)
    (h : Running s0 { s with buf := [] }) :
    (∃ bytes t, bytes.length = n ∧ Running s0 t ∧ t.chunk = n ∧
      readIntoBuffer dev reg n inc unit s = complete [] { t with buf := Memory.writeRun [] 0 bytes }) ∨
    Stopped s0 (readIntoBuffer dev reg n inc unit s) := by
  unfold readIntoBuffer
  cases hq : seqRead dev reg n inc unit { s with buf := [] } with
  | go bytes t =>
    have hr : (Flow.go bytes t).Holds (fun bytes t => Running s0 t ∧ bytes.length = n ∧ t.chunk = n) (Stopped s0) :=
      hq ▸ seqRead_run hu h
    have hb : t.buf = [] := hr.1.1.buf.trans h.1.buf.symm
    exact .inl ⟨bytes, t, hr.2.1, hr.1, hr.2.2, by simp [hb]⟩
  | stop t =>
    have hr : (Flow.stop t : Flow (List Byte)).Holds
        (fun bytes t => Running s0 t ∧ bytes.length = n ∧ t.chunk = n) (Stopped s0) := hq ▸ seqRead_run hu h
    exact .inr hr

/-- The prologue's state is running (R100): no time has passed. -/
theorem busPrologue_running (tmo : Timeout) (s : State) : Running (busPrologue tmo s) (busPrologue tmo s) := by
  refine ⟨Kept.refl _, ?_⟩
  by_cases h : (busPrologue tmo s).tmoeff = 0
  · exact .inl h
  · right
    have : (busPrologue tmo s).tmoeff.toNat ≠ 0 := fun h0 => h (BitVec.eq_of_toNat_eq h0)
    simp only [busPrologue] at *
    omega

end Sys2Proof.Machine
end

