-- ==== Sys2Proof/Laws/Exec.lean ====
section
/-! SUPPORT. How each class of commands can end, over all its commands at once. -/

namespace Sys2Proof.Machine

/-- How a bus command can end (R57, R107, R108): refused before any call; completed or stopped with DB as it was; or a sequence read, which
emptied DB first. -/
def BusEnd (tmo : Timeout) (s t : State) : Prop :=
  t = raise .callerContractViolation (busPrologue tmo s) ∨
  (∃ count, count ≤ 1 ∧ Ended count (busPrologue tmo s) t)

/-- How a sequence read of at least one element can end: DB emptied at acceptance, and filled on success only. -/
def SequenceReadEnd (tmo : Timeout) (s t : State) : Prop :=
  (∃ bytes e, bytes.length ≤ 256 ∧ Running { busPrologue tmo s with buf := [] } e ∧
    t = complete [] { e with buf := Memory.writeRun [] 0 bytes }) ∨
  Stopped { busPrologue tmo s with buf := [] } t

theorem BusEnd.of_ended {tmo : Timeout} {s t : State} {count : Nat} (hc : count ≤ 1)
    (h : Ended count (busPrologue tmo s) t) : BusEnd tmo s t := .inr ⟨count, hc, h⟩

/-- A no-op with OK (R77). -/
theorem BusEnd.noop (tmo : Timeout) (s : State) : BusEnd tmo s (complete [] (busPrologue tmo s)) :=
  .of_ended (Nat.zero_le 1) (.inl ⟨[], _, rfl, busPrologue_running tmo s, rfl⟩)

/-- A sequence read of 1 to 256 bytes. -/
theorem readIntoBuffer_end (dev reg : Byte) (n : Nat) (inc : Bool) {unit : Nat} (hu : unit = 1 ∨ unit = 2) (hn : n ≤ 256)
    (tmo : Timeout) (s : State) : SequenceReadEnd tmo s (readIntoBuffer dev reg n inc unit (busPrologue tmo s)) := by
  have hr : Running { busPrologue tmo s with buf := [] } { busPrologue tmo s with buf := [] } :=
    ⟨Kept.refl _, (busPrologue_running tmo s).2⟩
  rcases readIntoBuffer_cases dev reg n inc hu hr with ⟨bytes, e, hl, he, -, ht⟩ | h
  · exact .inl ⟨bytes, e, by omega, he, ht⟩
  · exact .inr h

/-- Every bus command ends in one of these ways. -/
theorem exec_bus {i : Instr} {tmo : Timeout} (hi : timeoutOf i = some tmo) (s : State) :
    ∃ t, exec i s = .next t ∧ (BusEnd tmo s t ∨ (SequenceReadEnd tmo s t ∧
      ∃ dev reg len inc, i = .rdbytes dev reg len inc tmo ∨ i = .rdwords dev reg len inc tmo)) := by
  have h0 := busPrologue_running tmo s
  cases i <;> simp only [timeoutOf, Option.some.injEq, reduceCtorEq] at hi <;> subst hi <;> refine ⟨_, rfl, ?_⟩ <;>
    try dsimp only
  case rdbit => split; exact .inl (.of_ended (Nat.le_refl 1) (readByteWith_ended _ _ _ h0)); exact .inl (.inl rfl)
  case rdbitw => split; exact .inl (.of_ended (Nat.le_refl 1) (readWordWith_ended _ _ _ h0)); exact .inl (.inl rfl)
  case rdbits => split; exact .inl (.of_ended (Nat.le_refl 1) (readByteWith_ended _ _ _ h0)); exact .inl (.inl rfl)
  case rdbitsw => split; exact .inl (.of_ended (Nat.le_refl 1) (readWordWith_ended _ _ _ h0)); exact .inl (.inl rfl)
  case rdbyte => exact .inl (.of_ended (Nat.le_refl 1) (readByteWith_ended _ _ _ h0))
  case rdword => exact .inl (.of_ended (Nat.le_refl 1) (readWordWith_ended _ _ _ h0))
  case rdbytes dev reg len inc _ =>
    split
    · exact .inl (.noop _ s)
    · exact .inr ⟨readIntoBuffer_end dev reg _ inc (.inl rfl) (by have := len.isLt; omega) _ s, dev, reg, len, inc, .inl rfl⟩
  case rdwords dev reg len inc _ =>
    split
    · exact .inl (.noop _ s)
    · split
      · exact .inl (.inl rfl)
      · exact .inr ⟨readIntoBuffer_end dev reg _ inc (.inr rfl) (by simp only [wordBytes]; omega) _ s,
          dev, reg, len, inc, .inr rfl⟩
  case wrbit => split; exact .inl (.of_ended (Nat.zero_le 1) (modifyByte_ended _ _ _ h0)); exact .inl (.inl rfl)
  case wrbitw => split; exact .inl (.of_ended (Nat.zero_le 1) (modifyWord_ended _ _ _ h0)); exact .inl (.inl rfl)
  case wrbits => split; exact .inl (.of_ended (Nat.zero_le 1) (modifyByte_ended _ _ _ h0)); exact .inl (.inl rfl)
  case wrbitsw => split; exact .inl (.of_ended (Nat.zero_le 1) (modifyWord_ended _ _ _ h0)); exact .inl (.inl rfl)
  case wrbyte _ _ _ tmo =>
    have : 3 ≤ (busPrologue tmo s).cfg.busCap := s.cfg.busCap_ge
    exact .inl (.of_ended (Nat.zero_le 1) (writeBytes_ended _ _ _ h0 (by simp only [List.length_cons, List.length_nil]; omega)))
  case wrword _ _ _ tmo =>
    have : 3 ≤ (busPrologue tmo s).cfg.busCap := s.cfg.busCap_ge
    exact .inl (.of_ended (Nat.zero_le 1) (writeBytes_ended _ _ _ h0 (by simp only [List.length_cons, List.length_nil]; omega)))
  case wrbytes =>
    split
    · exact .inl (.noop _ s)
    · rcases writeFromBuffer_ended _ _ _ h0 with h | h
      · exact .inl (.inl h)
      · exact .inl (.of_ended (Nat.zero_le 1) h)
  case wrwords =>
    split
    · exact .inl (.noop _ s)
    · rcases writeFromBuffer_ended _ _ _ h0 with h | h
      · exact .inl (.inl h)
      · exact .inl (.of_ended (Nat.zero_le 1) h)

/-- How a decode command other than `DLINACC lp` can end (R140, R219): failed, or completed with at most four words. -/
def DecodeEnd (s t : State) : Prop :=
  (∃ f, t = raise f s) ∨ ∃ values, values.length ≤ 4 ∧ t = complete values s

/-- A property of every failure and of what the command does with a frame holds of a decode command. -/
theorem decodeFrame_induct {P : State → Prop} (need : List Channel) (k : Frame → State → State) (s : State)
    (hf : ∀ f, P (raise f s)) (h : ∀ fr, P (k fr s)) : P (decodeFrame need k s) := by
  rcases decodeFrame_cases need k s with ⟨bytes, -, -, e⟩ | ⟨-, -, e⟩ | ⟨-, e⟩ <;> rw [e]
  · exact h _
  · exact hf _
  · exact hf _

/-- The same past the degenerate test. -/
theorem withQuat_induct {P : State → Prop} (fr : Frame) (k : RawQuat → State → State) (s : State)
    (hf : ∀ f, P (raise f s)) (h : ∀ q, P (k q s)) : P (withQuat fr k s) := by
  rcases withQuat_cases fr k s with ⟨-, e⟩ | ⟨-, e⟩ <;> rw [e]
  · exact hf _
  · exact h _

theorem decodeFrame_end (need : List Channel) (k : Frame → State → State) (s : State) (h : ∀ fr, DecodeEnd s (k fr s)) :
    DecodeEnd s (decodeFrame need k s) :=
  decodeFrame_induct (P := DecodeEnd s) need k s (fun f => .inl ⟨f, rfl⟩) h

theorem withQuat_end (fr : Frame) (k : RawQuat → State → State) (s : State) (h : ∀ q, DecodeEnd s (k q s)) :
    DecodeEnd s (withQuat fr k s) :=
  withQuat_induct (P := DecodeEnd s) fr k s (fun f => .inl ⟨f, rfl⟩) h

/-- Every decode command but `DLINACC lp` ends in one of these ways. -/
theorem exec_decode {i : Instr} {need : List Nat} (hi : channelsOf i = some need) (hl : i ≠ .dlinacc true) (s : State) :
    ∃ t, exec i s = .next t ∧ DecodeEnd s t := by
  cases i <;> simp only [channelsOf, reduceCtorEq] at hi
  case dlinacc lp =>
    cases lp
    · refine ⟨_, rfl, decodeFrame_end _ _ _ fun fr => withQuat_end _ _ _ fun q => .inr ⟨_, ?_, rfl⟩⟩
      simp [rndWords, Vec3.toList]
    · exact absurd rfl hl
  case dq16 => exact ⟨_, rfl, decodeFrame_end _ _ _ fun fr => .inr ⟨_, by simp, rfl⟩⟩
  case dq32 => exact ⟨_, rfl, decodeFrame_end _ _ _ fun fr => .inr ⟨_, by simp, rfl⟩⟩
  case dgyro => exact ⟨_, rfl, decodeFrame_end _ _ _ fun fr => .inr ⟨_, by simp [intWords, Vec3.toList], rfl⟩⟩
  case dacc => exact ⟨_, rfl, decodeFrame_end _ _ _ fun fr => .inr ⟨_, by simp [intWords, Vec3.toList], rfl⟩⟩
  case dmag => exact ⟨_, rfl, decodeFrame_end _ _ _ fun fr => .inr ⟨_, by simp [intWords, Vec3.toList], rfl⟩⟩
  case dgyrof => exact ⟨_, rfl, decodeFrame_end _ _ _ fun fr => .inr ⟨_, by simp [floatWords, rndWords, Vec3.toList], rfl⟩⟩
  case daccf => exact ⟨_, rfl, decodeFrame_end _ _ _ fun fr => .inr ⟨_, by simp [floatWords, rndWords, Vec3.toList], rfl⟩⟩
  case dmagf => exact ⟨_, rfl, decodeFrame_end _ _ _ fun fr => .inr ⟨_, by simp [floatWords, rndWords, Vec3.toList], rfl⟩⟩
  case dqf => exact ⟨_, rfl, decodeFrame_end _ _ _ fun fr => withQuat_end _ _ _ fun q => .inr ⟨_, by simp, rfl⟩⟩
  case dgrav =>
    exact ⟨_, rfl, decodeFrame_end _ _ _ fun fr => withQuat_end _ _ _ fun q =>
      .inr ⟨_, by simp [rndWords, Vec3.toList], rfl⟩⟩
  case deuler =>
    exact ⟨_, rfl, decodeFrame_end _ _ _ fun fr => withQuat_end _ _ _ fun q => .inr ⟨_, by simp [Vec3.toList], rfl⟩⟩
  case dypr =>
    exact ⟨_, rfl, decodeFrame_end _ _ _ fun fr => withQuat_end _ _ _ fun q => .inr ⟨_, by simp [Vec3.toList], rfl⟩⟩

/-- How `DLINACC lp` can end (R175): failed, or completed with the three words that become P. -/
def FilterEnd (s t : State) : Prop :=
  (∃ f, t = raise f s) ∨ ∃ r : Vec3 Word, t = complete r.toList { s with prev := r, pv := true }

theorem exec_dlinacc_lp (s : State) : ∃ t, exec (.dlinacc true) s = .next t ∧ FilterEnd s t :=
  ⟨_, rfl, decodeFrame_induct (P := FilterEnd s) _ _ s (fun f => .inl ⟨f, rfl⟩) fun fr =>
    withQuat_induct (P := FilterEnd s) fr _ s (fun f => .inl ⟨f, rfl⟩) fun _ => .inr ⟨_, rfl⟩⟩

end Sys2Proof.Machine
end

