-- ==== Sys2Proof/Laws/Numerics.lean ====
section
/-! SUPPORT. No value this block computes rounds to a NaN or an infinity (R176 P2), whatever the numerics. -/

namespace Sys2Proof.Machine

/-- The bit-by-bit root stays below the next power of two. -/
theorem sqrtBits_lt (A B : Nat) : ∀ bits m, sqrtBits A B bits m < m + 2 ^ bits
  | 0, m => by simp [sqrtBits]
  | bits + 1, m => by
    have h1 := sqrtBits_lt A B bits (m + 2 ^ bits)
    have h2 := sqrtBits_lt A B bits m
    simp only [sqrtBits]
    have := pow_succ 2 bits
    split <;> omega

/-- A ratio of at most 2^`k` has a logarithm of at most k. -/
theorem log2Ratio_le {p q k : Nat} (hp : p ≠ 0) (h : p ≤ q * 2 ^ k) : log2Ratio p q ≤ k := by
  have hq : q ≠ 0 := by rintro rfl; simp at h; exact hp h
  have hlog : Nat.log2 p < Nat.log2 q + 1 + k :=
    (Nat.log2_lt hp).2 (lt_of_le_of_lt h (by
      rw [pow_add]
      exact Nat.mul_lt_mul_of_pos_right Nat.lt_log2_self (by positivity)))
  simp only [log2Ratio]
  split <;> omega

/-- A magnitude whose square is at most 2^34 has a finite pattern. -/
theorem binary32Magnitude_lt {p q : Nat} (hp : p ≠ 0) (h : p ≤ q * 2 ^ 34) : binary32Magnitude p q < 255 * 2 ^ 23 := by
  have he := log2Ratio_le hp h
  have hm := sqrtBits_lt (p * 4 ^ (23 - max (log2Ratio p q / 2) (-126)).toNat)
    (q * 4 ^ (-(23 - max (log2Ratio p q / 2) (-126))).toNat) 25 0
  refine lt_of_le_of_lt (min_le_left _ _) ?_
  have hexp : (max (log2Ratio p q / 2) (-126) + 126).toNat ≤ 143 := by omega
  have := Nat.mul_le_mul_right (2 ^ 23) hexp
  split
  · omega
  · split <;> omega

/-- The exponent field of a pattern without sign bit. -/
theorem exponent_ofNat {n : Nat} (h : n < 2 ^ 31) : ((BitVec.ofNat 32 n).extractLsb' 23 8).toNat = n / 2 ^ 23 := by
  rw [BitVec.extractLsb'_toNat, BitVec.toNat_ofNat, Nat.shiftRight_eq_div_pow, Nat.mod_eq_of_lt (by omega), Nat.mod_eq_of_lt]
  omega

/-- The sign bit does not reach the exponent field. -/
theorem exponent_or_sign (w : Word) : (w ||| 0x80000000).extractLsb' 23 8 = w.extractLsb' 23 8 := by
  have h : (0x80000000 : Word).extractLsb' 23 8 = 0#8 := by decide
  rw [BitVec.extractLsb'_or, h]
  exact BitVec.or_zero

/-- A rational of at most `k`, as its numerator and denominator. -/
theorem num_toNat_le {x : Rat} {k : Nat} (h : x ≤ k) : x.num.toNat ≤ x.den * k := by
  have h1 : (x.num : Rat) ≤ (x.den * k : Nat) := by
    rw [← Rat.mul_den_eq_num x, Nat.cast_mul, mul_comm]
    exact mul_le_mul_of_nonneg_left h (by positivity)
  have h2 : x.num ≤ (x.den * k : Nat) := by exact_mod_cast h1
  omega

/-- P2 in the suggested binary32. -/
theorem binary32Rnd_isNumber (x : ExactReal) (h : x.square ≤ 2 ^ 34) : binary32IsNumber (binary32Rnd x) = true := by
  simp only [binary32Rnd, binary32IsNumber, bne_iff_ne]
  split
  · decide
  · rename_i hp
    have hlt := binary32Magnitude_lt hp (num_toNat_le (k := 2 ^ 34) (by exact_mod_cast h))
    have he := exponent_ofNat (n := binary32Magnitude x.square.num.toNat x.square.den) (by omega)
    split
    · rw [exponent_or_sign, he]; omega
    · rw [he]; omega

/-- P2, whatever the numerics. -/
theorem numericsOf_rnd_isNumber (c : NumericsChoice) (x : ExactReal) (h : x.square ≤ 2 ^ 34) :
    (numericsOf c).isNumber ((numericsOf c).rnd x) = true := by
  cases c with
  | binary32 => exact binary32Rnd_isNumber x h
  | other which => exact (Config.otherNumerics which).rnd_isNumber x h

/-- An angle is below 4 in magnitude (R161). -/
theorem angleReal_square_lt (a : Angle) : (angleReal a).square < 16 := by
  simp only [angleReal]
  have h : a.num % (16 * (a.den + 1)) < 16 * (a.den + 1) := Nat.mod_lt _ (by omega)
  rw [div_lt_iff₀ (by positivity)]
  exact_mod_cast h

/-- P2 for the angle commands (R170, R171). -/
theorem rndAngle_isNumber (c : NumericsChoice) (a : Angle) : (numericsOf c).isNumber (rndAngle c a) = true :=
  numericsOf_rnd_isNumber c _ ((angleReal_square_lt a).le.trans (by norm_num))

end Sys2Proof.Machine
end

