-- ==== Sys2Proof/Laws/PerInstr.lean ====
section
/-! SUPPORT. One fact about the encoding of every command, constructor by constructor: its opcode is in the table R74, its reserved
flag bits are 0 (R72), and the bits it does not use are 0 (R71, R80). -/

namespace Sys2Proof.Laws.EncodedOpcode

open Sys2Proof Sys2Proof.Machine

/-- The encoding of a command has an opcode of the table, no reserved flag bit, and 0 in every bit the command does not use. -/
def Statement (i : Instr) : Prop :=
  (fieldsOf (encode i)).op.toNat ∈ opcodeList ∧ (fieldsOf (encode i)).flags >>> 3 = 0 ∧
    encode i &&& usedBits i = encode i

/-- The meet of two assembled words is assembled from the meets of their fields. -/
theorem wordOf_and (f g : Fields) :
    wordOf f &&& wordOf g =
      wordOf
        { op := f.op &&& g.op
          dev := f.dev &&& g.dev
          reg := f.reg &&& g.reg
          start := f.start &&& g.start
          len := f.len &&& g.len
          flags := f.flags &&& g.flags
          tmo := f.tmo &&& g.tmo
          data := f.data &&& g.data } := by
  apply BitVec.eq_of_getLsbD_eq
  intro i hi
  simp only [wordOf, BitVec.getLsbD_and, BitVec.getLsbD_append]
  repeat' split
  all_goals rfl

theorem and_ff (b : Byte) : b &&& 0xFF = b := BitVec.and_allOnes

theorem and_ffff (h : HalfWord) : h &&& 0xFFFF = h := BitVec.and_allOnes

/-- A bus command's word: its parts. -/
theorem bus {op dev reg : Byte} {tmo : Timeout} {start len : Byte} {inc : Bool} {data : HalfWord} {useStart useLen useAi : Bool}
    {mask : HalfWord} (hop : op.toNat ∈ opcodeList) (hs : useStart = true ∨ start = 0) (hl : useLen = true ∨ len = 0)
    (ha : useAi = true ∨ inc = false) (hd : data &&& mask = data) :
    (fieldsOf (busWord op dev reg tmo start len inc data)).op.toNat ∈ opcodeList ∧
      (fieldsOf (busWord op dev reg tmo start len inc data)).flags >>> 3 = 0 ∧
      busWord op dev reg tmo start len inc data &&& busMask tmo useStart useLen useAi mask =
        busWord op dev reg tmo start len inc data := by
  refine ⟨by simpa only [busWord, fieldsOf_wordOf] using hop, ?_, ?_⟩
  · simp only [busWord, fieldsOf_wordOf]
    cases tmo <;> cases inc <;> simp [busFlags]
  · have h1 : start &&& (if useStart then 0xFF else 0) = start := by
      rcases hs with rfl | rfl
      · simpa using and_ff start
      · cases useStart <;> rfl
    have h2 : len &&& (if useLen then 0xFF else 0) = len := by
      rcases hl with rfl | rfl
      · simpa using and_ff len
      · cases useLen <;> rfl
    have h3 : busFlags tmo inc &&& (if useAi then 3 else 1) = busFlags tmo inc := by
      rcases ha with rfl | rfl
      · cases tmo <;> cases inc <;> simp [busFlags]
      · cases tmo <;> cases useAi <;> simp [busFlags]
    simp only [busWord, busMask, wordOf_and, and_ff, h1, h2, h3, hd]
    cases tmo with
    | default => rfl
    | ms v => simp only [tmoField, and_ffff]

/-- The word of another command: its parts. -/
theorem plain {op reg flags : Byte} {data : HalfWord} {useReg useLp : Bool} {mask : HalfWord} (hop : op.toNat ∈ opcodeList)
    (hr : useReg = true ∨ reg = 0) (hf : flags &&& (if useLp then 4 else 0) = flags) (hd : data &&& mask = data) :
    (fieldsOf (plainWord op reg flags data)).op.toNat ∈ opcodeList ∧
      (fieldsOf (plainWord op reg flags data)).flags >>> 3 = 0 ∧
      plainWord op reg flags data &&& plainMask useReg useLp mask = plainWord op reg flags data := by
  refine ⟨by simpa only [plainWord, fieldsOf_wordOf] using hop, ?_, ?_⟩
  · simp only [plainWord, fieldsOf_wordOf]
    rw [← hf]
    cases useLp
    · simp
    · apply BitVec.eq_of_getLsbD_eq
      intro k hk
      simp only [BitVec.getLsbD_ushiftRight, BitVec.getLsbD_and, if_true]
      interval_cases k <;> simp
  · have h1 : reg &&& (if useReg then 0xFF else 0) = reg := by
      rcases hr with rfl | rfl
      · simpa using and_ff reg
      · cases useReg <;> rfl
    simp only [plainWord, plainMask, wordOf_and, and_ff, h1, hf, hd]
    rfl

/-- The DATA of a single-bit write uses bit 0 only (R73). -/
theorem bitData_and (bit : Bool) : bitData bit &&& 1 = bitData bit := by cases bit <;> rfl

/-- The DATA of a byte write uses bits 7:0 only (R73). -/
theorem byteData_and (b : Byte) : b.setWidth 16 &&& 0xFF = b.setWidth 16 := by
  apply BitVec.eq_of_getLsbD_eq
  intro k hk
  simp only [BitVec.getLsbD_and, BitVec.getLsbD_setWidth]
  by_cases h : k < 8
  · interval_cases k <;> simp
  · simp [BitVec.getLsbD_of_ge b k (by omega)]

theorem rdbit (dev reg start : Byte) (tmo : Timeout) : Statement (.rdbit dev reg start tmo) :=
  bus (by decide) (.inl rfl) (.inr rfl) (.inr rfl) rfl

theorem rdbitw (dev reg start : Byte) (tmo : Timeout) : Statement (.rdbitw dev reg start tmo) :=
  bus (by decide) (.inl rfl) (.inr rfl) (.inr rfl) rfl

theorem rdbits (dev reg start len : Byte) (tmo : Timeout) : Statement (.rdbits dev reg start len tmo) :=
  bus (by decide) (.inl rfl) (.inl rfl) (.inr rfl) rfl

theorem rdbitsw (dev reg start len : Byte) (tmo : Timeout) : Statement (.rdbitsw dev reg start len tmo) :=
  bus (by decide) (.inl rfl) (.inl rfl) (.inr rfl) rfl

theorem rdbyte (dev reg : Byte) (tmo : Timeout) : Statement (.rdbyte dev reg tmo) :=
  bus (by decide) (.inr rfl) (.inr rfl) (.inr rfl) rfl

theorem rdword (dev reg : Byte) (tmo : Timeout) : Statement (.rdword dev reg tmo) :=
  bus (by decide) (.inr rfl) (.inr rfl) (.inr rfl) rfl

theorem rdbytes (dev reg len : Byte) (inc : Bool) (tmo : Timeout) : Statement (.rdbytes dev reg len inc tmo) :=
  bus (by decide) (.inr rfl) (.inl rfl) (.inl rfl) rfl

theorem rdwords (dev reg len : Byte) (inc : Bool) (tmo : Timeout) : Statement (.rdwords dev reg len inc tmo) :=
  bus (by decide) (.inr rfl) (.inl rfl) (.inl rfl) rfl

theorem wrbit (dev reg start : Byte) (bit : Bool) (tmo : Timeout) : Statement (.wrbit dev reg start bit tmo) :=
  bus (by decide) (.inl rfl) (.inr rfl) (.inr rfl) (bitData_and bit)

theorem wrbitw (dev reg start : Byte) (bit : Bool) (tmo : Timeout) : Statement (.wrbitw dev reg start bit tmo) :=
  bus (by decide) (.inl rfl) (.inr rfl) (.inr rfl) (bitData_and bit)

theorem wrbits (dev reg start len : Byte) (data : HalfWord) (tmo : Timeout) : Statement (.wrbits dev reg start len data tmo) :=
  bus (by decide) (.inl rfl) (.inl rfl) (.inr rfl) (and_ffff data)

theorem wrbitsw (dev reg start len : Byte) (data : HalfWord) (tmo : Timeout) : Statement (.wrbitsw dev reg start len data tmo) :=
  bus (by decide) (.inl rfl) (.inl rfl) (.inr rfl) (and_ffff data)

theorem wrbyte (dev reg data : Byte) (tmo : Timeout) : Statement (.wrbyte dev reg data tmo) :=
  bus (by decide) (.inr rfl) (.inr rfl) (.inr rfl) (byteData_and data)

theorem wrword (dev reg : Byte) (data : HalfWord) (tmo : Timeout) : Statement (.wrword dev reg data tmo) :=
  bus (by decide) (.inr rfl) (.inr rfl) (.inr rfl) (and_ffff data)

theorem wrbytes (dev reg len : Byte) (tmo : Timeout) : Statement (.wrbytes dev reg len tmo) :=
  bus (by decide) (.inr rfl) (.inl rfl) (.inr rfl) rfl

theorem wrwords (dev reg len : Byte) (tmo : Timeout) : Statement (.wrwords dev reg len tmo) :=
  bus (by decide) (.inr rfl) (.inl rfl) (.inr rfl) rfl

theorem dq16 : Statement .dq16 :=
  plain (by decide) (.inr rfl) rfl rfl

theorem dq32 : Statement .dq32 :=
  plain (by decide) (.inr rfl) rfl rfl

theorem dgyro : Statement .dgyro :=
  plain (by decide) (.inr rfl) rfl rfl

theorem dacc : Statement .dacc :=
  plain (by decide) (.inr rfl) rfl rfl

theorem dmag : Statement .dmag :=
  plain (by decide) (.inr rfl) rfl rfl

theorem dqf : Statement .dqf :=
  plain (by decide) (.inr rfl) rfl rfl

theorem dgyrof : Statement .dgyrof :=
  plain (by decide) (.inr rfl) rfl rfl

theorem daccf : Statement .daccf :=
  plain (by decide) (.inr rfl) rfl rfl

theorem dmagf : Statement .dmagf :=
  plain (by decide) (.inr rfl) rfl rfl

theorem dgrav : Statement .dgrav :=
  plain (by decide) (.inr rfl) rfl rfl

theorem deuler : Statement .deuler :=
  plain (by decide) (.inr rfl) rfl rfl

theorem dypr : Statement .dypr :=
  plain (by decide) (.inr rfl) rfl rfl

theorem dlinacc (lp : Bool) : Statement (.dlinacc lp) :=
  plain (by decide) (.inr rfl) (by cases lp <;> rfl) rfl

theorem cfgrd (num : Byte) : Statement (.cfgrd num) :=
  plain (by decide) (.inl rfl) rfl rfl

theorem cfgwr (num : Byte) (data : HalfWord) : Statement (.cfgwr num data) :=
  plain (by decide) (.inl rfl) rfl (and_ffff data)

theorem bufrd (idx : Byte) : Statement (.bufrd idx) :=
  plain (by decide) (.inl rfl) rfl rfl

theorem bufwr (idx data : Byte) : Statement (.bufwr idx data) :=
  plain (by decide) (.inl rfl) rfl (byteData_and data)

theorem larst : Statement .larst :=
  plain (by decide) (.inr rfl) rfl rfl

end Sys2Proof.Laws.EncodedOpcode
end

