-- ==== Sys2Proof/Machine/Pseudo.lean ====
section
/-! DEFINITION. The pseudo-instructions of the assembler (R81), each one core command. -/

namespace Sys2Proof.Machine

/-- A pseudo-instruction (R81). -/
inductive Pseudo where
  /-- `SETBIT dev, reg, bit`. -/
  | setbit (dev reg bit : Byte) (tmo : Timeout)
  /-- `CLRBIT dev, reg, bit`. -/
  | clrbit (dev reg bit : Byte) (tmo : Timeout)
  /-- `SETBITW dev, reg, bit`. -/
  | setbitw (dev reg bit : Byte) (tmo : Timeout)
  /-- `CLRBITW dev, reg, bit`. -/
  | clrbitw (dev reg bit : Byte) (tmo : Timeout)
  /-- `RDFRAME dev, reg`. -/
  | rdframe (dev reg : Byte) (tmo : Timeout)
  /-- `CHANNELS m`. -/
  | channels (m : HalfWord)
  /-- `CLRERR`. -/
  | clrerr
deriving DecidableEq, Repr

/-- The expansion of a pseudo-instruction (R81). -/
def expandPseudo : Pseudo → Instr
  | .setbit dev reg bit tmo => .wrbit dev reg bit true tmo
  | .clrbit dev reg bit tmo => .wrbit dev reg bit false tmo
  | .setbitw dev reg bit tmo => .wrbitw dev reg bit true tmo
  | .clrbitw dev reg bit tmo => .wrbitw dev reg bit false tmo
  | .rdframe dev reg tmo => .rdbytes dev reg 48 false tmo
  | .channels m => .cfgwr 0x02 m
  | .clrerr => .cfgwr 0x00 0x007E

end Sys2Proof.Machine
end

