-- ==== Sys2Proof/Tests/Slice0.lean ====
section
/-! SUPPORT. The model's own tests: what the well-formedness checks refuse, decoding of words written out from the encoding tables,
single steps with the results the spec prints (vectors V<n> of spec/95_test_vectors.md and spec/96_test_vectors_decode.md), and for each
statement with hypotheses a concrete state and operands that meet them. -/

namespace Sys2Proof.Tests

open Sys2Proof Sys2Proof.Machine

/-! ## Fixtures: the conventions of spec/95_test_vectors.md, section 0 -/

/-- The parameters the vectors assume, but for BUS_CAP. -/
def params (cap : Nat) (h : 3 ≤ cap := by decide) (h' : cap ≤ 256 := by decide) : Params :=
  { busCap := cap, busCap_ge := h, busCap_le := h', defaultTimeoutMs := 100, qepsSqRaw := 2 ^ 28, numerics := .binary32 }

/-- Reset, with BUS_CAP = 32. -/
def fresh : State := State.atReset (params 32)

/-- The bus side answers with these draws. -/
def answering (draws : List CallEvent) (s : State) : State := { s with bus := .scripted draws }

/-- An address or data write that passes in 0 ms. -/
def pass : CallEvent := .answered 0 (.ack [])

/-- A read that delivers these bytes in 0 ms. -/
def gives (bytes : List Byte) : CallEvent := .answered 0 (.ack bytes)

/-- DB holds these bytes from index 0, and CHEN is as given. -/
def holding (chen : BitVec 4) (bytes : List Byte) : State :=
  { fresh with chen := chen, buf := Memory.writeRun [] 0 bytes }

/-- The response of the step that takes the command word `w` in `s`, as bytes; `none` when there is none. -/
def reply (w : CommandWord) (s : State) : Option (List Byte) :=
  match step { s with port := [w] } with
  | .next t => t.out.head?.map responseBytes
  | _ => none

/-- The driver calls of that step, in order. -/
def trace (w : CommandWord) (s : State) : List BusCall :=
  match step { s with port := [w] } with
  | .next t => t.calls.reverse
  | _ => []

/-- A field of the state after that step. -/
def after {α : Type} (w : CommandWord) (s : State) (f : State → α) : Option α :=
  match step { s with port := [w] } with
  | .next t => some (f t)
  | _ => none

/-- The groups Q, G, M, A of spec/96_test_vectors_decode.md, section 2.G. -/
def groupQ : List Byte := [0x18, 0, 0, 0, 0x20, 0, 0, 0, 0, 0, 0, 0, 0, 0, 0, 0]

/-- See `groupQ`. -/
def groupG : List Byte := [0x00, 0x01, 0xFF, 0xFF, 0x80, 0x00, 0xAA, 0x55]

/-- See `groupQ`. -/
def groupM : List Byte := [0x01, 0x2C, 0xFE, 0xD4, 0x00, 0x00, 0x12, 0x34]

/-- See `groupQ`. -/
def groupA : List Byte :=
  [0x00, 0x64, 0xDE, 0xAD, 0x1F, 0x40, 0xBE, 0xEF, 0xF8, 0x30, 0xCA, 0xFE, 0x11, 0x22, 0x33, 0x44]

/-- The canonical frame F1. -/
def frameF1 : List Byte := groupQ ++ groupG ++ groupM ++ groupA

/-- The state of most decode vectors: CHEN = 0xF, DB = F1. -/
def decoding : State := holding 0xF frameF1

/-- A quaternion alone: CHEN = 0b0001, the four raw components as printed. -/
def quatOnly (bytes : List Byte) : State := holding 1 bytes

/-! ## Well-formedness: each check refuses an ill-formed command -/

theorem test_wf_rdbit : (Instr.rdbit 0x68 0x10 8 .default).wellFormed = false := by decide
theorem test_wf_rdbitw : (Instr.rdbitw 0x68 0x10 16 .default).wellFormed = false := by decide
theorem test_wf_rdbits_start : (Instr.rdbits 0x68 0x10 8 2 .default).wellFormed = false := by decide
theorem test_wf_rdbits_len_zero : (Instr.rdbits 0x68 0x10 3 0 .default).wellFormed = false := by decide
theorem test_wf_rdbits_past_bit_zero : (Instr.rdbits 0x68 0x10 2 4 .default).wellFormed = false := by decide
theorem test_wf_rdbits_len_width : (Instr.rdbits 0x68 0x10 7 9 .default).wellFormed = false := by decide
theorem test_wf_rdbitsw : (Instr.rdbitsw 0x68 0x10 15 17 .default).wellFormed = false := by decide
theorem test_wf_rdwords : (Instr.rdwords 0x68 0x10 129 false .default).wellFormed = false := by decide
theorem test_wf_wrbit : (Instr.wrbit 0x68 0x10 8 true .default).wellFormed = false := by decide
theorem test_wf_wrbitw : (Instr.wrbitw 0x68 0x10 16 true .default).wellFormed = false := by decide
theorem test_wf_wrbits : (Instr.wrbits 0x68 0x10 2 4 1 .default).wellFormed = false := by decide
theorem test_wf_wrbitsw : (Instr.wrbitsw 0x68 0x10 7 9 1 .default).wellFormed = false := by decide
theorem test_wf_wrwords : (Instr.wrwords 0x68 0x10 128 .default).wellFormed = false := by decide
theorem test_wf_cfgrd : (Instr.cfgrd 7).wellFormed = false := by decide
theorem test_wf_cfgwr_readonly : (Instr.cfgwr 5 48).wellFormed = false := by decide
theorem test_wf_cfgwr_estk_bit0 : (Instr.cfgwr 0 1).wellFormed = false := by decide
theorem test_wf_cfgwr_estk_high : (Instr.cfgwr 0 0x80).wellFormed = false := by decide
theorem test_wf_cfgwr_chen : (Instr.cfgwr 2 0x10).wellFormed = false := by decide

/-! ## Decoding: one word of every command, written out from the field table (OP DEV REG START LEN FLAGS TMO DATA) -/

theorem test_decode_rdbit : decodeWord 0x10681005000000640000 = .ok (.rdbit 0x68 0x10 5 (.ms 100)) := rfl
theorem test_decode_rdbitw : decodeWord 0x1168120F000100000000 = .ok (.rdbitw 0x68 0x12 15 .default) := rfl
theorem test_decode_rdbits : decodeWord 0x12681105030100000000 = .ok (.rdbits 0x68 0x11 5 3 .default) := rfl
theorem test_decode_rdbitsw : decodeWord 0x1368140B080100000000 = .ok (.rdbitsw 0x68 0x14 11 8 .default) := rfl
theorem test_decode_rdbyte : decodeWord 0x146816000000000A0000 = .ok (.rdbyte 0x68 0x16 (.ms 10)) := rfl
theorem test_decode_rdword : decodeWord 0x15681700000000000000 = .ok (.rdword 0x68 0x17 (.ms 0)) := rfl
theorem test_decode_rdbytes : decodeWord 0x16687400300300000000 = .ok (.rdbytes 0x68 0x74 48 true .default) := rfl
theorem test_decode_rdwords : decodeWord 0x1768100003020032FFFF = .ok (.rdwords 0x68 0x10 3 true (.ms 50)) := rfl
theorem test_decode_wrbit : decodeWord 0x20683001000100000001 = .ok (.wrbit 0x68 0x30 1 true .default) := rfl
theorem test_decode_wrbit_data : decodeWord 0x20683000000100000002 = .ok (.wrbit 0x68 0x30 0 false .default) := rfl
theorem test_decode_wrbitw : decodeWord 0x21683209000100000001 = .ok (.wrbitw 0x68 0x32 9 true .default) := rfl
theorem test_decode_wrbits : decodeWord 0x2268200304010000001F = .ok (.wrbits 0x68 0x20 3 4 0x1F .default) := rfl
theorem test_decode_wrbitsw : decodeWord 0x2368200B0800000F00FF = .ok (.wrbitsw 0x68 0x20 11 8 0xFF (.ms 15)) := rfl
theorem test_decode_wrbyte : decodeWord 0x246834000001000001FE = .ok (.wrbyte 0x68 0x34 0xFE .default) := rfl
theorem test_decode_wrword : decodeWord 0x2568360000010000BEEF = .ok (.wrword 0x68 0x36 0xBEEF .default) := rfl
theorem test_decode_wrbytes : decodeWord 0x26682000030100000000 = .ok (.wrbytes 0x68 0x20 3 .default) := rfl
theorem test_decode_wrwords : decodeWord 0x27683000020100000000 = .ok (.wrwords 0x68 0x30 2 .default) := rfl
theorem test_decode_dq16 : decodeWord 0x40000000000000000000 = .ok .dq16 := rfl
theorem test_decode_dq32 : decodeWord 0x41000000000000000000 = .ok .dq32 := rfl
theorem test_decode_dgyro : decodeWord 0x42000000000000000000 = .ok .dgyro := rfl
theorem test_decode_dacc : decodeWord 0x43000000000000000000 = .ok .dacc := rfl
theorem test_decode_dmag : decodeWord 0x44000000000000000000 = .ok .dmag := rfl
theorem test_decode_dqf : decodeWord 0x48000000000000000000 = .ok .dqf := rfl
theorem test_decode_dgyrof : decodeWord 0x49000000000000000000 = .ok .dgyrof := rfl
theorem test_decode_daccf : decodeWord 0x4A000000000000000000 = .ok .daccf := rfl
theorem test_decode_dmagf : decodeWord 0x4B000000000000000000 = .ok .dmagf := rfl
theorem test_decode_dgrav : decodeWord 0x4C000000000000000000 = .ok .dgrav := rfl
theorem test_decode_deuler : decodeWord 0x4D000000000000000000 = .ok .deuler := rfl
theorem test_decode_dypr : decodeWord 0x4E000000000000000000 = .ok .dypr := rfl
theorem test_decode_dlinacc : decodeWord 0x4F000000000000000000 = .ok (.dlinacc false) := rfl
theorem test_decode_dlinacc_lp : decodeWord 0x4F000000000400000000 = .ok (.dlinacc true) := rfl
theorem test_decode_cfgrd : decodeWord 0x80000500000000000000 = .ok (.cfgrd 5) := rfl
theorem test_decode_cfgwr : decodeWord 0x8100010000000000FFFF = .ok (.cfgwr 1 0xFFFF) := rfl
theorem test_decode_bufrd : decodeWord 0x8200FF00000000000000 = .ok (.bufrd 0xFF) := rfl
theorem test_decode_bufwr : decodeWord 0x830000000000000001A5 = .ok (.bufwr 0 0xA5) := rfl
theorem test_decode_larst : decodeWord 0x84000000000000000000 = .ok .larst := rfl

/-- V8, V257: fields a command does not use are ignored (R71). -/
theorem test_decode_ignores_unused :
    decodeWord 0x14681BFFFF070000FFFF = .ok (.rdbyte 0x68 0x1B .default) ∧
    decodeWord 0x80AB02CDEF0712340000 = .ok (.cfgrd 2) := ⟨rfl, rfl⟩

/-- V3, V4: reserved opcodes. -/
theorem test_decode_reserved_opcode :
    decodeWord 0x18000000000000000000 = .error (.reservedOpcode 0x18) ∧
    decodeWord 0x45000000000000000000 = .error (.reservedOpcode 0x45) := ⟨rfl, rfl⟩

/-- V6, V7 and R82: reserved flag bits, tested before the opcode. -/
theorem test_decode_reserved_flags :
    decodeWord 0x14681B00000900000000 = .error (.reservedFlags 0x09) ∧
    decodeWord 0x14681B00008100000000 = .error (.reservedFlags 0x81) ∧
    decodeWord 0x00000000000800000000 = .error (.reservedFlags 0x08) := ⟨rfl, rfl, rfl⟩

/-- A byte string that is no command word. -/
theorem test_decode_wrong_length : decode [0x14, 0x68] = .error (.wrongLength 2) := rfl

/-- R70: OP travels first, DATA last. -/
theorem test_decode_bytes :
    decode [0x25, 0x68, 0x36, 0, 0, 0x01, 0, 0, 0xBE, 0xEF] = .ok (.wrword 0x68 0x36 0xBEEF .default) := rfl

/-- R80: the printed words of `WRBITS 0x68, 0x1B, 4, 2, 3, tmo=100`, `RDBYTES 0x68, 0x74, 48, tmo=50` and `DLINACC lp`. -/
theorem test_encode_examples :
    encode (.wrbits 0x68 0x1B 4 2 3 (.ms 100)) = 0x22681B04020000640003 ∧
    encode (.rdbytes 0x68 0x74 48 false (.ms 50)) = 0x16687400300000320000 ∧
    encode (.dlinacc true) = 0x4F000000000400000000 := by decide

/-- R81: `RDFRAME` is RDBYTES of 48 bytes, `CLRERR` is CFGWR ESTK, 0x7E. -/
theorem test_pseudo :
    expandPseudo (.rdframe 0x68 0x74 .default) = .rdbytes 0x68 0x74 48 false .default ∧
    expandPseudo .clrerr = .cfgwr 0 0x7E := ⟨rfl, rfl⟩

/-- The instruction of a table word, and the step that runs it first after reset. -/
theorem test_table_word :
    decodeTableWord 80 0x80000600000000000000 = some (.cfgrd 6) ∧
    reply 0x80000600000000000000 fresh = some [0x10, 0, 0, 0, 0x20] := by decide +kernel

/-! ## Bus reads -/

theorem test_rdbit_V10 :
    reply 0x10681005000100000000 (answering [pass, gives [0xA5]] fresh) = some [0x10, 0, 0, 0, 1] := by decide +kernel
theorem test_rdbit_V12 : reply 0x10681008000100000000 fresh = some [0x06] := by decide +kernel
theorem test_rdbitw_V13 :
    reply 0x1168120F000100000000 (answering [pass, gives [0x80, 0x01]] fresh) = some [0x10, 0, 0, 0, 1] := by decide +kernel
theorem test_rdbitw_V14 :
    reply 0x11681208000100000000 (answering [pass, gives [0x80, 0x01]] fresh) = some [0x10, 0, 0, 0, 0] := by decide +kernel
theorem test_rdbits_V17 :
    reply 0x12681105030100000000 (answering [pass, gives [0xAC]] fresh) = some [0x10, 0, 0, 0, 5] := by decide +kernel
theorem test_rdbits_V20 : reply 0x12681102040100000000 fresh = some [0x06] := by decide +kernel
theorem test_rdbitsw_V24 :
    reply 0x1368140B080100000000 (answering [pass, gives [0x12, 0x34]] fresh) = some [0x10, 0, 0, 0, 0x23] := by
  decide +kernel
theorem test_rdbitsw_V25 :
    reply 0x1368140F100100000000 (answering [pass, gives [0x12, 0x34]] fresh) = some [0x10, 0, 0, 0x12, 0x34] := by
  decide +kernel
theorem test_rdbyte_V30 :
    reply 0x14681600000100000000 (answering [pass, gives [0xFF]] fresh) = some [0x10, 0, 0, 0, 0xFF] := by decide +kernel

/-- V91, V92: an elapsed time equal to the timeout fails, one below it does not. -/
theorem test_rdbyte_V91_V92 :
    reply 0x146810000000000A0000 (answering [.answered 3 (.ack []), .answered 7 (.ack [0x10])] fresh) = some [0x01] ∧
    reply 0x146810000000000A0000 (answering [.answered 3 (.ack []), .answered 6 (.ack [0x10])] fresh) =
      some [0x10, 0, 0, 0, 0x10] := by decide +kernel
theorem test_rdword_V31 :
    reply 0x15681700000100000000 (answering [pass, gives [0xBE, 0xEF]] fresh) = some [0x10, 0, 0, 0xBE, 0xEF] := by
  decide +kernel
theorem test_rdword_V98 : reply 0x15681000000100000000 (answering [pass, gives [1, 2, 3]] fresh) = some [0x03] := by
  decide +kernel

/-- V70: BUS_CAP = 5, twelve bytes in chunks 5, 5, 2 with the address advancing. -/
theorem test_rdbytes_V70 :
    trace 0x166810000C0300000000
      (answering [pass, gives [1, 2, 3, 4, 5], pass, gives [6, 7, 8, 9, 10], pass, gives [11, 12]] (State.atReset (params 5))) =
      [.write 0x68 [0x10], .read 0x68 5, .write 0x68 [0x15], .read 0x68 5, .write 0x68 [0x1A], .read 0x68 2] := by decide +kernel

/-- V62: the address of the second chunk wraps modulo 256 (BUS_CAP = 32, 40 bytes from 0xF0). -/
theorem test_rdbytes_V62 :
    trace 0x1668F000280300000000
      (answering [pass, gives (List.replicate 32 0xAA), pass, gives (List.replicate 8 0xBB)] fresh) =
      [.write 0x68 [0xF0], .read 0x68 32, .write 0x68 [0x10], .read 0x68 8] := by decide +kernel

/-- V69: BUS_CAP = 5, three words in chunks of 4 and 2 bytes; DB holds exactly the six bytes. -/
theorem test_rdwords_V69 :
    after 0x17681000030300000000 (answering [pass, gives [1, 2, 3, 4], pass, gives [5, 6]] (State.atReset (params 5)))
      (fun t => (t.calls.reverse, t.buf)) =
      some ([.write 0x68 [0x10], .read 0x68 4, .write 0x68 [0x14], .read 0x68 2],
        [(0, 1), (1, 2), (2, 3), (3, 4), (4, 5), (5, 6)]) := by decide +kernel
theorem test_rdwords_V67 : reply 0x17681000810100000000 fresh = some [0x06] := by decide +kernel

/-! ## Bus writes -/

theorem test_wrbit_V43 :
    trace 0x20683001000100000001 (answering [pass, gives [0xA5], pass] fresh) =
      [.write 0x68 [0x30], .read 0x68 1, .write 0x68 [0x30, 0xA7]] := by decide +kernel
theorem test_wrbit_V45 :
    trace 0x20683000000100000002 (answering [pass, gives [0xA5], pass] fresh) =
      [.write 0x68 [0x30], .read 0x68 1, .write 0x68 [0x30, 0xA4]] := by decide +kernel
theorem test_wrbitw_V48 :
    trace 0x21683209000100000001 (answering [pass, gives [0, 0], pass] fresh) =
      [.write 0x68 [0x32], .read 0x68 2, .write 0x68 [0x32, 0x02, 0x00]] := by decide +kernel
theorem test_wrbits_V33 :
    trace 0x22682005030100000002 (answering [pass, gives [0xAC], pass] fresh) =
      [.write 0x68 [0x20], .read 0x68 1, .write 0x68 [0x20, 0x94]] := by decide +kernel

/-- V107: a failed read half issues no write-back. -/
theorem test_wrbits_V107 :
    trace 0x22682005030100000002 (answering [pass, .answered 0 .nack, pass] fresh) =
      [.write 0x68 [0x20], .read 0x68 1] := by decide +kernel
theorem test_wrbitsw_V39 :
    trace 0x2368200B0801000000FF (answering [pass, gives [0x12, 0x34], pass] fresh) =
      [.write 0x68 [0x20], .read 0x68 2, .write 0x68 [0x20, 0x1F, 0xF4]] := by decide +kernel
theorem test_wrbitsw_V42 :
    trace 0x2368200304010000FFFF (answering [pass, gives [0xA5, 0xA5], pass] fresh) =
      [.write 0x68 [0x20], .read 0x68 2, .write 0x68 [0x20, 0xA5, 0xAF]] := by decide +kernel
theorem test_wrbyte_V54 :
    trace 0x246834000001000001FF (answering [pass] fresh) = [.write 0x68 [0x34, 0xFF]] := by decide +kernel
theorem test_wrbyte_V113 :
    reply 0x24682000000100000055 (answering [.answered 0 .nack] fresh) = some [0x02] := by decide +kernel
theorem test_wrword_V55 :
    trace 0x2568360000010000BEEF (answering [pass] fresh) = [.write 0x68 [0x36, 0xBE, 0xEF]] := by decide +kernel
theorem test_wrword_V114 : reply 0x256820000000000155AA (answering [.never] fresh) = some [0x01] := by decide +kernel
theorem test_wrbytes_V77 :
    trace 0x26682000030100000000 (answering [pass] (holding 0 [0x11, 0x22, 0x33])) =
      [.write 0x68 [0x20, 0x11, 0x22, 0x33]] := by decide +kernel
theorem test_wrbytes_V78 : reply 0x26682000040100000000 (holding 0 [0x11, 0x22, 0x33]) = some [0x06] := by decide +kernel
theorem test_wrwords_V79 :
    trace 0x27683000020100000000 (answering [pass] (holding 0 [0x11, 0x22, 0x33, 0x44])) =
      [.write 0x68 [0x30, 0x11, 0x22, 0x33, 0x44]] := by decide +kernel

/-- V104: a driver call that never returns under TMOeff = 0 leaves BUSY = 1, and no further step happens. -/
theorem test_hang_V104 :
    after 0x14681000000000000000 (answering [.never] fresh) (fun t => (t.busy, t.out, t.estk, step t)) =
      some (true, [], 0, .fault .hung) := rfl

/-! ## Integer decode -/

theorem test_dq16_V147 :
    reply 0x40000000000000000000
      (quatOnly [0xFF, 0xFE, 0x80, 0x00, 0x7F, 0xFF, 0xFF, 0xFF, 0x80, 0, 0, 0, 0, 0, 0xFF, 0xFF]) =
      some [0x40, 0xFF, 0xFF, 0xFF, 0xFE, 0, 0, 0x7F, 0xFF, 0xFF, 0xFF, 0x80, 0, 0, 0, 0, 0] := by decide +kernel
theorem test_dq16_V122 : reply 0x40000000000000000000 fresh = some [0x04] := by decide +kernel
theorem test_dq32_V148 :
    reply 0x41000000000000000000
      (quatOnly [0xFF, 0xFE, 0x80, 0x00, 0x7F, 0xFF, 0xFF, 0xFF, 0x80, 0, 0, 0, 0, 0, 0xFF, 0xFF]) =
      some [0x40, 0xFF, 0xFE, 0x80, 0, 0x7F, 0xFF, 0xFF, 0xFF, 0x80, 0, 0, 0, 0, 0, 0xFF, 0xFF] := by decide +kernel
theorem test_dgyro_V127 :
    reply 0x42000000000000000000 decoding =
      some [0x30, 0, 0, 0, 1, 0xFF, 0xFF, 0xFF, 0xFF, 0xFF, 0xFF, 0x80, 0] := by decide +kernel
theorem test_dacc_V135 :
    reply 0x43000000000000000000 (holding 0xB (groupQ ++ groupG ++ groupA)) =
      some [0x30, 0, 0, 0, 0x64, 0, 0, 0x1F, 0x40, 0xFF, 0xFF, 0xF8, 0x30] := by decide +kernel
theorem test_dacc_V145 :
    reply 0x43000000000000000000 (holding 8 groupA) =
      some [0x30, 0, 0, 0, 0x64, 0, 0, 0x1F, 0x40, 0xFF, 0xFF, 0xF8, 0x30] := by decide +kernel
theorem test_dmag_V138 :
    reply 0x44000000000000000000 (holding 5 (groupQ ++ groupM)) =
      some [0x30, 0, 0, 0x01, 0x2C, 0xFF, 0xFF, 0xFE, 0xD4, 0, 0, 0, 0] := by decide +kernel
theorem test_dmag_V131 : reply 0x44000000000000000000 (holding 0xB frameF1) = some [0x04] := by decide +kernel

/-! ## Floating and derived decode -/

theorem test_dqf_V154 :
    reply 0x48000000000000000000 decoding =
      some [0x40, 0x3F, 0x19, 0x99, 0x9A, 0x3F, 0x4C, 0xCC, 0xCD, 0, 0, 0, 0, 0, 0, 0, 0] := by decide +kernel

/-- V196: (1, 2, 3, 4) / √30, four irrational components. -/
theorem test_dqf_V196 :
    reply 0x48000000000000000000
      (quatOnly [0, 0, 0x27, 0x10, 0, 0, 0x4E, 0x20, 0, 0, 0x75, 0x30, 0, 0, 0x9C, 0x40]) =
      some [0x40, 0x3E, 0x3A, 0xF4, 0xBA, 0x3E, 0xBA, 0xF4, 0xBA, 0x3F, 0x0C, 0x37, 0x8C, 0x3F, 0x3A, 0xF4, 0xBA] := by
  decide +kernel
theorem test_dgyrof_V156 :
    reply 0x49000000000000000000 decoding =
      some [0x30, 0x3F, 0x80, 0, 0, 0xBF, 0x80, 0, 0, 0xC7, 0, 0, 0] := by decide +kernel
theorem test_daccf_V158 :
    reply 0x4A000000000000000000 decoding =
      some [0x30, 0x42, 0xC8, 0, 0, 0x45, 0xFA, 0, 0, 0xC4, 0xFA, 0, 0] := by decide +kernel
theorem test_dmagf_V157 :
    reply 0x4B000000000000000000 decoding =
      some [0x30, 0x43, 0x96, 0, 0, 0xC3, 0x96, 0, 0, 0, 0, 0, 0] := by decide +kernel
theorem test_dgrav_V155 :
    reply 0x4C000000000000000000 decoding =
      some [0x30, 0, 0, 0, 0, 0x3F, 0x75, 0xC2, 0x8F, 0xBE, 0x8F, 0x5C, 0x29] := by decide +kernel
theorem test_dgrav_V193 :
    reply 0x4C000000000000000000 (quatOnly [0x40, 0, 0, 0, 0, 0, 0, 0, 0x40, 0, 0, 0, 0, 0, 0, 0]) =
      some [0x30, 0xBF, 0x80, 0, 0, 0, 0, 0, 0, 0, 0, 0, 0] := by decide +kernel

/-- V212 and, at gimbal lock, V214's status and RN. -/
theorem test_deuler_V212_V214 :
    reply 0x4D000000000000000000 (quatOnly (List.replicate 16 0)) = some [0x05] ∧
    after 0x4D000000000000000000 (quatOnly [0x40, 0, 0, 0, 0, 0, 0, 0, 0x40, 0, 0, 0, 0, 0, 0, 0])
      (fun t => (t.rn, t.busy)) = some (3, false) := by decide +kernel

/-- V213, and V215's status and RN. -/
theorem test_dypr_V213_V215 :
    reply 0x4E000000000000000000 (quatOnly (List.replicate 16 0)) = some [0x05] ∧
    after 0x4E000000000000000000 (quatOnly [0x40, 0, 0, 0, 0, 0, 0, 0, 0x40, 0, 0, 0, 0, 0, 0, 0])
      (fun t => (t.rn, t.busy)) = some (3, false) := by decide +kernel
theorem test_dlinacc_V160 :
    reply 0x4F000000000000000000 { decoding with a1g := 8192 } =
      some [0x30, 0x42, 0xC8, 0, 0, 0x43, 0x07, 0xAE, 0x14, 0x43, 0x92, 0xE1, 0x48] := by decide +kernel

/-- V162: the second filtered call, with P as V161 left it and alpha = 1/4. -/
theorem test_dlinacc_V162 :
    after 0x4F000000000400000000
      { holding 0xF (groupQ ++ groupG ++ groupM ++ [0, 0xC8, 0, 0, 0x1E, 0xB8, 0, 0, 0xF7, 0x0A, 0, 0, 0, 0, 0, 0]) with
        a1g := 8192
        lpfa := 0x4000
        pv := true
        prev := ⟨0x42C80000, 0x4307AE14, 0x4392E148⟩ } (fun t => t.prev) =
      some ⟨0x42FA0000, 0x42CB5C28, 0x435C4290⟩ := by decide +kernel

/-! ## System commands -/

theorem test_cfgrd_V227 : reply 0x80000500000000000000 { fresh with chen := 0xF } = some [0x10, 0, 0, 0, 0x30] := by
  decide +kernel
theorem test_cfgrd_V223 : reply 0x80000700000000000000 fresh = some [0x06] := by decide +kernel

/-- V245: write 1 to clear. -/
theorem test_cfgwr_V245 : after 0x81000000000000000002 { fresh with estk := 0x46 } (fun t => t.estk) = some 0x44 := by
  decide +kernel

/-- V228: out of range, refused, CHEN unchanged. -/
theorem test_cfgwr_V228 :
    after 0x81000200000000000010 { fresh with chen := 0xF } (fun t => (t.chen, t.estk)) = some (0xF, 0x40) := by
  decide +kernel
theorem test_bufrd_V253 : reply 0x82000000000000000000 (holding 0 [0xA5]) = some [0x10, 0, 0, 0, 0xA5] := by decide +kernel
theorem test_bufrd_V254 : reply 0x82000100000000000000 (holding 0 [0xA5]) = some [0x06] := by decide +kernel
theorem test_bufwr_V252 : after 0x830000000000000001A5 fresh (fun t => t.buf) = some [(0, 0xA5)] := by decide +kernel
theorem test_larst_V166 :
    after 0x84000000000000000000 { fresh with pv := true } (fun t => (t.pv, t.rn, t.estk)) = some (false, 0, 0) := by
  decide +kernel

/-! ## Witnesses: for each statement with hypotheses, a concrete state and operands that meet all of them, clause by clause -/

/-- Frame byte `a` of a list. -/
def byteFn (bytes : List Byte) (a : Nat) : Byte := bytes.getD a 0

theorem decoding_frame : frameHolds decoding (byteFn frameF1) := by unfold frameHolds; decide +kernel

/-- A quaternion that sits exactly on the threshold S = 2^28 (V174). -/
def threshold : List Byte := [0, 0, 0x40, 0] ++ List.replicate 12 0

/-- One below it (V172). -/
def belowThreshold : List Byte := [0, 0, 0x3F, 0xFF] ++ List.replicate 12 0

theorem threshold_frame : frameHolds (quatOnly threshold) (byteFn threshold) := by unfold frameHolds; decide +kernel

theorem belowThreshold_frame : frameHolds (quatOnly belowThreshold) (byteFn belowThreshold) := by
  unfold frameHolds; decide +kernel

/-- An ideal device with one register set and nothing else. -/
def device : IdealDevice := { mem := [(0x6820, 0xAC)], ptr := [], queues := [] }

/-- A reset engine with that device. -/
def onDevice : State := { fresh with bus := .ideal device }

/-- The device of vectors V95 to V121, with what a vector says of its calls. -/
def planned (plan : List FixtureAnswer) : State :=
  { fresh with bus := .ideal { mem := [(0x6820, 0xAC), (0x6821, 0x21)], ptr := [], queues := [], plan := plan } }

/-- A byte of the ideal device's memory. -/
def deviceByte (a : Nat) (s : State) : Option Byte :=
  match s.bus with
  | .ideal d => some (readOrZero d.mem a)
  | .scripted _ => none

/-- V108: a write-back answered Nack is BusNack, and the device did not take it. -/
theorem test_fixture_V108 :
    reply 0x22682005030100000002 (planned [.passes 0, .passes 0, .nack 0]) = some [0x02] ∧
    after 0x22682005030100000002 (planned [.passes 0, .passes 0, .nack 0]) (deviceByte 0x6820) = some (some 0xAC) := by
  decide +kernel

/-- V112 (14 ms of 15: the word is written) and V111 (15 ms: the write-back is abandoned, and by U3 not applied). -/
theorem test_fixture_V112_V111 :
    reply 0x2368200B0800000F00FF (planned [.passes 5, .passes 5, .passes 4]) = some [0x00] ∧
    after 0x2368200B0800000F00FF (planned [.passes 5, .passes 5, .passes 4])
      (fun s => (deviceByte 0x6820 s, deviceByte 0x6821 s)) = some (some 0xAF, some 0xF1) ∧
    reply 0x2368200B0800000F00FF (planned [.passes 5, .passes 5, .passes 5]) = some [0x01] ∧
    after 0x2368200B0800000F00FF (planned [.passes 5, .passes 5, .passes 5]) (deviceByte 0x6820) = some (some 0xAC) := by
  decide +kernel

/-- P3, steps 1 and 5, and V110: a call that never returns, the ideal device after it, and a delivery of two bytes for one. -/
theorem test_fixture_P3_V110 :
    reply 0x14682000000000010000 (planned [.never]) = some [0x01] ∧
    after 0x14682000000000010000 (planned [.never]) (reply 0x14682000000000010000) = some (some [0x10, 0, 0, 0, 0xAC]) ∧
    reply 0x20682000000100000001 (planned [.passes 0, .short 0 2]) = some [0x03] := by decide +kernel

theorem witness_DecodeKeepsExactlyTheUsedBits : ∃ i, decodeWord 0x14681BFFFF070000FFFF = .ok i := ⟨_, rfl⟩

/-- The lowest reserved flag bit, and the reserved opcodes next to the table's ends. -/
theorem witness_ReservedEncodingsAreRefused :
    fresh.resetLine = false ∧ fresh.busy = false ∧
    (0x00000000000800000000 : CommandWord).extractLsb' 35 5 ≠ 0 ∧
    ((0x18000000000000000000 : CommandWord).extractLsb' 72 8).toNat ∉ opcodeList ∧
    ((0x85000000000000000000 : CommandWord).extractLsb' 72 8).toNat ∉ opcodeList := by decide

theorem witness_StepRunsTheDecodedCommand :
    { fresh with port := [0x48000000000000000000] }.resetLine = false ∧
    { fresh with port := [0x48000000000000000000] }.busy = false ∧ decodeWord 0x48000000000000000000 = .ok .dqf :=
  ⟨rfl, rfl, rfl⟩

theorem witness_IdleStaysAndHangHolds :
    (fresh.resetLine = false ∧ fresh.busy = false ∧ fresh.port = []) ∧
    ({ fresh with busy := true }.resetLine = false ∧ { fresh with busy := true }.busy = true) := by decide

theorem witness_AssertedResetRestoresTheResetState : { fresh with resetLine := true, busy := true }.resetLine = true := rfl

/-- A state with a valid byte, a set error bit and a driver call behind it meets the invariant, and steps. -/
theorem witness_StepKeepsTheInvariant :
    { holding 0xF frameF1 with estk := 0x40, calls := [.write 0x68 [0x10]], port := [0x40000000000000000000] }.inv ∧
    ∃ t, step { holding 0xF frameF1 with
      estk := 0x40
      calls := [.write 0x68 [0x10]]
      port := [0x40000000000000000000] } = .next t :=
  ⟨by unfold State.inv; decide +kernel, _, rfl⟩

theorem witness_OneResponsePerCommand : ∃ t, exec (.cfgrd 6) fresh = .next t := ⟨_, rfl⟩

theorem witness_NoCommandOutlastsItsTimeout :
    timeoutOf (.rdbyte 0x68 0x10 .default) = some .default ∧ effectiveTimeout .default fresh.tmod ≠ 0 ∧
    ∃ t, exec (.rdbyte 0x68 0x10 .default) (answering [.never] fresh) = .next t := ⟨rfl, by decide, _, rfl⟩

/-- A completed command that is not CFGWR to ESTK while a bit is set, and one that fails. -/
theorem witness_ErrorBitsAreSticky :
    (∃ t r, exec (.cfgrd 6) { fresh with estk := 0x02 } = .next t ∧ t.out = r :: fresh.out) ∧
    (∃ t r, exec (.cfgrd 7) { fresh with estk := 0x02 } = .next t ∧ t.out = r :: fresh.out ∧
      r.status = .failed .callerContractViolation) := ⟨⟨_, _, rfl, rfl⟩, _, _, rfl, rfl, rfl⟩

/-- Commands outside each named class, so that every clause is met. -/
theorem witness_OnlyTheNamedCommandsWrite :
    (∃ t r, exec (.bufwr 0 1) fresh = .next t ∧ t.out = r :: fresh.out) ∧
    (∃ t r, exec (.cfgwr 3 1) fresh = .next t ∧ t.out = r :: fresh.out) ∧
    (∃ t r, exec .larst fresh = .next t ∧ t.out = r :: fresh.out) := ⟨⟨_, _, rfl, rfl⟩, ⟨_, _, rfl, rfl⟩, _, _, rfl, rfl⟩

/-- A command that completes, and one that fails. -/
theorem witness_ResultCountOfEveryCommand :
    (∃ t r, exec (.cfgrd 6) fresh = .next t ∧ t.out = r :: fresh.out ∧ r.status = .ok) ∧
    (∃ t r, exec (.cfgrd 7) fresh = .next t ∧ t.out = r :: fresh.out ∧ r.status ≠ .ok) :=
  ⟨⟨_, _, rfl, rfl, rfl⟩, _, _, rfl, rfl, by simp⟩

/-- Each of the four failures, met. -/
theorem witness_FailureStatusesOfEachFamily :
    (∃ t r, exec (.rdbyte 0x68 0x10 (.ms 1)) (answering [.never] fresh) = .next t ∧ t.out = r :: fresh.out ∧
      r.status = .failed .busTimeout) ∧
    (∃ t r, exec (.wrbyte 0x68 0x10 1 .default) (answering [.answered 0 .nack] fresh) = .next t ∧ t.out = r :: fresh.out ∧
      r.status = .failed .busNack) ∧
    (∃ t r, exec (.rdword 0x68 0x10 .default) (answering [pass, gives [1]] fresh) = .next t ∧ t.out = r :: fresh.out ∧
      r.status = .failed .malformedResponse) ∧
    (∃ t r, exec .dmag fresh = .next t ∧ t.out = r :: fresh.out ∧ r.status = .failed .channelNotPresent) :=
  ⟨⟨_, _, rfl, rfl, rfl⟩, ⟨_, _, rfl, rfl, rfl⟩, ⟨_, _, rfl, rfl, rfl⟩, _, _, rfl, rfl, rfl⟩

theorem witness_AtMostTwoHundredFiftySixCalls :
    ∃ t, exec (.rdbyte 0x68 0x10 .default) (answering [pass, gives [1]] fresh) = .next t := ⟨_, rfl⟩

theorem witness_CompletionAndFailure : ([1, 2, 3, 4] : List Word).length ≤ 4 := by decide

/-- The clauses of R46 at the deadline and one below it, bounded and unbounded. -/
theorem witness_DriverCallRule :
    { answering [.never] fresh with tmoeff := 1 }.bus = .scripted [.never] ∧
    { fresh with tmoeff := 10, elapsed := 3 }.tmoeff ≠ 0 ∧
    { fresh with tmoeff := 10, elapsed := 3 }.tmoeff.toNat ≤ 3 + 7 ∧ 3 + 6 < { fresh with tmoeff := 10 }.tmoeff.toNat ∧
    ([1] : List Byte).length = 1 ∧ ([] : List Byte).length ≠ 1 := by decide

/-- Just outside each legality range. -/
theorem witness_IllFormedCommandsAreRefused :
    (Instr.rdbits 0x68 0x10 6 8 .default).wellFormed = false ∧ (Instr.rdwords 0x68 0x10 129 false .default).wellFormed = false ∧
    (Instr.cfgwr 2 0x10).wellFormed = false := by decide

/-- The longest response. -/
theorem witness_ResponseFormat : (⟨.ok, [1, 2, 3, 4], 0⟩ : Response).words.length ≤ 4 := by decide

/-- The full width of a byte, and one bit. -/
theorem witness_FieldStatements :
    (7 < 8 ∧ 1 ≤ 8 ∧ 8 ≤ 7 + 1 ∧ 8 = 8 ∧ 7 = 8 - 1) ∧ (0 < 16 ∧ 1 ≤ 1 ∧ 1 ≤ 0 + 1) := by decide

/-- The highest legal bit numbers, under the longest total time the default timeout allows. -/
theorem witness_ReadBitReturnsTheBit :
    inTime .default fresh (40 + 59) ∧ (7 : Byte).toNat ≤ 7 ∧ (15 : Byte).toNat ≤ 15 ∧
    (answering [.answered 40 (.ack []), .answered 59 (.ack [0x80])] fresh).bus =
      .scripted [.answered 40 (.ack []), .answered 59 (.ack [0x80])] ∧
    (answering [.answered 40 (.ack []), .answered 59 (.ack [0x80, 0x01])] fresh).bus =
      .scripted [.answered 40 (.ack []), .answered 59 (.ack [0x80, 0x01])] :=
  ⟨.inr (by decide), by decide, by decide, rfl, rfl⟩

/-- The longest legal runs of both widths; the hypotheses on the bus side as in `witness_ReadBitReturnsTheBit`. -/
theorem witness_ReadBitRunReturnsTheRun :
    inTime (.ms 0) fresh 70000 ∧ (1 ≤ (8 : Byte).toNat ∧ (8 : Byte).toNat ≤ (7 : Byte).toNat + 1 ∧ (7 : Byte).toNat ≤ 7) ∧
    (1 ≤ (16 : Byte).toNat ∧ (16 : Byte).toNat ≤ (15 : Byte).toNat + 1 ∧ (15 : Byte).toNat ≤ 15) :=
  ⟨.inl rfl, by decide, by decide⟩

theorem witness_ReadByteAndWordZeroExtend :
    inTime (.ms 10) fresh (3 + 6) ∧
    (answering [.answered 3 (.ack []), .answered 6 (.ack [0x10])] fresh).bus =
      .scripted [.answered 3 (.ack []), .answered 6 (.ack [0x10])] ∧
    (answering [.answered 3 (.ack []), .answered 6 (.ack [0x10, 0x11])] fresh).bus =
      .scripted [.answered 3 (.ack []), .answered 6 (.ack [0x10, 0x11])] := ⟨.inr (by decide), rfl, rfl⟩

/-- R76 at its boundaries: the last legal descriptor issues a call, the first illegal one issues none. -/
theorem witness_DescriptorTable :
    trace 0x10681007000100000000 (answering [.never] fresh) = [.write 0x68 [0x10]] ∧
    trace 0x10681008000100000000 (answering [.never] fresh) = [] ∧
    trace 0x1168100F000100000000 (answering [.never] fresh) = [.write 0x68 [0x10]] ∧
    trace 0x11681010000100000000 (answering [.never] fresh) = [] ∧
    trace 0x12681006070100000000 (answering [.never] fresh) = [.write 0x68 [0x10]] ∧
    trace 0x12681006080100000000 (answering [.never] fresh) = [] ∧
    trace 0x2368100F100100000000 (answering [.never] fresh) = [.write 0x68 [0x10]] ∧
    trace 0x2368100F000100000000 (answering [.never] fresh) = [] := by decide +kernel

/-- Twelve bytes with BUS_CAP = 5: three chunks, 3 · (1 + 2) = 9 ms under a timeout of 10 ms. -/
theorem witness_ByteSequenceReadDelivers :
    1 ≤ (12 : Byte).toNat ∧ (List.replicate 12 (0xAB : Byte)).length = (12 : Byte).toNat ∧
    chunkPlan 5 12 = [(0, 5), (5, 5), (10, 2)] ∧
    (answering (chunkScript 1 2 (List.replicate 12 0xAB) (chunkPlan 5 12) ++ []) (State.atReset (params 5))).bus =
      .scripted (chunkScript 1 2 (List.replicate 12 0xAB) (chunkPlan 5 12) ++ []) ∧
    inTime (.ms 10) fresh ((chunkPlan 5 12).length * (1 + 2)) := ⟨by decide, rfl, by decide, rfl, .inr (by decide)⟩

/-- One chunk exactly, and one byte more (R56, BUS_CAP = 32). -/
theorem witness_ByteSequenceReadDelivers_boundary :
    chunkPlan 32 32 = [(0, 32)] ∧ chunkPlan 32 33 = [(0, 32), (32, 1)] := by decide

/-- The longest word sequence, 128 words; with BUS_CAP = 3 its chunks are two bytes each. -/
theorem witness_WordSequenceReadDelivers :
    1 ≤ (128 : Byte).toNat ∧ (128 : Byte).toNat ≤ 128 ∧ (List.replicate 256 (1 : Byte)).length = 2 * (128 : Byte).toNat ∧
    (chunkPlan (3 - 3 % 2) (2 * 128)).length = 128 ∧ inTime (.ms 0) fresh ((chunkPlan (3 - 3 % 2) (2 * 128)).length * (1 + 2)) ∧
    (answering (chunkScript 1 2 (List.replicate 256 1) (chunkPlan (3 - 3 % 2) (2 * 128)) ++ []) (State.atReset (params 3))).bus =
      .scripted (chunkScript 1 2 (List.replicate 256 1) (chunkPlan (3 - 3 % 2) (2 * 128)) ++ []) :=
  ⟨by decide, by decide, by decide +kernel, by decide +kernel, .inl rfl, rfl⟩

theorem not_ok {out rest : List Response} (h : out.head?.map Response.status ≠ some .ok) (ms : Nat) :
    out ≠ { status := .ok, words := [], ms := ms } :: rest := by
  rintro rfl
  exact h rfl

/-- V115: the read of the second chunk is refused after a first chunk that passed. -/
theorem witness_UnfinishedSequenceReadLeavesNoByte :
    ∃ t, exec (.rdbytes 0x68 0x74 6 false .default)
        (answering [pass, gives [1, 2, 3, 4, 5], pass, .answered 0 .nack] (State.atReset (params 5))) = .next t ∧
      (∀ ms, t.out ≠ { status := .ok, words := [], ms := ms } :: (State.atReset (params 5)).out) ∧ 1 ≤ (6 : Byte).toNat :=
  ⟨_, rfl, not_ok (by decide +kernel), by decide⟩

/-- The same for RDWORDS. -/
theorem witness_UnfinishedSequenceReadLeavesNoByte_words :
    ∃ t, exec (.rdwords 0x68 0x74 3 false .default)
        (answering [pass, gives [1, 2, 3, 4], pass, gives [5]] (State.atReset (params 5))) = .next t ∧
      (∀ ms, t.out ≠ { status := .ok, words := [], ms := ms } :: (State.atReset (params 5)).out) ∧ 1 ≤ (3 : Byte).toNat :=
  ⟨_, rfl, not_ok (by decide +kernel), by decide⟩

/-- The three calls of a read-modify-write, 14 ms under a timeout of 15 ms (V112), at the highest bit numbers and longest runs. -/
theorem witness_BitAndRunWrites :
    inTime (.ms 15) fresh (5 + 5 + 4) ∧ (7 : Byte).toNat ≤ 7 ∧ (15 : Byte).toNat ≤ 15 ∧
    (1 ≤ (8 : Byte).toNat ∧ (8 : Byte).toNat ≤ (7 : Byte).toNat + 1) ∧
    (1 ≤ (16 : Byte).toNat ∧ (16 : Byte).toNat ≤ (15 : Byte).toNat + 1) ∧
    (answering [.answered 5 (.ack []), .answered 5 (.ack [0xAC]), .answered 4 (.ack [])] fresh).bus =
      .scripted [.answered 5 (.ack []), .answered 5 (.ack [0xAC]), .answered 4 (.ack [])] ∧
    (answering [.answered 5 (.ack []), .answered 5 (.ack [0xAC, 0x21]), .answered 4 (.ack [])] fresh).bus =
      .scripted [.answered 5 (.ack []), .answered 5 (.ack [0xAC, 0x21]), .answered 4 (.ack [])] :=
  ⟨.inr (by decide), by decide, by decide, by decide, by decide, rfl, rfl⟩

theorem witness_ByteAndWordWriteOneCall :
    inTime .default fresh 99 ∧ (answering [.answered 99 (.ack [])] fresh).bus = .scripted [.answered 99 (.ack [])] :=
  ⟨.inr (by decide), rfl⟩

/-- V77 and V79: three bytes, and two words; V88: with BUS_CAP = 3 one word is the largest payload. -/
theorem witness_SequenceWriteSendsThePayload :
    inTime .default fresh 0 ∧
    (∀ k, k < [0x11, 0x22, 0x33].length →
      Memory.read (answering [pass] (holding 0 [0x11, 0x22, 0x33])).buf k = ([0x11, 0x22, 0x33] : List Byte)[k]?) ∧
    (answering [pass] (holding 0 [0x11, 0x22, 0x33])).bus = .scripted [pass] ∧ [0x11, 0x22, 0x33].length = (3 : Byte).toNat ∧
    [0x11, 0x22, 0x33].length + 1 ≤ fresh.cfg.busCap ∧ [0x11, 0x22, 0x33, 0x44].length = 2 * (2 : Byte).toNat ∧
    [0xAA, 0xBB].length + 1 ≤ (params 3).busCap ∧ [0xAA, 0xBB].length = 2 * (1 : Byte).toNat :=
  ⟨.inr (by decide), by decide +kernel, rfl, rfl, by decide, rfl, by decide, rfl⟩

/-- R77 at its boundaries: V80 and V81 (31 bytes fit BUS_CAP = 32, 32 do not), V83 (16 words do not), 128 and 129 words to read. -/
theorem witness_SequenceLengthTable :
    (trace 0x266840001F0100000000 (answering [pass] (holding 0 (List.replicate 32 7)))).length = 1 ∧
    trace 0x26684000200100000000 (answering [pass] (holding 0 (List.replicate 32 7))) = [] ∧
    (trace 0x276840000F0100000000 (answering [pass] (holding 0 (List.replicate 32 7)))).length = 1 ∧
    trace 0x27684000100100000000 (answering [pass] (holding 0 (List.replicate 32 7))) = [] ∧
    (trace 0x17684000800100000000 (answering [.never] fresh)).length = 1 ∧
    trace 0x17684000810100000000 (answering [.never] fresh) = [] ∧
    reply 0x27684000000100000000 fresh = some [0x00] := by decide +kernel

/-- Each clause on one command: never with and without a bound, an answer exactly at the deadline, a Nack one millisecond before it. -/
theorem witness_FirstCallFailures :
    (∃ t, exec (.rdbyte 0x68 0x10 (.ms 1)) (answering [.never] fresh) = .next t ∧ t.calls ≠ fresh.calls) ∧
    effectiveTimeout (.ms 1) fresh.tmod ≠ 0 ∧
    (∃ t, exec (.rdbyte 0x68 0x10 (.ms 0)) (answering [.never] fresh) = .next t ∧ t.calls ≠ fresh.calls) ∧
    effectiveTimeout (.ms 0) fresh.tmod = 0 ∧
    (∃ t, exec (.rdbyte 0x68 0x10 (.ms 5)) (answering [.answered 5 .nack] fresh) = .next t ∧ t.calls ≠ fresh.calls) ∧
    (effectiveTimeout (.ms 5) fresh.tmod).toNat ≤ 5 ∧
    (∃ t, exec (.rdbyte 0x68 0x10 (.ms 5)) (answering [.answered 4 .nack] fresh) = .next t ∧ t.calls ≠ fresh.calls) ∧
    inTime (.ms 5) fresh 4 :=
  ⟨⟨_, rfl, by decide⟩, by decide, ⟨_, rfl, by decide⟩, by decide, ⟨_, rfl, by decide⟩, by decide, ⟨_, rfl, by decide⟩,
    .inr (by decide)⟩

/-- V107 (Nack) and V110 (two bytes for one). -/
theorem witness_FailedReadHalfIssuesNoWrite :
    timeoutOf (.wrbits 0x68 0x20 5 3 2 .default) = some .default ∧ (Instr.wrbits 0x68 0x20 5 3 2 .default).wellFormed = true ∧
    readHalf (.wrbits 0x68 0x20 5 3 2 .default) = some (0x68, 0x20, 1) ∧ inTime .default fresh (0 + 0) ∧
    (answering [pass, .answered 0 .nack] fresh).bus = .scripted [pass, .answered 0 .nack] ∧
    (∀ bytes, Reply.nack = .ack bytes → bytes.length ≠ 1) ∧
    (∀ bytes, Reply.ack [0xAC, 0x21] = .ack bytes → bytes.length ≠ 1) :=
  ⟨rfl, by decide, rfl, .inr (by decide), rfl, (fun _ h => by cases h), (fun _ h => by cases h; decide)⟩

theorem witness_IntegerQuaternion : decoding.chen.getLsbD 0 = true ∧ frameHolds decoding (byteFn frameF1) :=
  ⟨by decide, decoding_frame⟩

theorem witness_VectorCommands :
    frameHolds decoding (byteFn frameF1) ∧ decoding.chen.getLsbD 1 = true ∧ decoding.chen.getLsbD 2 = true ∧
    decoding.chen.getLsbD 3 = true := ⟨decoding_frame, by decide⟩

/-- V122 (channel off), V130 (the last byte of the frame missing) and V146 (DB[39] missing under FLEN = 40). -/
theorem witness_DecodePrologueFailures :
    channelsOf .dq16 = some [0] ∧ (∃ c ∈ [0], fresh.chen.getLsbD c = false) ∧
    (∀ c ∈ [0], (holding 0xF (frameF1.take 47)).chen.getLsbD c = true) ∧
    (∃ a, a < frameLength (holding 0xF (frameF1.take 47)).chen ∧ Memory.read (holding 0xF (frameF1.take 47)).buf a = none) ∧
    (∃ a, a < frameLength (holding 0xB (frameF1.take 39)).chen ∧ Memory.read (holding 0xB (frameF1.take 39)).buf a = none) :=
  ⟨rfl, ⟨0, by decide, by decide⟩, by decide, ⟨47, by decide, by decide +kernel⟩, 39, by decide, by decide +kernel⟩

/-- V172 (S one below the threshold) and V170 (all zero); for DLINACC with the ACCEL channel beside it. -/
theorem witness_ShortQuaternionIsDegenerate :
    (quatOnly belowThreshold).chen.getLsbD 0 = true ∧ frameHolds (quatOnly belowThreshold) (byteFn belowThreshold) ∧
    sumSquares (quatAt (byteFn belowThreshold)) < ((quatOnly belowThreshold).cfg.qepsSqRaw : Int) ∧
    (∀ a, a < 16 → byteFn (List.replicate 16 0) a = 0) ∧
    (holding 9 (belowThreshold ++ groupA)).chen.getLsbD 3 = true ∧
    frameHolds (holding 9 (belowThreshold ++ groupA)) (byteFn (belowThreshold ++ groupA)) ∧
    (∃ t r, exec .dqf (quatOnly belowThreshold) = .next t ∧ t.out = r :: fresh.out ∧ r.status = .failed .decodeDegenerate) :=
  ⟨by decide, belowThreshold_frame, by decide +kernel, by decide, by decide, by unfold frameHolds; decide +kernel,
    _, _, rfl, rfl, rfl⟩

/-- V174: S equal to the threshold passes. -/
theorem witness_QuaternionCommands :
    (quatOnly threshold).chen.getLsbD 0 = true ∧ frameHolds (quatOnly threshold) (byteFn threshold) ∧
    ((quatOnly threshold).cfg.qepsSqRaw : Int) = sumSquares (quatAt (byteFn threshold)) :=
  ⟨by decide, threshold_frame, by decide +kernel⟩

theorem witness_GravityHasUnitLength : normSq ⟨1, 0, 0, 0⟩ ≠ 0 := by decide

theorem witness_UnitQuaternionIgnoresLength : (0 : Int) < 2 ∧ normSq ⟨-1, 2, 0, 0⟩ ≠ 0 := by decide

/-- Both ends of the range. -/
theorem witness_Binary32HoldsSixteenBitIntegers :
    binary32Val (binary32Rnd (ExactReal.ofRat (-32768 : Int))) = (-32768 : Int) ∧
    binary32Val (binary32Rnd (ExactReal.ofRat (32767 : Int))) = (32767 : Int) := by decide +kernel

/-- V160: F1 with both channels; PV is 0 there, and 1 after a filtered call. -/
theorem witness_LinearAcceleration :
    decoding.chen.getLsbD 0 = true ∧ decoding.chen.getLsbD 3 = true ∧ frameHolds decoding (byteFn frameF1) ∧
    (decoding.cfg.qepsSqRaw : Int) ≤ sumSquares (quatAt (byteFn frameF1)) ∧ accelBase decoding.chen = 32 ∧
    decoding.pv = false ∧ { decoding with pv := true }.pv = true ∧
    frameHolds { decoding with pv := true } (byteFn frameF1) :=
  ⟨by decide, by decide, decoding_frame, by decide +kernel, by decide, rfl, rfl, decoding_frame⟩

theorem witness_DecodingTwiceAnswersTheSame :
    channelsOf .dgrav = some [0] ∧ Instr.dgrav ≠ .dlinacc true ∧
    ∃ t u, exec .dgrav decoding = .next t ∧ exec .dgrav t = .next u := ⟨rfl, by decide, _, _, rfl, rfl⟩

/-- V151: DB and the same bytes with pads at 22, 47 and, for a command without a 32-bit view, 3 inverted; V130: the last pad byte missing. -/
theorem witness_PadBytesDoNotMatter :
    padOffset true true true true 22 = true ∧ padOffset true true true true 47 = true ∧ padOffset true true true true 41 = false ∧
    (Instr.dgyro ∈ shortViews ∧ Instr.dqf ∉ shortViews) ∧
    (∀ a, a < 48 → padOffset true true true true a = false → ¬ (a < 16 ∧ 2 ≤ a % 4) →
      Memory.read (Memory.write (Memory.write (Memory.write decoding.buf 3 0xFF) 22 0x55) 47 0xBB) a = Memory.read decoding.buf a) ∧
    (∃ t, exec .dgyro decoding = .next t) ∧
    (47 < frameLength (holding 0xF (frameF1.take 47)).chen ∧ Memory.read (holding 0xF (frameF1.take 47)).buf 47 = none) :=
  ⟨by decide, by decide, by decide, by decide, by decide +kernel, ⟨_, rfl⟩, by decide, by decide +kernel⟩

/-- V257, V258: words of the four register-access commands and of LARST. -/
theorem witness_SystemEncodings :
    opcodeIs 0x80AB02CDEF0712340000 0x80 ∧ opcodeIs 0x81000100000000000000 0x81 ∧ opcodeIs 0x8200FF00000000000000 0x82 ∧
    opcodeIs 0x830000000000000001A5 0x83 ∧ opcodeIs 0x84000000000000000000 0x84 := by unfold opcodeIs; decide

/-- The highest register number that exists, and the first that does not. -/
theorem witness_ControlRegisterRead : ((6 : Byte) = 6 ∧ 32 = fresh.cfg.busCap) ∧ 7 ≤ (7 : Byte).toNat := by decide

/-- The largest value ESTK and CHEN take, and the first they refuse; the first read-only register. -/
theorem witness_ControlRegisterWrite :
    ((126 : HalfWord).getLsbD 0 = false ∧ (126 : HalfWord).toNat < 128) ∧ (15 : HalfWord).toNat < 16 ∧
    ((127 : HalfWord).getLsbD 0 = true ∧ 128 ≤ (128 : HalfWord).toNat) ∧ 16 ≤ (16 : HalfWord).toNat ∧ 5 ≤ (5 : Byte).toNat := by
  decide

/-- V253 and V254: index 0 valid, its neighbour not. -/
theorem witness_BufferByteAccess :
    Memory.read (holding 0 [0xA5]).buf (0 : Byte).toNat = some 0xA5 ∧ Memory.read (holding 0 [0xA5]).buf (1 : Byte).toNat = none := by
  decide +kernel

/-- V33, the whole byte V34, and for the word the last register, whose neighbour is register 0. -/
theorem witness_RoundTripsOnTheIdealDevice :
    onDevice.bus = .ideal device ∧ device.plan = [] ∧ deviceWf device = true ∧ queueAt device.queues (deviceKey 0x68 0x20) = none ∧
    ((5 : Byte).toNat ≤ 7 ∧ 1 ≤ (3 : Byte).toNat ∧ (3 : Byte).toNat ≤ (5 : Byte).toNat + 1) ∧
    ((7 : Byte).toNat ≤ 7 ∧ 1 ≤ (8 : Byte).toNat ∧ (8 : Byte).toNat ≤ (7 : Byte).toNat + 1) ∧
    queueAt device.queues (deviceKey 0x68 0xFF) = none ∧ queueAt device.queues (deviceKey 0x68 (0xFF + 1)) = none :=
  ⟨rfl, rfl, by decide, rfl, by decide, by decide, rfl, rfl⟩

end Sys2Proof.Tests
end

section
/-! What one driver call makes of its draw (R46): an equation for each outcome of `settleCall`, and the rule of the whole call. -/

namespace Sys2Proof.Machine

theorem deadlineReached_eq_true {s : State} {t : Nat} :
    deadlineReached s t = true ↔ (s.tmoeff ≠ 0 ∧ s.tmoeff.toNat ≤ t) := by
  simp only [deadlineReached, Bool.and_eq_true, bne_iff_ne, decide_eq_true_eq]

/-! ### The answer of a call that returned in time -/

@[simp] theorem judge_nack (c : BusCall) : judge c .nack = .error .busNack := by
  cases c <;> rfl

@[simp] theorem judge_write_ack (dev : Byte) (sent bytes : List Byte) : judge (.write dev sent) (.ack bytes) = .ok [] := rfl

theorem judge_read_exact {n : Nat} {bytes : List Byte} (dev : Byte) (h : bytes.length = n) :
    judge (.read dev n) (.ack bytes) = .ok bytes := if_pos h

theorem judge_read_short {n : Nat} {bytes : List Byte} (dev : Byte) (h : bytes.length ≠ n) :
    judge (.read dev n) (.ack bytes) = .error .malformedResponse := if_neg h

/-! ### The outcomes of an issued call -/

theorem settleCall_never_bounded {c : BusCall} {s : State} (h : s.tmoeff ≠ 0) :
    settleCall c .never s = .stop (timeOut s) := if_neg h

theorem settleCall_never_unbounded {c : BusCall} {s : State} (h : s.tmoeff = 0) :
    settleCall c .never s = .stop { s with busy := true } := if_pos h

/-- At or after the deadline the answer is ignored. -/
theorem settleCall_late {c : BusCall} {s : State} {d : Nat} (reply : Reply) (h : deadlineReached s (s.elapsed + d) = true) :
    settleCall c (.answered d reply) s = .stop (timeOut s) := if_pos h

theorem settleCall_pass {c : BusCall} {s : State} {d : Nat} {reply : Reply} {bytes : List Byte}
    (hd : deadlineReached s (s.elapsed + d) = false) (hj : judge c reply = .ok bytes) :
    settleCall c (.answered d reply) s = .go bytes { s with elapsed := s.elapsed + d } := by
  simp [settleCall, hd, hj]

theorem settleCall_fail {c : BusCall} {s : State} {d : Nat} {reply : Reply} {f : Failure}
    (hd : deadlineReached s (s.elapsed + d) = false) (hj : judge c reply = .error f) :
    settleCall c (.answered d reply) s = .stop (raiseAt (s.elapsed + d) f { s with elapsed := s.elapsed + d }) := by
  simp [settleCall, hd, hj, raise]

/-! ### The whole call -/

/-- A scripted call is its draw settled in the state that issued it (R44, R46). -/
theorem call_scripted {c : BusCall} {s : State} {e : CallEvent} {rest : List CallEvent} (h : s.bus = .scripted (e :: rest)) :
    call c s = settleCall c e { s with bus := .scripted rest, calls := c :: s.calls, fresh := s.fresh + 1 } := by
  rw [call, issue_scripted h]

/-- Settles O20: the script gives the draw, and each clause of R46 is one outcome of `settleCall`. -/
theorem driverCallRule : Obligations.DriverCallRule := by
  intro c s s1 e rest hbus hs1
  have hcall : call c s = settleCall c e s1 := by rw [call_scripted hbus, hs1]
  have htmo : s1.tmoeff = s.tmoeff := by rw [hs1]
  have hela : s1.elapsed = s.elapsed := by rw [hs1]
  rw [hcall, ← htmo, ← hela]
  refine ⟨?never_bounded, ?never_unbounded, ?answered⟩
  case never_bounded =>
    rintro rfl hbounded
    exact settleCall_never_bounded hbounded
  case never_unbounded =>
    rintro rfl hunbounded
    exact settleCall_never_unbounded hunbounded
  case answered =>
    rintro d reply rfl
    refine ⟨fun hbounded hlate => settleCall_late reply (deadlineReached_eq_true.mpr ⟨hbounded, hlate⟩), fun hearly => ?_⟩
    have hd : deadlineReached s1 (s1.elapsed + d) = false := deadlineReached_eq_false.mpr hearly
    refine ⟨?acknowledged, ?refused⟩
    case acknowledged =>
      rintro bytes rfl
      refine ⟨?write, ?read⟩
      case write =>
        rintro dev sent rfl
        exact settleCall_pass hd (judge_write_ack dev sent bytes)
      case read =>
        rintro dev n rfl
        exact ⟨fun hexact => settleCall_pass hd (judge_read_exact dev hexact),
          fun hshort => settleCall_fail hd (judge_read_short dev hshort)⟩
    case refused =>
      rintro rfl
      exact settleCall_fail hd (judge_nack c)

end Sys2Proof.Machine
end

section
/-! How the decoder answers a reserved encoding (R75, R82), and what the refusals of R75 and R76 leave (R218). -/

namespace Sys2Proof

/-! ### Reserved encodings -/

/-- FLAGS[7:3] is the 5-bit field at bit 35 of the word (R70, R72). -/
theorem reservedFlags_eq_zero_iff (w : CommandWord) : (fieldsOf w).flags >>> 3 = 0 ↔ w.extractLsb' 35 5 = 0 := by
  simp only [fieldsOf, ← BitVec.toNat_inj, BitVec.toNat_ushiftRight, BitVec.extractLsb'_toNat, BitVec.ofNat_eq_ofNat,
    BitVec.toNat_ofNat, Nat.shiftRight_eq_div_pow]
  omega

theorem decodeOpcode_reserved {f : Fields} (h : f.op.toNat ∉ Machine.opcodeList) :
    decodeOpcode f = .error (.reservedOpcode f.op) := by
  unfold decodeOpcode
  split
  case h_35 => rfl
  all_goals
    rename_i hop
    exact absurd (by rw [hop]; decide) h

/-- R75, R82: a reserved flag bit or a reserved opcode is rejected. -/
theorem decodeWord_reserved {w : CommandWord}
    (h : w.extractLsb' 35 5 ≠ 0 ∨ (w.extractLsb' 72 8).toNat ∉ Machine.opcodeList) :
    ∃ e, decodeWord w = .error e := by
  by_cases hflags : (fieldsOf w).flags >>> 3 = 0
  case neg => exact ⟨_, if_pos hflags⟩
  case pos =>
    have hop : (fieldsOf w).op.toNat ∉ Machine.opcodeList :=
      h.resolve_left fun hne => hne ((reservedFlags_eq_zero_iff w).mp hflags)
    exact ⟨_, (if_neg (not_not_intro hflags)).trans (decodeOpcode_reserved hop)⟩

end Sys2Proof

namespace Sys2Proof.Machine

/-! ### What a failure leaves -/

/-- R17, R218: raising a failure sets its own sticky bit and keeps the others. -/
theorem estkRaise_getLsbD (estk : BitVec 7) (f : Failure) {k : Nat} (hk : k < 7) :
    (estkRaise estk f).getLsbD k = (estk.getLsbD k || decide (k = statusNumber f)) := by
  have hbit : (BitVec.ofNat 7 (2 ^ failureCode f)).getLsbD k = decide (k = statusNumber f) := by
    cases f <;> interval_cases k <;> rfl
  rw [estkRaise, BitVec.getLsbD_or, hbit]

theorem raiseAt_answeredFailure (ms : Nat) (f : Failure) (s : State) : answeredFailure s (raiseAt ms f s) f ms :=
  ⟨rfl, rfl, rfl, fun _ => estkRaise_getLsbD s.estk f⟩

theorem raise_answeredFailure (f : Failure) (s : State) : answeredFailure s (raise f s) f s.elapsed :=
  raiseAt_answeredFailure s.elapsed f s

/-- R57 point 1: a bus command that refuses right after its prologue. -/
theorem raise_busPrologue_refusedBeforeCalls (tmo : Timeout) (s : State) :
    refusedBeforeCalls s (raise .callerContractViolation (busPrologue tmo s)) :=
  ⟨raise_answeredFailure .callerContractViolation (busPrologue tmo s), rfl, rfl, ⟨rfl, rfl, rfl, rfl, rfl⟩, fun _ => rfl,
    ⟨rfl, rfl⟩, ⟨rfl, rfl, rfl⟩, ⟨rfl, rfl⟩⟩

/-! ### A step on a presented command -/

theorem step_presented {s : State} {w : CommandWord} {rest : List CommandWord} (hreset : s.resetLine = false)
    (hidle : s.busy = false) (hport : s.port = w :: rest) : step s = runAccepted w (accept w rest s) := by
  simp [step, hreset, hidle, hport]

theorem runAccepted_error {w : CommandWord} {e : DecodeReject} (s : State) (h : decodeWord w = .error e) :
    runAccepted w s = .next (raise .callerContractViolation s) := by
  simp [runAccepted, h]

/-- Settles O5: the decoder rejects the word, so the step is acceptance followed by the refusal. -/
theorem reservedEncodingsAreRefused : Obligations.ReservedEncodingsAreRefused := by
  intro s w rest hreset hidle hport hreserved
  obtain ⟨e, he⟩ := decodeWord_reserved hreserved
  have hstep : step s = .next (raise .callerContractViolation (accept w rest s)) :=
    (step_presented hreset hidle hport).trans (runAccepted_error _ he)
  exact ⟨_, hstep, raise_answeredFailure .callerContractViolation (accept w rest s), rfl, rfl, ⟨rfl, rfl, rfl, rfl, rfl⟩,
    fun _ => rfl, ⟨rfl, rfl⟩, rfl, rfl, rfl, rfl, rfl, rfl, hreset⟩

end Sys2Proof.Machine
end

section
/-! The descriptor table R76: which descriptors pass, and that a bus command with a legal one issues a driver call. -/

namespace Sys2Proof.Machine

/-! ### The legality tests -/

theorem bitNumberOk_iff {width : Nat} {start : Byte} : bitNumberOk width start = true ↔ start.toNat < width :=
  decide_eq_true_iff

theorem descriptorOk_iff {width : Nat} {start len : Byte} : descriptorOk width start len = true ↔
    (start.toNat ≤ width - 1 ∧ 1 ≤ len.toNat ∧ len.toNat ≤ width ∧ len.toNat ≤ start.toNat + 1) :=
  decide_eq_true_iff

/-! ### A procedure that has issued a call -/

/-- More than `n` driver calls stand in the trace wherever the procedure is after the operation, ended or not. -/
def Flow.CallsExceed {α : Type} (n : Nat) : Flow α → Prop :=
  Flow.Holds (fun _ t => n < t.calls.length) (fun t => n < t.calls.length)

/-- However a driver call turns out, it stands at the head of the trace (R44). -/
theorem call_calls (c : BusCall) (s : State) :
    (call c s).Holds (fun _ t => t.calls = c :: s.calls) (fun t => t.calls = c :: s.calls) := by
  cases hcall : call c s with
  | go bytes t =>
    obtain ⟨d, rfl, -, -⟩ := call_go hcall
    rfl
  | stop t =>
    rcases call_stop hcall with rfl | ⟨-, rfl⟩ | ⟨-, rfl⟩ | ⟨d, f, -, -, rfl⟩ <;> rfl

theorem call_callsExceed {n : Nat} (c : BusCall) {s : State} (h : n ≤ s.calls.length) : (call c s).CallsExceed n := by
  have hlen : ∀ t : State, t.calls = c :: s.calls → n < t.calls.length := by
    intro t ht
    rw [ht, List.length_cons]
    omega
  exact (call_calls c s).mono (fun _ => hlen) hlen

theorem memRead_callsExceed {n : Nat} (dev reg : Byte) (count : Nat) {s : State} (h : n ≤ s.calls.length) :
    (memRead dev reg count s).CallsExceed n :=
  (call_callsExceed _ h).andThen fun _ _ ht => call_callsExceed _ ht.le

theorem readByteWith_calls_lt (dev reg : Byte) (f : Byte → Word) (s : State) :
    s.calls.length < (readByteWith dev reg f s).calls.length :=
  (memRead_callsExceed dev reg 1 le_rfl).finish fun _ _ ht => ht

theorem readWordWith_calls_lt (dev reg : Byte) (f : HalfWord → Word) (s : State) :
    s.calls.length < (readWordWith dev reg f s).calls.length :=
  (memRead_callsExceed dev reg 2 le_rfl).finish fun _ _ ht => ht

theorem writeBytes_calls_lt (dev reg : Byte) (bytes : List Byte) (s : State) :
    s.calls.length < (writeBytes dev reg bytes s).calls.length :=
  (call_callsExceed (.write dev (reg :: bytes)) le_rfl).finish fun _ _ ht => ht

theorem modifyByte_calls_lt (dev reg : Byte) (f : Byte → Byte) (s : State) :
    s.calls.length < (modifyByte dev reg f s).calls.length :=
  (memRead_callsExceed dev reg 1 le_rfl).finish fun bytes t ht =>
    ht.trans (writeBytes_calls_lt dev reg _ { t with tmp := (byteAt bytes 0).setWidth 16 })

theorem modifyWord_calls_lt (dev reg : Byte) (f : HalfWord → HalfWord) (s : State) :
    s.calls.length < (modifyWord dev reg f s).calls.length :=
  (memRead_callsExceed dev reg 2 le_rfl).finish fun bytes t ht =>
    ht.trans (writeBytes_calls_lt dev reg _ { t with tmp := wordAt bytes })

/-! ### The table -/

/-- A bus command that tests its descriptor and then runs `body`, whose test says what R76 asks (`legal`). -/
theorem guarded_refuses_or_calls {s body : State} {tmo : Timeout} {test : Bool} {legal : Prop} [Decidable legal]
    {o : Host.Outcome State Fault Refusal} (htest : test = true ↔ legal) (hbody : s.calls.length < body.calls.length)
    (ho : o = .next (if test then body else raise .callerContractViolation (busPrologue tmo s))) :
    ∃ t, o = .next t ∧ (if legal then s.calls.length < t.calls.length else refusedBeforeCalls s t) := by
  refine ⟨_, ho, ?_⟩
  by_cases h : legal
  case pos => rwa [if_pos h, if_pos (htest.mpr h)]
  case neg =>
    rw [if_neg h, if_neg (h ∘ htest.mp)]
    exact raise_busPrologue_refusedBeforeCalls tmo s

/-- Settles O30: each command is its test of the descriptor in front of a unit that begins with a driver call. -/
theorem descriptorTable : Obligations.DescriptorTable := by
  intro s dev reg start len bit data tmo
  refine ⟨?bitOfByte, ?bitOfWord, ?runOfByte, ?runOfWord⟩
  case bitOfByte =>
    have hlegal : bitNumberOk 8 start = true ↔ start.toNat ≤ 7 := bitNumberOk_iff.trans Nat.lt_succ_iff
    rintro _ (rfl | rfl)
    · exact guarded_refuses_or_calls hlegal (readByteWith_calls_lt dev reg _ (busPrologue tmo s)) rfl
    · exact guarded_refuses_or_calls hlegal (modifyByte_calls_lt dev reg _ (busPrologue tmo s)) rfl
  case bitOfWord =>
    have hlegal : bitNumberOk 16 start = true ↔ start.toNat ≤ 15 := bitNumberOk_iff.trans Nat.lt_succ_iff
    rintro _ (rfl | rfl)
    · exact guarded_refuses_or_calls hlegal (readWordWith_calls_lt dev reg _ (busPrologue tmo s)) rfl
    · exact guarded_refuses_or_calls hlegal (modifyWord_calls_lt dev reg _ (busPrologue tmo s)) rfl
  case runOfByte =>
    rintro _ (rfl | rfl)
    · exact guarded_refuses_or_calls descriptorOk_iff (readByteWith_calls_lt dev reg _ (busPrologue tmo s)) rfl
    · exact guarded_refuses_or_calls descriptorOk_iff (modifyByte_calls_lt dev reg _ (busPrologue tmo s)) rfl
  case runOfWord =>
    rintro _ (rfl | rfl)
    · exact guarded_refuses_or_calls descriptorOk_iff (readWordWith_calls_lt dev reg _ (busPrologue tmo s)) rfl
    · exact guarded_refuses_or_calls descriptorOk_iff (modifyWord_calls_lt dev reg _ (busPrologue tmo s)) rfl

end Sys2Proof.Machine
end

section
/-! Pad bytes (R148): a decode command looks at no pad byte of the frame, so exchanging the buffer for one that differs there alone commutes
with it; its prologue (R140) still refuses a frame with any byte missing. -/

namespace Sys2Proof.Machine

/-! ### The decode prologue, one equation per outcome -/

theorem decodeFrame_of_frame {need : List Channel} (k : Frame → State → State) {s : State} {bytes : List Byte}
    (hneed : need.all (channelEnabled s.chen) = true) (hbytes : Memory.readRun s.buf 0 (flenOf s.chen) = some bytes) :
    decodeFrame need k s = k ⟨bytes, s.chen⟩ s := by
  simp [decodeFrame, decodePrologue, hneed, hbytes]

theorem decodeFrame_of_missing {need : List Channel} (k : Frame → State → State) {s : State}
    (hneed : need.all (channelEnabled s.chen) = true) (hbytes : Memory.readRun s.buf 0 (flenOf s.chen) = none) :
    decodeFrame need k s = raise .callerContractViolation s := by
  simp [decodeFrame, decodePrologue, hneed, hbytes]

theorem decodeFrame_of_absent {need : List Channel} (k : Frame → State → State) {s : State}
    (hneed : need.all (channelEnabled s.chen) = false) : decodeFrame need k s = raise .channelNotPresent s := by
  simp [decodeFrame, decodePrologue, hneed]

theorem raise_refusedWithoutEffect (f : Failure) (s : State) : refusedWithoutEffect s (raise f s) f :=
  ⟨raise_answeredFailure f s, ⟨rfl, rfl, rfl, rfl⟩, ⟨rfl, rfl, rfl, rfl, rfl⟩, fun _ => rfl, ⟨rfl, rfl⟩, ⟨rfl, rfl, rfl⟩,
    ⟨rfl, rfl⟩⟩

/-- Whether a run of bytes can be read depends only on which bytes hold a value. -/
theorem readRun_eq_none_congr {m m' : Memory} (n : Nat)
    (h : ∀ a, (Memory.read m' a).isSome = (Memory.read m a).isSome) :
    Memory.readRun m' 0 n = none ↔ Memory.readRun m 0 n = none := by
  have hread : ∀ a, Memory.read m' a = none ↔ Memory.read m a = none := fun a => by
    rw [← Option.not_isSome_iff_eq_none, h, Option.not_isSome_iff_eq_none]
  simp only [Memory.readRun_eq_none, hread]

/-- The bytes of a frame that was read from a buffer. -/
theorem frameByte_of_readRun {m : Memory} {n : Nat} {bytes : List Byte} (chen : BitVec 4) (o : Nat)
    (h : Memory.readRun m 0 n = some bytes) :
    frameByte ⟨bytes, chen⟩ o = if o < n then (Memory.read m o).getD 0 else 0 := by
  obtain ⟨hlen, hread⟩ := (Memory.readRun_eq_some m n 0 bytes).mp h
  simp only [Nat.zero_add] at hread
  split
  case isTrue hlt => rw [frameByte, List.getD_eq_getElem?_getD, hread o hlt]
  case isFalse hge => exact List.getD_eq_default bytes 0 (by omega)

/-! ### Data bytes: what is no pad to a command -/

theorem chenBit_eq_one_iff {chen : BitVec 4} {k : Nat} : chenBit chen k = 1 ↔ chen.getLsbD k = true :=
  Bool.toNat_eq_one

/-- Offset `o` of the frame is no pad to command `i`: no group pad, and no quaternion pad unless `i` reads a 32-bit view (R148). -/
def DataOffset (i : Instr) (fr : Frame) (o : Nat) : Prop :=
  padOffset (fr.chen.getLsbD 0) (fr.chen.getLsbD 1) (fr.chen.getLsbD 2) (fr.chen.getLsbD 3) o = false ∧
    ¬ (fr.chen.getLsbD 0 = true ∧ o < 16 ∧ 2 ≤ o % 4 ∧ i ∈ shortViews)

/-- The pads to `i`, group by group at the bases of R141, and the quaternion pads. -/
theorem dataOffset_iff {i : Instr} {fr : Frame} {o : Nat} : DataOffset i fr o ↔
    ¬ ((chenBit fr.chen 1 = 1 ∧ (o = gbase fr + 6 ∨ o = gbase fr + 7)) ∨
      (chenBit fr.chen 2 = 1 ∧ (o = mbase fr + 6 ∨ o = mbase fr + 7)) ∨
      (chenBit fr.chen 3 = 1 ∧ (o = abase fr + 2 ∨ o = abase fr + 3 ∨ o = abase fr + 6 ∨ o = abase fr + 7 ∨
        (abase fr + 10 ≤ o ∧ o ≤ abase fr + 15)))) ∧
    ¬ (chenBit fr.chen 0 = 1 ∧ o < 16 ∧ 2 ≤ o % 4 ∧ i ∈ shortViews) := by
  have hscale (b : Bool) (n : Nat) : (if b = true then n else 0) = n * b.toNat := by cases b <;> simp
  simp only [DataOffset, ← Bool.not_eq_true, padOffset, hscale, gbase, mbase, abase, chenBit, Bool.or_eq_true, Bool.and_eq_true,
    decide_eq_true_eq, Bool.toNat_eq_one, or_assoc]

/-- The first six cells of the GYRO group. -/
theorem dataOffset_gyro (i : Instr) {fr : Frame} {k : Nat} (hgyro : chenBit fr.chen 1 = 1) (hk : k < 6) :
    DataOffset i fr (gbase fr + k) := by
  simp only [dataOffset_iff, gbase, mbase, abase]
  omega

/-- The first six cells of the MAG group. -/
theorem dataOffset_mag (i : Instr) {fr : Frame} {k : Nat} (hmag : chenBit fr.chen 2 = 1) (hk : k < 6) :
    DataOffset i fr (mbase fr + k) := by
  simp only [dataOffset_iff, gbase, mbase, abase]
  omega

/-- The first two of every four cells of the ACCEL group, up to +9. -/
theorem dataOffset_accel (i : Instr) {fr : Frame} {k : Nat} (hk : k < 10 ∧ k % 4 < 2) : DataOffset i fr (abase fr + k) := by
  simp only [dataOffset_iff, gbase, mbase, abase]
  omega

/-- The first two of every four cells of the QUAT group. -/
theorem dataOffset_quat16 (i : Instr) {fr : Frame} {k : Nat} (hquat : chenBit fr.chen 0 = 1) (hk : k < 16 ∧ k % 4 < 2) :
    DataOffset i fr (qbase fr + k) := by
  simp only [dataOffset_iff, gbase, mbase, abase, qbase]
  omega

/-- Every cell of the QUAT group, for a command that reads a 32-bit view. -/
theorem dataOffset_quat32 {i : Instr} {fr : Frame} {k : Nat} (hi : i ∉ shortViews) (hquat : chenBit fr.chen 0 = 1)
    (hk : k < 16) : DataOffset i fr (qbase fr + k) := by
  simp only [dataOffset_iff, gbase, mbase, abase, qbase, hi, and_false, not_false_eq_true, and_true]
  omega

/-! ### Frames that differ in pads alone -/

/-- Two frames of one layout with the same byte at every offset that is no pad to `i`. -/
structure SameData (i : Instr) (fr fr' : Frame) : Prop where
  chen : fr'.chen = fr.chen
  byte : ∀ o, DataOffset i fr o → frameByte fr' o = frameByte fr o

namespace SameData

variable {i : Instr} {fr fr' : Frame}

theorem frameF16_eq (h : SameData i fr fr') {o : Nat} (h0 : DataOffset i fr o) (h1 : DataOffset i fr (o + 1)) :
    frameF16 fr' o = frameF16 fr o := by
  simp only [frameF16, framePattern16, h.byte _ h0, h.byte _ h1]

theorem gyroOf_eq (h : SameData i fr fr') (hgyro : chenBit fr.chen 1 = 1) : gyroOf fr' = gyroOf fr := by
  have hview {k : Nat} (hk : k < 5) : frameF16 fr' (gbase fr + k) = frameF16 fr (gbase fr + k) :=
    h.frameF16_eq (dataOffset_gyro i hgyro (by omega)) (dataOffset_gyro i hgyro (k := k + 1) (by omega))
  have hbase : gbase fr' = gbase fr := by simp only [gbase, h.chen]
  simp only [gyroOf, hbase, hview, Nat.reduceLT]

theorem magOf_eq (h : SameData i fr fr') (hmag : chenBit fr.chen 2 = 1) : magOf fr' = magOf fr := by
  have hview {k : Nat} (hk : k < 5) : frameF16 fr' (mbase fr + k) = frameF16 fr (mbase fr + k) :=
    h.frameF16_eq (dataOffset_mag i hmag (by omega)) (dataOffset_mag i hmag (k := k + 1) (by omega))
  have hbase : mbase fr' = mbase fr := by simp only [mbase, h.chen]
  simp only [magOf, hbase, hview, Nat.reduceLT]

theorem accelOf_eq (h : SameData i fr fr') : accelOf fr' = accelOf fr := by
  have hview {k : Nat} (hk : k < 9 ∧ k % 4 = 0) : frameF16 fr' (abase fr + k) = frameF16 fr (abase fr + k) :=
    h.frameF16_eq (dataOffset_accel i (by omega)) (dataOffset_accel i (k := k + 1) (by omega))
  have hbase : abase fr' = abase fr := by simp only [abase, h.chen]
  simp only [accelOf, hbase, hview, Nat.reduceLT, Nat.reduceMod, and_self]

/-- The 16-bit view of a quaternion component (R142). -/
theorem quatF16_eq (h : SameData i fr fr') (hquat : chenBit fr.chen 0 = 1) {k : Nat} (hk : k < 16 ∧ k % 4 = 0) :
    frameF16 fr' (qbase fr' + k) = frameF16 fr (qbase fr + k) :=
  h.frameF16_eq (dataOffset_quat16 i hquat (by omega)) (dataOffset_quat16 i hquat (k := k + 1) (by omega))

/-- The 32-bit view of a quaternion component (R142). -/
theorem quatF32_eq (h : SameData i fr fr') (hi : i ∉ shortViews) (hquat : chenBit fr.chen 0 = 1) {k : Nat} (hk : k < 13) :
    frameF32 fr' (qbase fr' + k) = frameF32 fr (qbase fr + k) := by
  have hbyte {j : Nat} (hj : j < 4) : frameByte fr' (qbase fr + k + j) = frameByte fr (qbase fr + k + j) :=
    h.byte _ (Nat.add_assoc _ k j ▸ dataOffset_quat32 hi hquat (by omega))
  have hbyte0 : frameByte fr' (qbase fr + k) = frameByte fr (qbase fr + k) := hbyte (j := 0) (by omega)
  have hbase : qbase fr' = qbase fr := rfl
  simp only [frameF32, framePattern32, hbase, hbyte0, hbyte, Nat.reduceLT]

theorem rawQuatOf_eq (h : SameData i fr fr') (hi : i ∉ shortViews) (hquat : chenBit fr.chen 0 = 1) :
    rawQuatOf fr' = rawQuatOf fr := by
  simp only [rawQuatOf, h.quatF32_eq hi hquat, Nat.reduceLT]

end SameData

/-! ### Exchanging the buffer -/

/-- The state with another buffer. -/
def withBuffer (m : Memory) (s : State) : State := { s with buf := m }

/-- What a command that needs `channels` does with a complete frame depends on its data bytes alone: on another frame of the same data, and
with any buffer beside it, it leaves the same state but for that buffer. -/
def IgnoresPads (i : Instr) (channels : List Channel) (k : Frame → State → State) : Prop :=
  ∀ (fr fr' : Frame) (s : State) (m : Memory), (∀ c ∈ channels, chenBit fr.chen (channelBit c) = 1) → SameData i fr fr' →
    k fr' (withBuffer m s) = withBuffer m (k fr s)

theorem withQuat_withBuffer {fr fr' : Frame} {k k' : RawQuat → State → State} {s : State} {m : Memory}
    (hraw : rawQuatOf fr' = rawQuatOf fr)
    (hk : k' (rawQuatOf fr) (withBuffer m s) = withBuffer m (k (rawQuatOf fr) s)) :
    withQuat fr' k' (withBuffer m s) = withBuffer m (withQuat fr k s) := by
  rw [withQuat, withQuat, hraw, hk, apply_ite (withBuffer m)]
  rfl

/-- A command that completes with words it computes from data bytes. -/
theorem IgnoresPads.of_words {i : Instr} {channels : List Channel} {words : Frame → State → List Word}
    (hwords : ∀ (fr fr' : Frame) (s : State) (m : Memory), (∀ c ∈ channels, chenBit fr.chen (channelBit c) = 1) →
      SameData i fr fr' → words fr' (withBuffer m s) = words fr s) :
    IgnoresPads i channels fun fr s => complete (words fr s) s := by
  intro fr fr' s m hchannels hdata
  exact congrArg (fun values => complete values (withBuffer m s)) (hwords fr fr' s m hchannels hdata)

/-- A command that reads the quaternion through its 32-bit views. -/
theorem IgnoresPads.of_rawQuat {i : Instr} {channels : List Channel} {k : Frame → RawQuat → State → State}
    (hi : i ∉ shortViews) (hquat : .quat ∈ channels) (hk : ∀ q, IgnoresPads i channels fun fr => k fr q) :
    IgnoresPads i channels fun fr => withQuat fr (k fr) := by
  intro fr fr' s m hchannels hdata
  exact withQuat_withBuffer (hdata.rawQuatOf_eq hi (hchannels .quat hquat)) (hk _ fr fr' s m hchannels hdata)

/-- `m` holds a value where the buffer of `s` does, and the same one at every offset that is no pad to `i`. -/
structure SameBufferData (i : Instr) (s : State) (m : Memory) : Prop where
  valid : ∀ a, (Memory.read m a).isSome = (Memory.read s.buf a).isSome
  value : ∀ a, DataOffset i ⟨[], s.chen⟩ a → Memory.read m a = Memory.read s.buf a

/-- The frames read from two such buffers hold the same data. -/
theorem SameBufferData.sameData {i : Instr} {s : State} {m : Memory} (h : SameBufferData i s m) {n : Nat}
    {bytes bytes' : List Byte} (hbytes : Memory.readRun s.buf 0 n = some bytes) (hbytes' : Memory.readRun m 0 n = some bytes') :
    SameData i ⟨bytes, s.chen⟩ ⟨bytes', s.chen⟩ where
  chen := rfl
  byte o ho := by rw [frameByte_of_readRun _ _ hbytes, frameByte_of_readRun _ _ hbytes', h.value o ho]

theorem decodeFrame_withBuffer {i : Instr} {channels : List Channel} {k : Frame → State → State} {s : State} {m : Memory}
    (hk : IgnoresPads i channels k) (h : SameBufferData i s m) :
    decodeFrame channels k (withBuffer m s) = withBuffer m (decodeFrame channels k s) := by
  have hnone := readRun_eq_none_congr (flenOf s.chen) h.valid
  rcases decodeFrame_cases channels k s with ⟨bytes, hneed, hbytes, hend⟩ | ⟨hneed, hbytes, hend⟩ | ⟨hneed, hend⟩ <;> rw [hend]
  case inl =>
    obtain ⟨bytes', hbytes'⟩ := Option.ne_none_iff_exists'.mp (mt hnone.mp (hbytes ▸ Option.some_ne_none bytes))
    have henabled : ∀ c ∈ channels, chenBit s.chen (channelBit c) = 1 := fun c hc =>
      chenBit_eq_one_iff.mpr (List.all_eq_true.mp hneed c hc)
    exact (decodeFrame_of_frame (s := withBuffer m s) k hneed hbytes').trans (hk _ _ s m henabled (h.sameData hbytes hbytes'))
  case inr.inl => exact decodeFrame_of_missing k hneed (hnone.mpr hbytes)
  case inr.inr => exact decodeFrame_of_absent k hneed

/-! ### The decode commands -/

/-- Every decode command is the prologue for the channels it needs in front of a body that ignores pads. -/
theorem exec_eq_decodeFrame {i : Instr} {need : List Nat} (hi : channelsOf i = some need) :
    ∃ channels k, channels.map channelBit = need ∧ (∀ s, exec i s = .next (decodeFrame channels k s)) ∧
      IgnoresPads i channels k := by
  cases i <;> simp only [channelsOf, Option.some.injEq, reduceCtorEq] at hi <;> subst hi
  case dq16 =>
    refine ⟨[.quat], _, rfl, fun _ => rfl, .of_words fun fr fr' _ _ hc hdata => ?_⟩
    simp only [hdata.quatF16_eq (hc .quat (by simp)), Nat.reduceLT, Nat.reduceMod, and_self]
  case dq32 =>
    refine ⟨[.quat], _, rfl, fun _ => rfl, .of_words fun fr fr' _ _ hc hdata => ?_⟩
    simp only [hdata.quatF32_eq (by decide) (hc .quat (by simp)), Nat.reduceLT]
  case dgyro =>
    exact ⟨[.gyro], _, rfl, fun _ => rfl, .of_words fun _ _ _ _ hc hdata =>
      congrArg intWords (hdata.gyroOf_eq (hc .gyro (by simp)))⟩
  case dacc =>
    exact ⟨[.accel], _, rfl, fun _ => rfl, .of_words fun _ _ _ _ _ hdata => congrArg intWords hdata.accelOf_eq⟩
  case dmag =>
    exact ⟨[.mag], _, rfl, fun _ => rfl, .of_words fun _ _ _ _ hc hdata =>
      congrArg intWords (hdata.magOf_eq (hc .mag (by simp)))⟩
  case dgyrof =>
    exact ⟨[.gyro], _, rfl, fun _ => rfl, .of_words fun _ _ s _ hc hdata =>
      congrArg (floatWords s.cfg.numerics) (hdata.gyroOf_eq (hc .gyro (by simp)))⟩
  case daccf =>
    exact ⟨[.accel], _, rfl, fun _ => rfl, .of_words fun _ _ s _ _ hdata =>
      congrArg (floatWords s.cfg.numerics) hdata.accelOf_eq⟩
  case dmagf =>
    exact ⟨[.mag], _, rfl, fun _ => rfl, .of_words fun _ _ s _ hc hdata =>
      congrArg (floatWords s.cfg.numerics) (hdata.magOf_eq (hc .mag (by simp)))⟩
  case dqf | dgrav | deuler | dypr =>
    exact ⟨[.quat], _, rfl, fun _ => rfl, .of_rawQuat (by decide) (by simp) fun q => .of_words fun _ _ _ _ _ _ => rfl⟩
  case dlinacc lp =>
    refine ⟨[.quat, .accel], _, rfl, fun _ => rfl, .of_rawQuat (by simp [shortViews]) (by simp) ?_⟩
    intro q fr fr' s m _ hdata
    simp only [hdata.accelOf_eq]
    cases lp <;> rfl

/-- Settles O54: exchanging the pads commutes with the command, and a missing byte of the frame, a pad or not, is refused by the prologue. -/
theorem padBytesDoNotMatter : Obligations.PadBytesDoNotMatter := by
  intro i need s hi
  obtain ⟨channels, k, rfl, hexec, hk⟩ := exec_eq_decodeFrame hi
  refine ⟨?value, ?valid⟩
  case value =>
    intro t t' m hvalid hvalue ht ht'
    have hdata : SameBufferData i s m := ⟨hvalid, fun a ha => hvalue a ha.1 ha.2⟩
    have hbuf : t' = withBuffer m t := by
      rw [hexec] at ht ht'
      cases ht
      cases ht'
      exact decodeFrame_withBuffer hk hdata
    subst hbuf
    exact ⟨rfl, rfl, rfl⟩
  case valid =>
    intro a henabled hlt hmissing _
    have hneed : channels.all (channelEnabled s.chen) = true :=
      List.all_eq_true.mpr fun c hc => henabled _ (List.mem_map_of_mem hc)
    have hnone : Memory.readRun s.buf 0 (flenOf s.chen) = none :=
      (Memory.readRun_eq_none _ _ _).mpr ⟨a, hlt, by rwa [Nat.zero_add]⟩
    exact ⟨_, (hexec s).trans (congrArg _ (decodeFrame_of_missing k hneed hnone)), raise_refusedWithoutEffect _ s⟩

end Sys2Proof.Machine
end

section
/-! What a completed command leaves (R217): idle, one response with the result words, everything else as before; and how the decoder answers
a word whose opcode is known (R74). -/

namespace Sys2Proof.Machine

/-- R10, R217: RES[0..RN−1] are the result words, whatever free values stand beyond them. -/
theorem take_resultRegs {words : List Word} (h : words.length ≤ 4) (n : Nat) :
    (ResultRegs.toList (resultRegs words n)).take words.length = words := by
  match words, h with
  | [], _ => rfl
  | [_], _ => rfl
  | [_, _], _ => rfl
  | [_, _, _], _ => rfl
  | [_, _, _, _], _ => rfl

theorem complete_response {words : List Word} (h : words.length ≤ 4) (s : State) :
    (complete words s).out = { status := .ok, words := words, ms := s.elapsed } :: s.out := by
  rw [complete_out, take_resultRegs h]

theorem complete_answeredOk {words : List Word} (h : words.length ≤ 4) (s : State) :
    answeredOk s (complete words s) words s.elapsed := by
  have hrn : (complete words s).rn.toNat = words.length := by
    rw [complete_rn, BitVec.toNat_ofNat, Nat.mod_eq_of_lt (by omega)]
  exact ⟨rfl, hrn, take_resultRegs h s.fresh, complete_response h s, rfl⟩

theorem complete_quietDecode (words : List Word) (s : State) : quietDecode s (complete words s) :=
  ⟨⟨rfl, rfl, rfl, rfl⟩, ⟨rfl, rfl, rfl, rfl, rfl⟩, fun _ => rfl, ⟨rfl, rfl, rfl⟩, ⟨rfl, rfl⟩⟩

theorem complete_sameFilter (words : List Word) (s : State) : sameFilter s (complete words s) := ⟨rfl, rfl⟩

/-! ### The decoder on a word of known opcode -/

/-- R74, R82: without reserved flag bits the opcode map alone decides. -/
theorem decodeWord_of_opcodeIs {w : CommandWord} {op : Byte} (h : opcodeIs w op) :
    decodeWord w = decodeOpcode { fieldsOf w with op := op } := by
  obtain ⟨rfl, hflags⟩ := h
  exact if_neg (not_not_intro ((reservedFlags_eq_zero_iff w).mpr hflags))

end Sys2Proof.Machine
end

section
/-! The control registers (R16 to R23): what CFGRD returns (R192), what CFGWR writes, and what both refuse (R193). -/

namespace Sys2Proof.Machine

/-! ### Reading -/

/-- The registers of R16 with their values: five are bits of the state, zero-extended; FLEN and BCAP are numbers already. -/
theorem csrRead_eq_some {num : Byte} {v : Nat} {s : State}
    (h : (num = 0 ∧ v = s.estk.toNat) ∨ (num = 1 ∧ v = s.tmod.toNat) ∨ (num = 2 ∧ v = s.chen.toNat) ∨
      (num = 3 ∧ v = s.lpfa.toNat) ∨ (num = 4 ∧ v = s.a1g.toNat) ∨ (num = 5 ∧ v = frameLength s.chen) ∨
      (num = 6 ∧ v = s.cfg.busCap)) :
    csrRead num s = some (BitVec.ofNat 32 v) := by
  rcases h with ⟨rfl, rfl⟩ | ⟨rfl, rfl⟩ | ⟨rfl, rfl⟩ | ⟨rfl, rfl⟩ | ⟨rfl, rfl⟩ | ⟨rfl, rfl⟩ | ⟨rfl, rfl⟩
  iterate 5 exact congrArg some (BitVec.ofNat_toNat 32 _).symm
  · rfl
  · rfl

theorem csrRead_eq_none {num : Byte} (s : State) (h : 7 ≤ num.toNat) : csrRead num s = none := by
  unfold csrRead
  split
  case h_8 => rfl
  all_goals omega

theorem exec_cfgrd_of_some {num : Byte} {s : State} {v : Word} (h : csrRead num s = some v) :
    exec (.cfgrd num) s = .next (complete [v] s) := by
  simp [exec, execCfgrd, h]

theorem exec_cfgrd_of_none {num : Byte} {s : State} (h : csrRead num s = none) :
    exec (.cfgrd num) s = .next (raise .callerContractViolation s) := by
  simp [exec, execCfgrd, h]

/-- Settles O55: a number of R16 completes with the register's value, any other is refused, and neither touches anything else. -/
theorem controlRegisterRead : Obligations.ControlRegisterRead := by
  refine ⟨fun w hw => decodeWord_of_opcodeIs hw, fun s num => ⟨?present, ?missing⟩⟩
  case present =>
    intro v hv
    exact ⟨_, exec_cfgrd_of_some (csrRead_eq_some hv), complete_answeredOk (by simp) s, complete_quietDecode _ s,
      complete_sameFilter _ s⟩
  case missing =>
    intro hnum
    exact ⟨_, exec_cfgrd_of_none (csrRead_eq_none s hnum), raise_refusedWithoutEffect _ s⟩

/-! ### Writing -/

/-- The high bits of a 16-bit value are 0 exactly when the low bits are all of it. -/
theorem highBits_eq_zero_iff {data : HalfWord} {k n : Nat} (h : k + n = 16) :
    data.extractLsb' k n = 0 ↔ data.toNat < 2 ^ k := by
  have hquot : data.toNat / 2 ^ k < 2 ^ n := by
    rw [Nat.div_lt_iff_lt_mul (by positivity), ← pow_add, Nat.add_comm n k, h]
    exact data.isLt
  rw [← BitVec.toNat_inj, BitVec.extractLsb'_toNat, Nat.shiftRight_eq_div_pow, Nat.mod_eq_of_lt hquot]
  simp [Nat.div_eq_zero_iff]

theorem estkWriteOk_iff {data : HalfWord} :
    estkWriteOk data = true ↔ data.getLsbD 0 = false ∧ data.toNat < 128 := by
  rw [estkWriteOk, Bool.and_eq_true, beq_iff_eq, highBits_eq_zero_iff (by rfl), Bool.not_eq_true']
  rfl

theorem chenWriteOk_iff {data : HalfWord} : chenWriteOk data = true ↔ data.toNat < 16 := by
  rw [chenWriteOk, beq_iff_eq, highBits_eq_zero_iff (by rfl)]
  rfl

/-- R17, R193: ESTK is write-1-to-clear. -/
theorem estkClear_getLsbD (estk : BitVec 7) (data : HalfWord) {k : Nat} (hk : k < 7) :
    (estkClear estk data).getLsbD k = (estk.getLsbD k && !data.getLsbD k) := by
  simp [estkClear, hk]

theorem csrWrite_estk {data : HalfWord} (s : State) (h : estkWriteOk data = true) :
    csrWrite 0 data s = some { s with estk := estkClear s.estk data } := if_pos h

theorem csrWrite_chen {data : HalfWord} (s : State) (h : chenWriteOk data = true) :
    csrWrite 2 data s = some { s with chen := BitVec.ofNat 4 data.toNat } := if_pos h

/-- What CFGWR refuses (R193): a bad value for ESTK, a bad value for CHEN, and every number that is no writable register. -/
theorem csrWrite_eq_none {num : Byte} {data : HalfWord} (s : State)
    (h : (num = 0 ∧ (data.getLsbD 0 = true ∨ 128 ≤ data.toNat)) ∨ (num = 2 ∧ 16 ≤ data.toNat) ∨ 5 ≤ num.toNat) :
    csrWrite num data s = none := by
  rcases h with ⟨rfl, hestk⟩ | ⟨rfl, hchen⟩ | hnum
  · refine if_neg fun hok => ?_
    obtain ⟨hlow, hhigh⟩ := estkWriteOk_iff.mp hok
    rcases hestk with hbit | hlarge
    · exact Bool.false_ne_true (hlow.symm.trans hbit)
    · omega
  · exact if_neg fun hok => absurd (chenWriteOk_iff.mp hok) (by omega)
  · unfold csrWrite
    split
    case h_6 => rfl
    all_goals omega

theorem exec_cfgwr_of_some {num : Byte} {data : HalfWord} {s s1 : State} (h : csrWrite num data s = some s1) :
    exec (.cfgwr num data) s = .next (complete [] s1) := by
  simp [exec, execCfgwr, h]

theorem exec_cfgwr_of_none {num : Byte} {data : HalfWord} {s : State} (h : csrWrite num data s = none) :
    exec (.cfgwr num data) s = .next (raise .callerContractViolation s) := by
  simp [exec, execCfgwr, h]

/-- The command completed, the settings hold these values, and nothing else changed. -/
def SettingsWritten (s t : State) (tmod : HalfWord) (chen : BitVec 4) (lpfa a1g : HalfWord) : Prop :=
  answeredOk s t [] s.elapsed ∧ noBusUse s t ∧ sameBuffer s t ∧ sameFilter s t ∧ samePorts s t ∧ sameLatches s t ∧
    t.tmod = tmod ∧ t.chen = chen ∧ t.lpfa = lpfa ∧ t.a1g = a1g ∧ t.cfg = s.cfg

/-- CFGWR to a register other than ESTK: one of the four settings has its new value, the others keep theirs. -/
theorem exec_cfgwr_settings {num : Byte} {data tmod lpfa a1g : HalfWord} {chen : BitVec 4} {s : State}
    (h : csrWrite num data s = some { s with tmod := tmod, chen := chen, lpfa := lpfa, a1g := a1g }) :
    ∃ t, exec (.cfgwr num data) s = .next t ∧ SettingsWritten s t tmod chen lpfa a1g :=
  ⟨_, exec_cfgwr_of_some h, complete_answeredOk (by simp) _, ⟨rfl, rfl, rfl, rfl⟩, fun _ => rfl, ⟨rfl, rfl⟩,
    ⟨rfl, rfl, rfl⟩, ⟨rfl, rfl⟩, rfl, rfl, rfl, rfl, rfl⟩

/-- Settles O56, register by register: ESTK is cleared bit by bit, each setting is written by its own number, and the rest is refused. -/
theorem controlRegisterWrite : Obligations.ControlRegisterWrite := by
  refine ⟨fun w hw => decodeWord_of_opcodeIs hw, fun s num data => ⟨?estk, ?tmod, ?chen, ?lpfa, ?a1g, ?refused⟩⟩
  case estk =>
    rintro rfl hlow hhigh
    exact ⟨_, exec_cfgwr_of_some (csrWrite_estk s (estkWriteOk_iff.mpr ⟨hlow, hhigh⟩)), rfl, rfl, rfl,
      fun _ => estkClear_getLsbD s.estk data, complete_quietDecode [] _, complete_sameFilter [] _⟩
  case tmod =>
    rintro rfl
    obtain ⟨t, hexec, hok, hbus, hbuf, hfilter, hports, hlatches, htmod, hrest⟩ :=
      exec_cfgwr_settings (s := s) (num := 1) (data := data) rfl
    exact ⟨t, hexec, hok, hbus, hbuf, hfilter, hports, hlatches, htmod, htmod, hrest⟩
  case chen =>
    rintro rfl hlt
    exact exec_cfgwr_settings (csrWrite_chen s (chenWriteOk_iff.mpr hlt))
  case lpfa =>
    rintro rfl
    exact exec_cfgwr_settings rfl
  case a1g =>
    rintro rfl
    exact exec_cfgwr_settings rfl
  case refused =>
    intro h
    exact ⟨_, exec_cfgwr_of_none (csrWrite_eq_none s h), raise_refusedWithoutEffect _ s⟩

end Sys2Proof.Machine
end

section
/-! Single bytes of DB: BUFRD (R194) and BUFWR (R195). -/

namespace Sys2Proof.Machine

theorem exec_bufrd_of_some {idx b : Byte} {s : State} (h : Memory.read s.buf idx.toNat = some b) :
    exec (.bufrd idx) s = .next (complete [BitVec.ofNat 32 b.toNat] s) := by
  simp [exec, execBufrd, h, zextByte]

theorem exec_bufrd_of_none {idx : Byte} {s : State} (h : Memory.read s.buf idx.toNat = none) :
    exec (.bufrd idx) s = .next (raise .callerContractViolation s) := by
  simp [exec, execBufrd, h]

theorem exec_bufwr (idx data : Byte) (s : State) :
    exec (.bufwr idx data) s = .next (complete [] { s with buf := Memory.write s.buf idx.toNat data }) := rfl

/-- R195: DATA[7:0] is the low byte of the word. -/
theorem lowByte_of_data (w : CommandWord) : (w.extractLsb' 0 16).setWidth 8 = w.extractLsb' 0 8 := by
  apply BitVec.eq_of_getLsbD_eq
  intro k hk
  have hk16 : k < 16 := by omega
  simp [hk, hk16]

/-- Settles O57: BUFRD by the byte's validity, BUFWR by what a store reads after one write. -/
theorem bufferByteAccess : Obligations.BufferByteAccess := by
  refine ⟨fun w => ⟨?decodeRead, ?decodeWrite⟩, fun s idx data => ⟨?valid, ?invalid, ?write⟩⟩
  case decodeRead => exact fun hw => decodeWord_of_opcodeIs hw
  case decodeWrite =>
    intro hw
    rw [← lowByte_of_data]
    exact decodeWord_of_opcodeIs hw
  case valid =>
    intro b hb
    exact ⟨_, exec_bufrd_of_some hb, complete_answeredOk (by simp) s, complete_quietDecode _ s, complete_sameFilter _ s⟩
  case invalid =>
    intro hnone
    exact ⟨_, exec_bufrd_of_none hnone, raise_refusedWithoutEffect _ s⟩
  case write =>
    exact ⟨_, exec_bufwr idx data s, complete_answeredOk (by simp) _, ⟨rfl, rfl, rfl, rfl⟩, ⟨rfl, rfl, rfl, rfl, rfl⟩,
      ⟨rfl, rfl⟩, ⟨rfl, rfl, rfl⟩, ⟨rfl, rfl⟩, Memory.read_write_same _ _ _, fun a ha => Memory.read_write_other _ _ _ a ha⟩

end Sys2Proof.Machine
end

section
/-! The filter after LARST (R196): with PV = 0 the filter passes its input on (R175), so `DLINACC lp` answers as `DLINACC`. -/

namespace Sys2Proof.Machine

/-! ### One decode command in two states -/

theorem decodePrologue_congr (need : List Channel) {s t : State} (hchen : t.chen = s.chen) (hbuf : t.buf = s.buf) :
    decodePrologue need t = decodePrologue need s := by
  simp only [decodePrologue, hchen, hbuf]

/-- A relation between the failures of two decode commands, and between what they do with the same frame, holds between the commands, when
they are given the same CHEN and DB. -/
theorem decodeFrame_rel {R : State → State → Prop} (need : List Channel) {k k' : Frame → State → State} {s t : State}
    (hchen : t.chen = s.chen) (hbuf : t.buf = s.buf) (hraise : ∀ f, R (raise f s) (raise f t))
    (hgo : ∀ fr, R (k fr s) (k' fr t)) : R (decodeFrame need k s) (decodeFrame need k' t) := by
  unfold decodeFrame
  rw [decodePrologue_congr need hchen hbuf]
  cases decodePrologue need s with
  | ok fr => exact hgo fr
  | error f => exact hraise f

/-- The same past the degenerate test, under one QEPS_SQ_RAW. -/
theorem withQuat_rel {R : State → State → Prop} (fr : Frame) {k k' : RawQuat → State → State} {s t : State}
    (hcfg : t.cfg = s.cfg) (hraise : ∀ f, R (raise f s) (raise f t)) (hgo : ∀ q, R (k q s) (k' q t)) :
    R (withQuat fr k s) (withQuat fr k' t) := by
  unfold withQuat
  rw [hcfg]
  split
  · exact hraise .decodeDegenerate
  · exact hgo _

/-! ### The start of a history -/

/-- `v` is what a command left of `s`, and `u` what one left of `t`: both gave one and the same response, and if it is OK, its words are
P in `u`, with PV = 1. -/
def StartsHistory (s t v u : State) : Prop :=
  ∃ r, u.out = r :: t.out ∧ v.out = r :: s.out ∧ (r.status = .ok → u.pv = true ∧ r.words = u.prev.toList)

theorem StartsHistory.raise (f : Failure) {s t : State} (helapsed : t.elapsed = s.elapsed) :
    StartsHistory s t (raise f s) (raise f t) :=
  ⟨⟨.failed f, [], s.elapsed⟩, by rw [raise_out, helapsed], raise_out f s, fun hok => by cases hok⟩

theorem StartsHistory.complete (y : Vec3 Word) {s t : State} (helapsed : t.elapsed = s.elapsed) :
    StartsHistory s t (complete y.toList s) (complete y.toList { t with prev := y, pv := true }) := by
  have hlen : y.toList.length ≤ 4 := by simp [Vec3.toList]
  exact ⟨⟨.ok, y.toList, s.elapsed⟩, by rw [complete_response hlen, helapsed], complete_response hlen s, fun _ => ⟨rfl, rfl⟩⟩

/-- R175: with PV = 0, `DLINACC lp` gives the response of `DLINACC` on the same frame and settings, and its words become P. -/
theorem dlinacc_startsHistory {s t : State} (hpv : t.pv = false) (hbuf : t.buf = s.buf) (hset : sameSettings s t)
    (helapsed : t.elapsed = s.elapsed) :
    ∃ u v, exec (.dlinacc true) t = .next u ∧ exec (.dlinacc false) s = .next v ∧ StartsHistory s t v u := by
  obtain ⟨-, hchen, -, ha1g, hcfg⟩ := hset
  refine ⟨_, _, rfl, rfl, decodeFrame_rel _ hchen hbuf (fun f => .raise f helapsed) fun fr => ?_⟩
  refine withQuat_rel fr hcfg (fun f => .raise f helapsed) fun q => ?_
  simp only [hpv, ha1g, hcfg]
  exact .complete ((linearAccel s.a1g (accelOf fr) (gravity q)).map (rndRat s.cfg.numerics)) helapsed

/-! ### LARST -/

/-- The filter state without a previous value (R24, R196): PV = 0, and P holds free values. -/
def filterCleared (s : State) : State :=
  { s with
    pv := false
    prev := ⟨Config.freeWord s.fresh, Config.freeWord (s.fresh + 1), Config.freeWord (s.fresh + 2)⟩
    fresh := s.fresh + 3 }

theorem exec_larst (s : State) : exec .larst s = .next (complete [] (filterCleared s)) := rfl

/-- Settles O58: LARST leaves PV = 0 and the frame and settings as they were, which is all `dlinacc_startsHistory` asks for. -/
theorem filterReset : Obligations.FilterReset := by
  refine ⟨fun w hw => decodeWord_of_opcodeIs hw, fun s => ?_⟩
  obtain ⟨u, v, hu, hv, r, hresponse⟩ :=
    dlinacc_startsHistory (s := s) (t := complete [] (filterCleared s)) rfl rfl ⟨rfl, rfl, rfl, rfl, rfl⟩ rfl
  exact ⟨_, exec_larst s, complete_answeredOk (by simp) (filterCleared s), rfl, complete_quietDecode [] (filterCleared s),
    u, v, r, hu, hv, hresponse⟩

end Sys2Proof.Machine
end

section
/-! How a command completes and fails (R217, R218), and what the decode prologue refuses (R140, R214). -/

namespace Sys2Proof.Machine

/-- Settles O19: the laws of `complete` and of `raise`, side by side. -/
theorem completionAndFailure : Obligations.CompletionAndFailure := by
  intro s values f hlen
  exact ⟨⟨complete_answeredOk hlen s, complete_quietDecode values s, complete_sameFilter values s⟩,
    raise_refusedWithoutEffect f s⟩

/-- The channel test of R140, in the CHEN bits of R214. -/
theorem all_channelEnabled_iff {channels : List Channel} {chen : BitVec 4} :
    channels.all (channelEnabled chen) = true ↔ ∀ c ∈ channels.map channelBit, chen.getLsbD c = true := by
  rw [List.all_eq_true, List.forall_mem_map]
  rfl

theorem all_channelEnabled_eq_false_iff {channels : List Channel} {chen : BitVec 4} :
    channels.all (channelEnabled chen) = false ↔ ∃ c ∈ channels.map channelBit, chen.getLsbD c = false := by
  rw [← Bool.not_eq_true, all_channelEnabled_iff]
  simp only [not_forall, Bool.not_eq_true, exists_prop]

/-- The frame cannot be read when one of its bytes holds no value. -/
theorem readRun_eq_none_of_missing {s : State} (h : ∃ a, a < frameLength s.chen ∧ Memory.read s.buf a = none) :
    Memory.readRun s.buf 0 (flenOf s.chen) = none := by
  obtain ⟨a, hlt, hmissing⟩ := h
  exact (Memory.readRun_eq_none _ _ _).mpr ⟨a, hlt, by rwa [Nat.zero_add]⟩

/-- Settles O43: the prologue tests the channels first and the bytes of the frame second, and refuses with `raise`. -/
theorem decodePrologueFailures : Obligations.DecodePrologueFailures := by
  intro i need s hi
  obtain ⟨channels, k, rfl, hexec, -⟩ := exec_eq_decodeFrame hi
  refine ⟨?absent, ?missing⟩
  case absent =>
    intro hoff
    have hend := decodeFrame_of_absent k (all_channelEnabled_eq_false_iff.mpr hoff)
    exact ⟨_, (hexec s).trans (congrArg _ hend), raise_refusedWithoutEffect _ s⟩
  case missing =>
    intro hon hmissing
    have hend := decodeFrame_of_missing k (all_channelEnabled_iff.mpr hon) (readRun_eq_none_of_missing hmissing)
    exact ⟨_, (hexec s).trans (congrArg _ hend), raise_refusedWithoutEffect _ s⟩

end Sys2Proof.Machine
end

section
/-! Which statuses a command can answer with (R210 to R216), by class of commands: over every bus command and every system command. -/

namespace Sys2Proof.Machine

/-- If a command begun with the responses `out` has answered in `t`, its status is one of `statuses`. -/
def RespondsIn (statuses : List Status) (out : List Response) (t : State) : Prop :=
  ∀ r, t.out = r :: out → r.status ∈ statuses

namespace RespondsIn

variable {statuses statuses' : List Status} {out : List Response} {s t : State}

/-- A state in which nothing was answered. -/
theorem of_silent (h : t.out = out) : RespondsIn statuses out t :=
  fun _ hr => absurd (hr.symm.trans h) (List.cons_ne_self _ _)

theorem raiseAt (ms : Nat) {f : Failure} (hf : .failed f ∈ statuses) (h : s.out = out) :
    RespondsIn statuses out (raiseAt ms f s) := by
  intro r hr
  rw [raiseAt_out, h] at hr
  obtain ⟨rfl, -⟩ := List.cons.inj hr
  exact hf

theorem raise {f : Failure} (hf : .failed f ∈ statuses) (h : s.out = out) : RespondsIn statuses out (raise f s) :=
  .raiseAt s.elapsed hf h

theorem complete (values : List Word) (hok : .ok ∈ statuses) (h : s.out = out) :
    RespondsIn statuses out (complete values s) := by
  intro r hr
  rw [complete_out, h] at hr
  obtain ⟨rfl, -⟩ := List.cons.inj hr
  exact hok

theorem ite {p : Prop} [Decidable p] (hs : RespondsIn statuses out s) (ht : RespondsIn statuses out t) :
    RespondsIn statuses out (if p then s else t) := by
  split
  · exact hs
  · exact ht

theorem mono (h : RespondsIn statuses out t) (hsub : statuses ⊆ statuses') : RespondsIn statuses' out t :=
  fun r hr => hsub (h r hr)

end RespondsIn

/-! ### Bus commands -/

/-- What a bus command can answer: OK, the three failures of a driver call (R211 to R213), and the refusal of its operands (R216). -/
def busStatuses : List Status :=
  [.ok, .failed .busTimeout, .failed .busNack, .failed .malformedResponse, .failed .callerContractViolation]

/-- Wherever the procedure is after an operation, nothing was answered so far, or it ended with an answer of a bus command. -/
def Flow.BusResponds {α : Type} (out : List Response) : Flow α → Prop :=
  Flow.Holds (fun _ t => t.out = out) (RespondsIn busStatuses out)

section
variable {s : State} {out : List Response}

theorem call_busResponds (c : BusCall) (h : s.out = out) : (call c s).BusResponds out := by
  cases hcall : call c s with
  | go bytes t =>
    obtain ⟨d, rfl, -, -⟩ := call_go hcall
    exact h
  | stop t =>
    rcases call_stop hcall with rfl | ⟨-, rfl⟩ | ⟨-, rfl⟩ | ⟨d, f, -, rfl | rfl, rfl⟩
    · exact .of_silent h
    · exact .of_silent h
    · exact .raiseAt _ (by decide) h
    · exact .raise (by decide) h
    · exact .raise (by decide) h

theorem memRead_busResponds (dev reg : Byte) (n : Nat) (h : s.out = out) : (memRead dev reg n s).BusResponds out :=
  (call_busResponds _ h).andThen fun _ _ ht => call_busResponds _ ht

theorem seqLoop_busResponds (dev reg : Byte) (inc : Bool) (cap n fuel : Nat) (got : List Byte) (h : s.out = out) :
    (seqLoop dev reg inc cap n fuel got s).BusResponds out := by
  induction fuel generalizing got s with
  | zero => exact h
  | succ fuel ih =>
    unfold seqLoop
    split
    · exact (memRead_busResponds dev _ _ h).andThen fun _ _ ht => ih _ ht
    · exact h

theorem readByteWith_respondsIn (dev reg : Byte) (f : Byte → Word) (h : s.out = out) :
    RespondsIn busStatuses out (readByteWith dev reg f s) :=
  (memRead_busResponds dev reg 1 h).finish fun _ _ ht => .complete _ (by decide) ht

theorem readWordWith_respondsIn (dev reg : Byte) (f : HalfWord → Word) (h : s.out = out) :
    RespondsIn busStatuses out (readWordWith dev reg f s) :=
  (memRead_busResponds dev reg 2 h).finish fun _ _ ht => .complete _ (by decide) ht

theorem readIntoBuffer_respondsIn (dev reg : Byte) (n : Nat) (inc : Bool) (unit : Nat) (h : s.out = out) :
    RespondsIn busStatuses out (readIntoBuffer dev reg n inc unit s) :=
  Flow.Holds.finish (seqLoop_busResponds dev reg inc _ n n [] h) fun _ _ ht => .complete _ (by decide) ht

theorem writeBytes_respondsIn (dev reg : Byte) (bytes : List Byte) (h : s.out = out) :
    RespondsIn busStatuses out (writeBytes dev reg bytes s) :=
  (call_busResponds (.write dev (reg :: bytes)) h).finish fun _ _ ht => .complete _ (by decide) ht

theorem modifyByte_respondsIn (dev reg : Byte) (f : Byte → Byte) (h : s.out = out) :
    RespondsIn busStatuses out (modifyByte dev reg f s) :=
  (memRead_busResponds dev reg 1 h).finish fun _ _ ht => writeBytes_respondsIn dev reg _ ht

theorem modifyWord_respondsIn (dev reg : Byte) (f : HalfWord → HalfWord) (h : s.out = out) :
    RespondsIn busStatuses out (modifyWord dev reg f s) :=
  (memRead_busResponds dev reg 2 h).finish fun _ _ ht => writeBytes_respondsIn dev reg _ ht

theorem writeFromBuffer_respondsIn (dev reg : Byte) (n : Nat) (h : s.out = out) :
    RespondsIn busStatuses out (writeFromBuffer dev reg n s) := by
  unfold writeFromBuffer
  refine .ite ?_ (.raise (by decide) h)
  split
  · exact writeBytes_respondsIn dev reg _ h
  · exact .raise (by decide) h

end

theorem exec_bus_respondsIn {i : Instr} {tmo : Timeout} (hi : timeoutOf i = some tmo) (s : State) :
    ∃ t, exec i s = .next t ∧ RespondsIn busStatuses s.out t := by
  have hrefused : RespondsIn busStatuses s.out (raise .callerContractViolation (busPrologue tmo s)) := .raise (by decide) rfl
  have hnoop : RespondsIn busStatuses s.out (complete [] (busPrologue tmo s)) := .complete _ (by decide) rfl
  cases i <;> simp only [timeoutOf, Option.some.injEq, reduceCtorEq] at hi <;> subst hi
  case rdbit | rdbits => exact ⟨_, rfl, .ite (readByteWith_respondsIn _ _ _ rfl) hrefused⟩
  case rdbitw | rdbitsw => exact ⟨_, rfl, .ite (readWordWith_respondsIn _ _ _ rfl) hrefused⟩
  case rdbyte => exact ⟨_, rfl, readByteWith_respondsIn _ _ _ rfl⟩
  case rdword => exact ⟨_, rfl, readWordWith_respondsIn _ _ _ rfl⟩
  case rdbytes => exact ⟨_, rfl, .ite hnoop (readIntoBuffer_respondsIn _ _ _ _ _ rfl)⟩
  case rdwords => exact ⟨_, rfl, .ite hnoop (.ite hrefused (readIntoBuffer_respondsIn _ _ _ _ _ rfl))⟩
  case wrbit | wrbits => exact ⟨_, rfl, .ite (modifyByte_respondsIn _ _ _ rfl) hrefused⟩
  case wrbitw | wrbitsw => exact ⟨_, rfl, .ite (modifyWord_respondsIn _ _ _ rfl) hrefused⟩
  case wrbyte | wrword => exact ⟨_, rfl, writeBytes_respondsIn _ _ _ rfl⟩
  case wrbytes | wrwords => exact ⟨_, rfl, .ite hnoop (writeFromBuffer_respondsIn _ _ _ rfl)⟩

/-! ### System commands -/

/-- What a system command can answer (R192 to R196). -/
def systemStatuses : List Status := [.ok, .failed .callerContractViolation]

/-- A control-register write answers nothing by itself. -/
theorem csrWrite_out {num : Byte} {data : HalfWord} {s s1 : State} (h : csrWrite num data s = some s1) : s1.out = s.out := by
  unfold csrWrite at h
  split at h
  case h_1 | h_3 => split at h <;> cases h; rfl
  case h_2 | h_4 | h_5 => cases h; rfl
  case h_6 => cases h

/-- A command that is neither a bus command nor a decode command is one of the five of R190. -/
theorem exec_system_respondsIn {i : Instr} (hbus : timeoutOf i = none) (hdecode : channelsOf i = none) (s : State) :
    ∃ t, exec i s = .next t ∧ RespondsIn systemStatuses s.out t := by
  cases i <;> simp only [timeoutOf, channelsOf, reduceCtorEq] at hbus hdecode
  case cfgrd num =>
    cases h : csrRead num s with
    | some v => exact ⟨_, exec_cfgrd_of_some h, .complete _ (by decide) rfl⟩
    | none => exact ⟨_, exec_cfgrd_of_none h, .raise (by decide) rfl⟩
  case cfgwr num data =>
    cases h : csrWrite num data s with
    | some s1 => exact ⟨_, exec_cfgwr_of_some h, .complete _ (by decide) (csrWrite_out h)⟩
    | none => exact ⟨_, exec_cfgwr_of_none h, .raise (by decide) rfl⟩
  case bufrd idx =>
    cases h : Memory.read s.buf idx.toNat with
    | some b => exact ⟨_, exec_bufrd_of_some h, .complete _ (by decide) rfl⟩
    | none => exact ⟨_, exec_bufrd_of_none h, .raise (by decide) rfl⟩
  case bufwr idx data => exact ⟨_, exec_bufwr idx data s, .complete _ (by decide) rfl⟩
  case larst => exact ⟨_, exec_larst s, .complete _ (by decide) rfl⟩

end Sys2Proof.Machine
end

section
/-! The degenerate quaternion (R163, R215): which commands test S against QEPS_SQ_RAW, and on which frames they refuse. -/

namespace Sys2Proof.Machine

/-! ### The raw quaternion of a frame, in the spec's own offsets -/

theorem normSq_eq_sumSquares (q : RawQuat) : normSq q = sumSquares q := by
  simp only [normSq, sumSquares, pow_two]

theorem rawQuatOf_eq_quatAt (fr : Frame) : rawQuatOf fr = quatAt (frameByte fr) := rfl

/-- R162: the raw quaternion is made of the first sixteen bytes. -/
theorem quatAt_congr {bs bs' : Nat → Byte} (h : ∀ a, a < 16 → bs a = bs' a) : quatAt bs = quatAt bs' := by
  simp only [quatAt, field32, h, Nat.reduceAdd, Nat.reduceLT]

theorem sumSquares_quatAt_zero {bs : Nat → Byte} (h : ∀ a, a < 16 → bs a = 0) : sumSquares (quatAt bs) = 0 := by
  rw [quatAt_congr (bs' := fun _ => 0) h]
  rfl

/-- A complete frame can be read. -/
theorem frameHolds.readRun {s : State} {bs : Nat → Byte} (h : frameHolds s bs) :
    ∃ bytes, Memory.readRun s.buf 0 (flenOf s.chen) = some bytes := by
  refine Option.ne_none_iff_exists'.mp fun hnone => ?_
  obtain ⟨a, hlt, hread⟩ := (Memory.readRun_eq_none _ _ _).mp hnone
  rw [Nat.zero_add, h a hlt] at hread
  cases hread

/-- A frame that was read is complete. -/
theorem frameHolds_of_readRun {s : State} {bytes : List Byte} (h : Memory.readRun s.buf 0 (flenOf s.chen) = some bytes) :
    frameHolds s (frameByte ⟨bytes, s.chen⟩) := by
  intro a hlt
  obtain ⟨hlen, hread⟩ := (Memory.readRun_eq_some _ _ _ _).mp h
  have ha : a < bytes.length := by rwa [hlen]
  have hbyte := hread a hlt
  rw [Nat.zero_add] at hbyte
  rw [hbyte, frameByte, List.getD_eq_getElem?_getD, List.getElem?_eq_getElem ha, Option.getD_some]

/-- With the QUAT channel on, the frame read from DB holds the quaternion of DB's first sixteen bytes (R141). -/
theorem rawQuatOf_of_frameHolds {s : State} {bs : Nat → Byte} {bytes : List Byte} (hquat : s.chen.getLsbD 0 = true)
    (h : frameHolds s bs) (hbytes : Memory.readRun s.buf 0 (flenOf s.chen) = some bytes) :
    rawQuatOf ⟨bytes, s.chen⟩ = quatAt bs := by
  refine quatAt_congr fun a ha => ?_
  have hlt : a < frameLength s.chen := by
    simp only [frameLength, hquat, Bool.toNat_true]
    omega
  exact Option.some.inj ((frameHolds_of_readRun hbytes a hlt).symm.trans (h a hlt))

/-! ### The commands that make the degenerate test -/

/-- The commands that normalise the quaternion (R215). -/
def Normalises (i : Instr) : Prop := i = .dqf ∨ i = .dgrav ∨ i = .deuler ∨ i = .dypr ∨ ∃ lp, i = .dlinacc lp

/-- Each of them is the prologue, then the degenerate test, then a body that completes. -/
theorem exec_eq_withQuat {i : Instr} (hi : Normalises i) :
    ∃ (channels : List Channel) (k : Frame → RawQuat → State → State), channelsOf i = some (channels.map channelBit) ∧
      (∀ s, exec i s = .next (decodeFrame channels (fun fr => withQuat fr (k fr)) s)) ∧
      ∀ fr q s, RespondsIn [.ok] s.out (k fr q s) := by
  rcases hi with rfl | rfl | rfl | rfl | ⟨lp, rfl⟩
  case inr.inr.inr.inr =>
    exact ⟨[.quat, .accel], _, rfl, fun _ => rfl, fun _ _ _ => .ite (.complete _ (by decide) rfl) (.complete _ (by decide) rfl)⟩
  all_goals exact ⟨[.quat], _, rfl, fun _ => rfl, fun _ _ _ => .complete _ (by decide) rfl⟩

/-- R163: a complete frame with a short quaternion is refused, whatever the command does with a longer one. -/
theorem decodeFrame_of_short {channels : List Channel} {s : State} {bs : Nat → Byte} (k : Frame → RawQuat → State → State)
    (hon : channels.all (channelEnabled s.chen) = true) (hquat : s.chen.getLsbD 0 = true) (hframe : frameHolds s bs)
    (hshort : sumSquares (quatAt bs) < s.cfg.qepsSqRaw) :
    decodeFrame channels (fun fr => withQuat fr (k fr)) s = raise .decodeDegenerate s := by
  obtain ⟨bytes, hbytes⟩ := hframe.readRun
  rw [decodeFrame_of_frame _ hon hbytes]
  refine if_pos ?_
  rwa [normSq_eq_sumSquares, rawQuatOf_of_frameHolds hquat hframe hbytes]

/-! ### Every other answer -/

/-- What a decode command can answer beside DecodeDegenerate (R214, R216). -/
def decodeStatuses : List Status := [.ok, .failed .channelNotPresent, .failed .callerContractViolation]

/-- Every status but DecodeDegenerate (R210). -/
def otherStatuses : List Status := .failed .channelNotPresent :: busStatuses

/-- The prologue itself answers ChannelNotPresent or CallerContractViolation (R140). -/
theorem decodeFrame_respondsIn {k : Frame → State → State} {s : State} (channels : List Channel)
    (hk : ∀ bytes, Memory.readRun s.buf 0 (flenOf s.chen) = some bytes → RespondsIn [.ok] s.out (k ⟨bytes, s.chen⟩ s)) :
    RespondsIn decodeStatuses s.out (decodeFrame channels k s) := by
  rcases decodeFrame_cases channels k s with ⟨bytes, -, hbytes, hend⟩ | ⟨-, -, hend⟩ | ⟨-, hend⟩ <;> rw [hend]
  · exact (hk bytes hbytes).mono (by decide)
  · exact .raise (by decide) rfl
  · exact .raise (by decide) rfl

/-- A decode command that does not normalise completes with every complete frame. -/
theorem exec_decode_respondsIn {i : Instr} {need : List Nat} (hi : channelsOf i = some need) (hraw : ¬ Normalises i) (s : State) :
    ∃ t, exec i s = .next t ∧ RespondsIn decodeStatuses s.out t := by
  cases i <;> simp only [channelsOf, reduceCtorEq] at hi
  case dqf | dgrav | deuler | dypr | dlinacc => exact absurd (by simp [Normalises]) hraw
  all_goals exact ⟨_, rfl, decodeFrame_respondsIn _ fun _ _ => .complete _ (by decide) rfl⟩

/-- R163: one that normalises completes with every complete frame whose quaternion is not short. -/
theorem withQuat_respondsIn {k : Frame → RawQuat → State → State} {s : State} (channels : List Channel)
    (hk : ∀ fr q s, RespondsIn [.ok] s.out (k fr q s))
    (hlong : ∀ bs, frameHolds s bs → ¬ sumSquares (quatAt bs) < s.cfg.qepsSqRaw) :
    RespondsIn decodeStatuses s.out (decodeFrame channels (fun fr => withQuat fr (k fr)) s) := by
  refine decodeFrame_respondsIn channels fun bytes hbytes => ?_
  have hnorm : ¬ normSq (rawQuatOf ⟨bytes, s.chen⟩) < s.cfg.qepsSqRaw := by
    rw [normSq_eq_sumSquares]
    exact hlong _ (frameHolds_of_readRun hbytes)
  rw [withQuat, if_neg hnorm]
  exact hk _ _ s

/-- Over all 34 commands: one that does not normalise, or finds no short quaternion, answers another status. -/
theorem exec_respondsIn_otherStatuses {i : Instr} {s : State}
    (h : ¬ (Normalises i ∧ ∃ bs, frameHolds s bs ∧ sumSquares (quatAt bs) < s.cfg.qepsSqRaw)) :
    ∃ t, exec i s = .next t ∧ RespondsIn otherStatuses s.out t := by
  by_cases hi : Normalises i
  case pos =>
    obtain ⟨channels, k, -, hexec, hk⟩ := exec_eq_withQuat hi
    have hlong : ∀ bs, frameHolds s bs → ¬ sumSquares (quatAt bs) < s.cfg.qepsSqRaw :=
      fun bs hframe hshort => h ⟨hi, bs, hframe, hshort⟩
    exact ⟨_, hexec s, (withQuat_respondsIn channels hk hlong).mono (by decide)⟩
  case neg =>
    cases hbus : timeoutOf i with
    | some tmo =>
      obtain ⟨t, hexec, ht⟩ := exec_bus_respondsIn hbus s
      exact ⟨t, hexec, ht.mono (by decide)⟩
    | none =>
      cases hdecode : channelsOf i with
      | some need =>
        obtain ⟨t, hexec, ht⟩ := exec_decode_respondsIn hdecode hi s
        exact ⟨t, hexec, ht.mono (by decide)⟩
      | none =>
        obtain ⟨t, hexec, ht⟩ := exec_system_respondsIn hbus hdecode s
        exact ⟨t, hexec, ht.mono (by decide)⟩

/-! ### The statement -/

/-- The commands of R215 with the channels they read on. -/
theorem normalises_of_enabled {i : Instr} {lp : Bool} {s : State} (hquat : s.chen.getLsbD 0 = true)
    (hi : i = .dqf ∨ i = .dgrav ∨ i = .deuler ∨ i = .dypr ∨ (i = .dlinacc lp ∧ s.chen.getLsbD 3 = true)) :
    Normalises i ∧ ∀ need, channelsOf i = some need → ∀ c ∈ need, s.chen.getLsbD c = true := by
  rcases hi with rfl | rfl | rfl | rfl | ⟨rfl, haccel⟩
  case inr.inr.inr.inr => simp [Normalises, channelsOf, hquat, haccel]
  all_goals simp [Normalises, channelsOf, hquat]

/-- Settles O44: a short quaternion is refused by the degenerate test, and every other end of a command answers another status. -/
theorem shortQuaternionIsDegenerate : Obligations.ShortQuaternionIsDegenerate := by
  refine ⟨?short, ?only⟩
  case short =>
    intro s bs lp i hi hquat hframe hshort
    have hlt : sumSquares (quatAt bs) < s.cfg.qepsSqRaw := by
      rcases hshort with hlt | hzero
      · exact hlt
      · rw [sumSquares_quatAt_zero hzero]
        exact_mod_cast s.cfg.qepsSqRaw_ge
    obtain ⟨hnorm, henabled⟩ := normalises_of_enabled hquat hi
    obtain ⟨channels, k, hneed, hexec, -⟩ := exec_eq_withQuat hnorm
    have hon := all_channelEnabled_iff.mpr (henabled _ hneed)
    exact ⟨_, (hexec s).trans (congrArg _ (decodeFrame_of_short k hon hquat hframe hlt)), raise_refusedWithoutEffect _ s⟩
  case only =>
    intro i s t r ht hout hstatus
    by_contra hother
    obtain ⟨t', ht', hresponds⟩ := exec_respondsIn_otherStatuses hother
    obtain rfl : t' = t := Host.Outcome.next.inj (ht'.symm.trans ht)
    have hmem := hresponds r hout
    rw [hstatus] at hmem
    exact absurd hmem (by decide)

end Sys2Proof.Machine
end

section
/-! The decoder and the encoder against each other: what the decoder reads of an assembled word (R70 to R74, R80), and the field-use table R71. -/

namespace Sys2Proof

/-! ### The operands in the fields of an encoded command -/

theorem busFlags_reserved (tmo : Timeout) (inc : Bool) : busFlags tmo inc >>> 3 = 0 := by
  cases tmo <;> cases inc <;> simp [busFlags]

/-- TD and TMO carry the timeout operand (R45, R72). -/
@[simp] theorem timeout_busFields (op dev reg start len : Byte) (tmo : Timeout) (inc : Bool) (data : HalfWord) :
    Fields.timeout ⟨op, dev, reg, start, len, busFlags tmo inc, tmoField tmo, data⟩ = tmo := by
  cases tmo <;> cases inc <;> simp [Fields.timeout, busFlags, tmoField]

/-- AI carries the increment operand (R72). -/
@[simp] theorem ai_busFields (op dev reg start len : Byte) (tmo : Timeout) (inc : Bool) (data : HalfWord) :
    Fields.ai ⟨op, dev, reg, start, len, busFlags tmo inc, tmoField tmo, data⟩ = inc := by
  cases tmo <;> cases inc <;> simp [Fields.ai, busFlags]

/-- DATA[0] carries the bit of a single-bit write (R73). -/
theorem bitData_getElem (bit : Bool) : (bitData bit)[0] = bit := by cases bit <;> rfl

/-- DATA[7:0] carries the byte of a byte write (R73). -/
theorem byteData_setWidth (b : Byte) : (b.setWidth 16).setWidth 8 = b := by
  rw [BitVec.setWidth_setWidth_of_le _ (by omega), BitVec.setWidth_eq]

/-! ### The decoder on an assembled word -/

theorem decodeWord_busWord (op dev reg : Byte) (tmo : Timeout) (start len : Byte) (inc : Bool) (data : HalfWord) :
    decodeWord (busWord op dev reg tmo start len inc data) =
      decodeOpcode ⟨op, dev, reg, start, len, busFlags tmo inc, tmoField tmo, data⟩ :=
  (decodeWord_wordOf _).trans (if_neg (not_not_intro (busFlags_reserved tmo inc)))

theorem decodeWord_plainWord (op reg : Byte) {flags : Byte} (data : HalfWord) (h : flags >>> 3 = 0) :
    decodeWord (plainWord op reg flags data) = decodeOpcode ⟨op, 0, reg, 0, 0, flags, 0, data⟩ :=
  (decodeWord_wordOf _).trans (if_neg (not_not_intro h))

/-- The decoder reads an encoded command back: its opcode picks its own arm of R74, and the arm takes its operands. -/
theorem decodeWord_encode (i : Instr) : decodeWord (encode i) = .ok i := by
  cases i
  case rdbit | rdbitw | rdbits | rdbitsw | rdbyte | rdword | rdbytes | rdwords | wrbits | wrbitsw | wrbyte | wrword | wrbytes | wrwords =>
    simp [encode, decodeWord_busWord, decodeOpcode]
  case wrbit | wrbitw => simp [encode, decodeWord_busWord, decodeOpcode, bitData_getElem]
  case dlinacc lp =>
    cases lp <;> exact decodeWord_plainWord 0x4F 0 0 rfl
  case bufwr idx data =>
    rw [encode, decodeWord_plainWord _ _ _ rfl]
    exact congrArg (fun b => Except.ok (Instr.bufwr idx b)) (byteData_setWidth data)
  all_goals exact decodeWord_plainWord _ _ _ rfl

/-- Settles O1: the word is read back, and its ten bytes carry it unchanged. -/
theorem decodeReadsEveryEncodedCommand : Obligations.DecodeReadsEveryEncodedCommand :=
  fun i => ⟨decodeWord_encode i, (decode_bytesOfWord (encode i)).trans (decodeWord_encode i)⟩

/-! ### Which words are commands -/

theorem decodeOpcode_of_mem {f : Fields} (h : f.op.toNat ∈ Machine.opcodeList) : ∃ i, decodeOpcode f = .ok i := by
  unfold decodeOpcode
  split
  case h_35 => simp_all [Machine.opcodeList]
  all_goals exact ⟨_, rfl⟩

/-- A word without reserved flag bits is decoded by its opcode alone. -/
theorem decodeWord_of_unreserved {w : CommandWord} (h : (fieldsOf w).flags >>> 3 = 0) :
    decodeWord w = decodeOpcode (fieldsOf w) := if_neg (not_not_intro h)

/-- A command has no reserved flag bit, and its opcode is in the map (R75, R82). -/
theorem unreserved_of_decodeWord {w : CommandWord} {i : Instr} (h : decodeWord w = .ok i) :
    (fieldsOf w).flags >>> 3 = 0 ∧ decodeOpcode (fieldsOf w) = .ok i := by
  unfold decodeWord at h
  by_cases hflags : (fieldsOf w).flags >>> 3 = 0
  · exact ⟨hflags, by rwa [if_neg (not_not_intro hflags)] at h⟩
  · rw [if_pos hflags] at h
    cases h

/-- Settles O3: a reserved encoding is rejected, and every other word has an arm in R74. -/
theorem commandsAreTheOpcodeTable : Obligations.CommandsAreTheOpcodeTable := by
  intro w
  constructor
  · rintro ⟨i, hi⟩
    by_contra hreserved
    obtain ⟨e, he⟩ := decodeWord_reserved (not_and_or.mp hreserved)
    rw [hi] at he
    cases he
  · rintro ⟨hflags, hop⟩
    rw [decodeWord_of_unreserved ((reservedFlags_eq_zero_iff w).mpr hflags)]
    exact decodeOpcode_of_mem hop

/-- Settles O4: the printed words, evaluated. -/
theorem exampleWordsDecode : Obligations.ExampleWordsDecode :=
  ⟨rfl, rfl, rfl, rfl, rfl, rfl⟩

/-! ### The bits a command uses (R71) -/

open Laws.EncodedOpcode (wordOf_and and_ff and_ffff)
open Machine (busMask plainMask usedBits)

/-- The bit TD that `busFlags` writes for a timeout operand (R72). -/
theorem busFlags_getLsbD {tmo : Timeout} {inc : Bool} {k : Nat} (hk : k < 8) :
    (busFlags tmo inc).getLsbD k = ((decide (k = 0) && decide (tmo = .default)) || (decide (k = 1) && inc)) := by
  cases tmo <;> cases inc <;> interval_cases k <;> simp [busFlags]

theorem timeout_eq_default (f : Fields) : decide (f.timeout = .default) = f.flags.getLsbD 0 := by
  unfold Fields.timeout
  split <;> simp_all

/-- Re-encoding the flags keeps TD, and AI where it is used. -/
theorem busFlags_timeout (f : Fields) (useAi : Bool) :
    busFlags f.timeout (useAi && f.ai) = f.flags &&& (if useAi then 3 else 1) := by
  apply BitVec.eq_of_getLsbD_eq
  intro k hk
  rw [busFlags_getLsbD hk, timeout_eq_default, BitVec.getLsbD_and, Fields.ai]
  interval_cases k <;> cases useAi <;> simp

theorem tmo_of_timeout_ms {f : Fields} {v : HalfWord} (h : f.timeout = .ms v) : v = f.tmo := by
  unfold Fields.timeout at h
  split at h <;> cases h
  rfl

/-- A bus command's word, re-encoded from fields of which it uses START, LEN and AI as the flags say, and DATA under `mask`. -/
theorem busWord_eq_and {f : Fields} {op start len : Byte} {inc : Bool} {data mask : HalfWord} (useStart useLen useAi : Bool)
    (hop : f.op = op) (hstart : start = f.start &&& (if useStart then 0xFF else 0))
    (hlen : len = f.len &&& (if useLen then 0xFF else 0)) (hinc : inc = (useAi && f.ai)) (hdata : data = f.data &&& mask) :
    busWord op f.dev f.reg f.timeout start len inc data = wordOf f &&& busMask f.timeout useStart useLen useAi mask := by
  subst hop hstart hlen hinc hdata
  have hflags := busFlags_timeout f useAi
  cases htmo : f.timeout with
  | default =>
    rw [htmo] at hflags
    rw [busWord, busMask, wordOf_and, hflags]
    simp only [and_ff, tmoField]
    simp
  | ms v =>
    rw [htmo] at hflags
    rw [busWord, busMask, wordOf_and, hflags]
    simp only [and_ff, tmoField, tmo_of_timeout_ms htmo, and_ffff]

/-- The word of another command, re-encoded from fields of which it uses REG and LP as the flags say, and DATA under `mask`. -/
theorem plainWord_eq_and {f : Fields} {op reg flags : Byte} {data mask : HalfWord} (useReg useLp : Bool)
    (hop : f.op = op) (hreg : reg = f.reg &&& (if useReg then 0xFF else 0))
    (hflags : flags = f.flags &&& (if useLp then 4 else 0)) (hdata : data = f.data &&& mask) :
    plainWord op reg flags data = wordOf f &&& plainMask useReg useLp mask := by
  subst hop hreg hflags hdata
  rw [plainWord, plainMask, wordOf_and]
  simp only [and_ff]
  simp

theorem bitData_eq_and (data : HalfWord) : bitData (data.getLsbD 0) = data &&& 1 := by
  apply BitVec.eq_of_getLsbD_eq
  intro k hk
  cases h : data.getLsbD 0 <;> cases k <;> simp_all [bitData]

theorem byteData_eq_and (data : HalfWord) : (data.setWidth 8).setWidth 16 = data &&& 0xFF := by
  apply BitVec.eq_of_toNat_eq
  have hmask : data.toNat &&& 255 = data.toNat % 256 := Nat.and_two_pow_sub_one_eq_mod _ 8
  simp only [BitVec.toNat_setWidth, BitVec.toNat_and, BitVec.reduceToNat, hmask]
  omega

theorem lpFlags_eq_and (f : Fields) : (if f.lp then 4 else 0 : Byte) = f.flags &&& 4 := by
  apply BitVec.eq_of_getLsbD_eq
  intro k hk
  unfold Fields.lp
  interval_cases k <;> cases h : f.flags.getLsbD 2 <;> simp_all

/-- R71 on the fields: re-encoding what an arm of R74 takes of them gives the bits it uses. -/
theorem encode_of_decodeOpcode {f : Fields} {i : Instr} (h : decodeOpcode f = .ok i) :
    encode i = wordOf f &&& usedBits i := by
  have hop {op : Byte} (hval : f.op.toNat = op.toNat) : f.op = op := BitVec.eq_of_toNat_eq hval
  have hzero {w : Nat} (x : BitVec w) : 0 = x &&& 0 := BitVec.and_zero.symm
  have hbyte (x : Byte) : x = x &&& 0xFF := (and_ff x).symm
  have hhalf (x : HalfWord) : x = x &&& 0xFFFF := (and_ffff x).symm
  unfold decodeOpcode at h
  split at h <;> cases h
  iterate 2 exact busWord_eq_and true false false (hop ‹_›) (hbyte _) (hzero _) rfl (hzero _)
  iterate 2 exact busWord_eq_and true true false (hop ‹_›) (hbyte _) (hbyte _) rfl (hzero _)
  iterate 2 exact busWord_eq_and false false false (hop ‹_›) (hzero _) (hzero _) rfl (hzero _)
  iterate 2 exact busWord_eq_and false true true (hop ‹_›) (hzero _) (hbyte _) rfl (hzero _)
  iterate 2 exact busWord_eq_and true false false (hop ‹_›) (hbyte _) (hzero _) rfl (bitData_eq_and _)
  iterate 2 exact busWord_eq_and true true false (hop ‹_›) (hbyte _) (hbyte _) rfl (hhalf _)
  · exact busWord_eq_and false false false (hop ‹_›) (hzero _) (hzero _) rfl (byteData_eq_and _)
  · exact busWord_eq_and false false false (hop ‹_›) (hzero _) (hzero _) rfl (hhalf _)
  iterate 2 exact busWord_eq_and false true false (hop ‹_›) (hzero _) (hbyte _) rfl (hzero _)
  iterate 12 exact plainWord_eq_and false false (hop ‹_›) (hzero _) (hzero _) (hzero _)
  · exact plainWord_eq_and false true (hop ‹_›) (hzero _) (lpFlags_eq_and f) (hzero _)
  · exact plainWord_eq_and true false (hop ‹_›) (hbyte _) (hzero _) (hzero _)
  · exact plainWord_eq_and true false (hop ‹_›) (hbyte _) (hzero _) (hhalf _)
  · exact plainWord_eq_and true false (hop ‹_›) (hbyte _) (hzero _) (hzero _)
  · exact plainWord_eq_and true false (hop ‹_›) (hbyte _) (hzero _) (byteData_eq_and _)
  · exact plainWord_eq_and false false (hop ‹_›) (hzero _) (hzero _) (hzero _)

/-- Settles O2: the word is its fields, and each arm keeps of them what the field table R71 says. -/
theorem decodeKeepsExactlyTheUsedBits : Obligations.DecodeKeepsExactlyTheUsedBits := by
  intro w i hi
  obtain ⟨-, harm⟩ := unreserved_of_decodeWord hi
  rw [encode_of_decodeOpcode harm, wordOf_fieldsOf]

end Sys2Proof
end

section
/-! Field arithmetic (R78), bit by bit, and the single-bit commands as bit-runs of length 1. -/

namespace Sys2Proof.Machine

/-! ### The bits of a field -/

/-- The mask has exactly the bits of the run. -/
theorem fieldMask_getLsbD {w start len k : Nat} (hlen : len ≤ start + 1) (hk : k < w) :
    (fieldMask w start len).getLsbD k = decide (start + 1 - len ≤ k ∧ k ≤ start) := by
  rw [fieldMask, BitVec.getLsbD_ofNat, fieldShift, Nat.testBit_mul_two_pow, Nat.testBit_two_pow_sub_one, decide_eq_true hk,
    Bool.true_and, ← Bool.decide_and, decide_eq_decide]
  omega

section
variable {w : Nat} (x v : BitVec w) {start len : Nat}

theorem extractField_getLsbD (hlen : len ≤ start + 1) (k : Nat) :
    (extractField x start len).getLsbD k = (decide (k < len) && x.getLsbD (start + 1 - len + k)) := by
  rw [extractField, BitVec.getLsbD_ushiftRight, BitVec.getLsbD_and, fieldShift]
  by_cases hk : start + 1 - len + k < w
  · rw [fieldMask_getLsbD hlen hk, Bool.and_comm]
    congr 1
    rw [decide_eq_decide]
    omega
  · rw [BitVec.getLsbD_of_ge x _ (by omega)]
    simp

theorem insertField_getLsbD (hlen : len ≤ start + 1) {k : Nat} (hk : k < w) :
    (insertField x start len v).getLsbD k =
      (if start + 1 - len ≤ k ∧ k ≤ start then v.getLsbD (k - (start + 1 - len)) else x.getLsbD k) := by
  simp only [insertField, BitVec.getLsbD_or, BitVec.getLsbD_and, BitVec.getLsbD_not, BitVec.getLsbD_shiftLeft,
    fieldMask_getLsbD hlen hk, hk, fieldShift, decide_true, Bool.true_and]
  split
  case isTrue hrun => simp [hrun, Nat.not_lt.mpr hrun.1]
  case isFalse hout => simp only [decide_eq_false hout, Bool.not_false, Bool.and_true, Bool.and_false, Bool.or_false]

/-- Inserting uses the low `len` bits of the value only. -/
theorem insertField_congr {v' : BitVec w} (hlen : len ≤ start + 1)
    (h : ∀ j, j < len → v.getLsbD j = v'.getLsbD j) : insertField x start len v = insertField x start len v' := by
  apply BitVec.eq_of_getLsbD_eq
  intro k hk
  rw [insertField_getLsbD x v hlen hk, insertField_getLsbD x v' hlen hk]
  split
  · exact h _ (by omega)
  · rfl

/-- Reading back an inserted value, bit by bit. -/
theorem extractField_insertField_getLsbD (hstart : start < w) (hlen : len ≤ start + 1) (k : Nat) :
    (extractField (insertField x start len v) start len).getLsbD k = (decide (k < len) && v.getLsbD k) := by
  rw [extractField_getLsbD _ hlen]
  by_cases hk : k < len
  · rw [insertField_getLsbD x v hlen (by omega), if_pos (by omega), Nat.add_sub_cancel_left]
  · simp [hk]

end

/-- Settles O24: both sides have the same bits. -/
theorem extractReadsTheRun : Obligations.ExtractReadsTheRun := by
  intro w x start len hstart _ hlen
  apply Nat.eq_of_testBit_eq
  intro k
  rw [BitVec.testBit_toNat, extractField_getLsbD x hlen, Nat.testBit_mod_two_pow, Nat.testBit_div_two_pow,
    BitVec.testBit_toNat, Nat.add_comm k]

/-- Settles O25: `insertField_getLsbD`, which says each bit of the result. -/
theorem insertReplacesExactlyTheRun : Obligations.InsertReplacesExactlyTheRun :=
  fun _ x v _ _ _ _ hlen _ hk => insertField_getLsbD x v hlen hk

/-- Settles O26: each law compares the bits inside the run and outside it. -/
theorem fieldLaws : Obligations.FieldLaws := by
  intro w x v start len hstart _ hlen
  refine ⟨?readBack, ?outside, ?same, ?whole⟩
  case readBack =>
    apply Nat.eq_of_testBit_eq
    intro k
    rw [BitVec.testBit_toNat, extractField_insertField_getLsbD x v hstart hlen, Nat.testBit_mod_two_pow, BitVec.testBit_toNat]
  case outside =>
    apply BitVec.eq_of_getLsbD_eq
    intro k hk
    rw [BitVec.getLsbD_and, BitVec.getLsbD_and, BitVec.getLsbD_not, fieldMask_getLsbD hlen hk, insertField_getLsbD x v hlen hk]
    split
    case isTrue hrun => simp [hrun]
    case isFalse => rfl
  case same =>
    apply BitVec.eq_of_getLsbD_eq
    intro k hk
    rw [insertField_getLsbD _ _ hlen hk, extractField_getLsbD x hlen]
    split
    case isTrue hrun =>
      rw [decide_eq_true (by omega), Bool.true_and, Nat.add_sub_cancel' hrun.1]
    case isFalse => rfl
  case whole =>
    rintro rfl rfl
    constructor
    · apply BitVec.eq_of_getLsbD_eq
      intro k hk
      rw [extractField_getLsbD x hlen, decide_eq_true hk, Bool.true_and, show len - 1 + 1 - len + k = k by omega]
    · apply BitVec.eq_of_getLsbD_eq
      intro k hk
      rw [insertField_getLsbD x v hlen hk, if_pos (by omega), show k - (len - 1 + 1 - len) = k by omega]

/-! ### Single bits as runs of length 1 -/

theorem bitNumberOk_eq_descriptorOk {width : Nat} (hwidth : 1 ≤ width) (start : Byte) :
    bitNumberOk width start = descriptorOk width start 1 := by
  rw [Bool.eq_iff_iff, bitNumberOk_iff, descriptorOk_iff, show (1 : Byte).toNat = 1 from rfl]
  omega

theorem bitValue_getLsbD_zero {w : Nat} (hw : 0 < w) (bit : Bool) : (bitValue w bit).getLsbD 0 = bit := by
  cases bit <;> simp [bitValue, hw]

/-- A single-bit insertion is the insertion of any value with that bit in position 0. -/
theorem insertField_bitValue {w start : Nat} (x v : BitVec w) (hw : 0 < w) :
    insertField x start 1 (bitValue w (v.getLsbD 0)) = insertField x start 1 v := by
  refine insertField_congr x _ (by omega) fun j hj => ?_
  obtain rfl : j = 0 := by omega
  exact bitValue_getLsbD_zero hw _

theorem loByte_getLsbD (data : HalfWord) {k : Nat} (hk : k < 8) : (loByte data).getLsbD k = data.getLsbD k := by
  simp [loByte, hk]

/-- Settles O21: the tests of R76 agree at LEN = 1, and past them the fields do. -/
theorem singleBitFormsAreRunsOfLengthOne : Obligations.SingleBitFormsAreRunsOfLengthOne := by
  intro s dev reg bit data tmo
  have h8 := bitNumberOk_eq_descriptorOk (width := 8) (by omega) bit
  have h16 := bitNumberOk_eq_descriptorOk (width := 16) (by omega) bit
  refine ⟨?_, ?_, ?_, ?_⟩
  · simp only [exec, execRdbit, execRdbits, h8]
    rfl
  · simp only [exec, execRdbitw, execRdbitsw, h16]
    rfl
  · simp only [exec, execWrbit, execWrbits, ← h8]
    split
    case isTrue hok =>
      have hstart := bitNumberOk_iff.mp hok
      have hfield (b : Byte) : insertField b bit.toNat 1 (bitValue 8 (data.getLsbD 0)) =
          insertField b bit.toNat (1 : Byte).toNat (loByte data) := by
        rw [← loByte_getLsbD data (by omega)]
        exact insertField_bitValue b (loByte data) (by omega)
      simp only [hfield]
    case isFalse => rfl
  · simp only [exec, execWrbitw, execWrbitsw, ← h16]
    split
    case isTrue hok =>
      have hstart := bitNumberOk_iff.mp hok
      have hfield (w : HalfWord) : insertField w bit.toNat 1 (bitValue 16 (data.getLsbD 0)) =
          insertField w bit.toNat (1 : Byte).toNat data := insertField_bitValue w data (by omega)
      simp only [hfield]
    case isFalse => rfl

end Sys2Proof.Machine
end

section
/-! A step without a command (R12, R223, R240), the reset state (R28, R241), and the response format (R79). -/

namespace Sys2Proof.Machine

/-! ### Steps and reset -/

theorem runAccepted_ok {w : CommandWord} {i : Instr} (s : State) (h : decodeWord w = .ok i) : runAccepted w s = exec i s := by
  simp [runAccepted, h]

theorem step_of_reset {s : State} (h : s.resetLine = true) : step s = .next (hardReset s) := by
  simp [step, h]

theorem step_hung {s : State} (hreset : s.resetLine = false) (hbusy : s.busy = true) : step s = .fault .hung := by
  simp [step, hreset, hbusy]

theorem step_idle {s : State} (hreset : s.resetLine = false) (hidle : s.busy = false) (hport : s.port = []) :
    step s = .next s := by
  simp [step, hreset, hidle, hport]

/-- Settles O6: acceptance is `accept`, and an accepted command that decodes is run. -/
theorem stepRunsTheDecodedCommand : Obligations.StepRunsTheDecodedCommand := by
  intro s w rest i hreset hidle hport hw
  exact (step_presented hreset hidle hport).trans (runAccepted_ok _ hw)

/-- Settles O7: the two branches of `step` that start no command. -/
theorem idleStaysAndHangHolds : Obligations.IdleStaysAndHangHolds :=
  fun _ hreset => ⟨step_idle hreset, step_hung hreset⟩

/-- Settles O8: `hardReset` is the reset state with the ports, the trace and the responses kept. -/
theorem assertedResetRestoresTheResetState : Obligations.AssertedResetRestoresTheResetState :=
  fun _ hreset => ⟨_, step_of_reset hreset, rfl, rfl, rfl⟩

/-- Settles O9: the fields of `State.atReset`. -/
theorem resetLeavesTheGuaranteedValues : Obligations.ResetLeavesTheGuaranteedValues :=
  ⟨fun _ => ⟨rfl, rfl, rfl, rfl, rfl, rfl, rfl, fun _ => rfl, rfl, rfl, rfl, by simp [frameLength, State.atReset], rfl⟩, rfl⟩

theorem atReset_inv (cfg : Params) : (State.atReset cfg).inv :=
  ⟨rfl, rfl, by simp [State.atReset], Nat.zero_le 4, fun _ => rfl, List.forall_mem_nil _, List.forall_mem_nil _⟩

/-- Settles O11: nothing is stored, set, issued or answered yet. -/
theorem resetMeetsTheInvariant : Obligations.ResetMeetsTheInvariant :=
  ⟨atReset_inv _, atReset_inv⟩

/-! ### The response -/

/-- R79: RN in bits 6:4 and STATUS in bits 2:0. -/
theorem responseHeader_toNat {r : Response} (h : r.words.length < 8) :
    (responseHeader r).toNat = 16 * r.words.length + (statusCode r.status).toNat := by
  have hstatus := (statusCode r.status).isLt
  have hfields : (responseHeader r).toNat = r.words.length <<< 1 <<< 3 ||| (statusCode r.status).toNat := by
    have hcount : r.words.length % 2 ^ 3 = r.words.length := Nat.mod_eq_of_lt h
    simp only [responseHeader, BitVec.toNat_append, BitVec.toNat_ofNat, hcount]
    simp
  rw [hfields, ← Nat.shiftLeft_add_eq_or_of_lt hstatus, Nat.shiftLeft_eq, Nat.shiftLeft_eq]
  omega

theorem statusCode_failed (f : Failure) : (statusCode (.failed f)).toNat = statusNumber f := by cases f <;> rfl

/-- R79: most significant byte first. -/
theorem wordBytesBE_eq (w : Word) :
    wordBytesBE w = [BitVec.ofNat 8 (w.toNat / 2 ^ 24), BitVec.ofNat 8 (w.toNat / 2 ^ 16), BitVec.ofNat 8 (w.toNat / 2 ^ 8),
      BitVec.ofNat 8 w.toNat] := by
  simp only [wordBytesBE, BitVec.extractLsb', Nat.shiftRight_eq_div_pow, pow_zero, Nat.div_one]

/-- Settles O23: the header by its two fields, the words by their four bytes. -/
theorem responseFormat : Obligations.ResponseFormat := by
  intro r hlen
  refine ⟨?length, ?header, ?bytes⟩
  case length =>
    simp [responseBytes, wordBytesBE, List.length_flatMap, Nat.add_comm, Nat.mul_comm]
  case header =>
    rw [responseHeader_toNat (by omega)]
    cases hstatus : r.status with
    | ok => rfl
    | failed f => rw [statusCode_failed]
  case bytes =>
    rw [responseBytes, funext wordBytesBE_eq]

end Sys2Proof.Machine
end

section
/-! One induction over the procedures of the 16 bus commands (R100 to R127): a property that every driver call keeps holds of the running
command, and what every end of it gives holds of the command's end. The number of driver calls issued so far goes along (R223). -/

namespace Sys2Proof.Machine

/-! ### Chunks -/

/-- ceil(n / cap): how many chunks of at most `cap` bytes `n` bytes take (R56). -/
def chunkCount (cap n : Nat) : Nat := (n + cap - 1) / cap

theorem chunkCount_zero {cap : Nat} (hcap : 1 ≤ cap) : chunkCount cap 0 = 0 := by
  rw [chunkCount, Nat.div_eq_of_lt (by omega)]

/-- One chunk less after one chunk. -/
theorem chunkCount_step {cap n : Nat} (hcap : 1 ≤ cap) (hn : 1 ≤ n) :
    chunkCount cap n = chunkCount cap (n - min cap n) + 1 := by
  by_cases hlast : n ≤ cap
  · rw [Nat.min_eq_right hlast, Nat.sub_self, chunkCount_zero hcap, chunkCount]
    exact Nat.div_eq_of_lt_le (by omega) (by omega)
  · rw [Nat.min_eq_left (by omega), chunkCount, chunkCount, ← Nat.add_div_right _ (by omega)]
    congr 1
    omega

/-- At most 128 chunks: two bytes at least in each but the last, and at most 256 bytes (R77, R4). -/
theorem chunkCount_le {cap n : Nat} (hcap : 2 ≤ cap) (hn : n ≤ 256) : chunkCount cap n ≤ 128 :=
  Nat.lt_succ_iff.mp ((Nat.div_lt_iff_lt_mul (by omega)).mpr (by omega))

/-! ### The induction -/

theorem Flow.Holds.and {α : Type} {P P' : α → State → Prop} {Q Q' : State → Prop} {f : Flow α} (h : f.Holds P Q)
    (h' : f.Holds P' Q') : f.Holds (fun a s => P a s ∧ P' a s) Q := by
  cases f with
  | go a s => exact ⟨h, h'⟩
  | stop s => exact h

/-- A driver call that goes on leaves K alone (R46). -/
theorem call_chunk (c : BusCall) (s : State) : (call c s).Holds (fun _ t => t.chunk = s.chunk) (fun _ => True) := by
  cases hcall : call c s with
  | go bytes t =>
    obtain ⟨d, rfl, -, -⟩ := call_go hcall
    rfl
  | stop t => trivial

/-- The command reads from the bus: it has a read half (R51), or is a sequence read. -/
def ReadsBus (i : Instr) : Prop :=
  readHalf i ≠ none ∨ ∃ dev reg len inc tmo, i = .rdbytes dev reg len inc tmo ∨ i = .rdwords dev reg len inc tmo

/-- `R n` holds of bus command `i` wherever it runs after `n` driver calls, and `Q` where it ends. -/
structure BusInvariant (i : Instr) (R : Nat → State → Prop) (Q : State → Prop) : Prop where
  write : ∀ {n s} dev bytes, n < 256 → R n s → (call (.write dev bytes) s).Holds (fun _ => R (n + 1)) Q
  read : ReadsBus i → ∀ {n s} dev count, n < 256 → R n s → (call (.read dev count) s).Holds (fun _ => R (n + 1)) Q
  latch : ∀ {n s} chunk tmp, R n s → R n { s with chunk := chunk, tmp := tmp }
  buffer : ∀ {n s} m, R n s → R n { s with buf := m }
  refuse : ∀ {s}, R 0 s → Q (raise .callerContractViolation s)
  complete : ∀ {n s values}, n ≤ 256 → values.length = resultCount i → R n s → Q (complete values s)

namespace BusInvariant

variable {i : Instr} {R : Nat → State → Prop} {Q : State → Prop} {n : Nat} {s : State}

theorem memRead (h : BusInvariant i R Q) (hreads : ReadsBus i) (dev reg : Byte) (count : Nat) (hn : n + 2 ≤ 256)
    (hs : R n s) : (memRead dev reg count s).Holds (fun _ => R (n + 2)) Q :=
  (h.write dev [reg] (by omega) hs).andThen fun _ _ ht => h.read hreads dev count (by omega) ht

theorem memRead_chunk (dev reg : Byte) (count : Nat) (s : State) :
    (Machine.memRead dev reg count s).Holds (fun _ t => t.chunk = s.chunk) (fun _ => True) :=
  (call_chunk (.write dev [reg]) s).andThen fun _ t ht => (call_chunk (.read dev count) t).mono (fun _ _ hu => hu.trans ht) fun _ => id

theorem readByteWith (h : BusInvariant i R Q) (hreads : ReadsBus i) (hcount : resultCount i = 1) (dev reg : Byte)
    (f : Byte → Word) (hs : R 0 s) : Q (readByteWith dev reg f s) :=
  (h.memRead hreads dev reg 1 (by omega) hs).finish fun _ _ ht => h.complete (by omega) hcount.symm ht

theorem readWordWith (h : BusInvariant i R Q) (hreads : ReadsBus i) (hcount : resultCount i = 1) (dev reg : Byte)
    (f : HalfWord → Word) (hs : R 0 s) : Q (readWordWith dev reg f s) :=
  (h.memRead hreads dev reg 2 (by omega) hs).finish fun _ _ ht => h.complete (by omega) hcount.symm ht

theorem writeBytes (h : BusInvariant i R Q) (hcount : resultCount i = 0) (dev reg : Byte) (bytes : List Byte) (hn : n < 256)
    (hs : R n s) : Q (writeBytes dev reg bytes s) :=
  (h.write dev (reg :: bytes) hn hs).finish fun _ _ ht => h.complete (by omega) hcount.symm ht

theorem modifyByte (h : BusInvariant i R Q) (hreads : ReadsBus i) (hcount : resultCount i = 0) (dev reg : Byte)
    (f : Byte → Byte) (hs : R 0 s) : Q (modifyByte dev reg f s) :=
  (h.memRead hreads dev reg 1 (by omega) hs).finish fun _ t ht =>
    h.writeBytes hcount dev reg _ (by omega) (h.latch t.chunk _ ht)

theorem modifyWord (h : BusInvariant i R Q) (hreads : ReadsBus i) (hcount : resultCount i = 0) (dev reg : Byte)
    (f : HalfWord → HalfWord) (hs : R 0 s) : Q (modifyWord dev reg f s) :=
  (h.memRead hreads dev reg 2 (by omega) hs).finish fun _ t ht =>
    h.writeBytes hcount dev reg _ (by omega) (h.latch t.chunk _ ht)

theorem writeFromBuffer (h : BusInvariant i R Q) (hcount : resultCount i = 0) (dev reg : Byte) (n : Nat) (hs : R 0 s) :
    Q (writeFromBuffer dev reg n s) := by
  unfold Machine.writeFromBuffer
  split
  · split
    · exact h.writeBytes hcount dev reg _ (by omega) hs
    · exact h.refuse hs
  · exact h.refuse hs

/-- The chunk loop takes two calls for each chunk that is left. -/
theorem seqLoop (h : BusInvariant i R Q) (hreads : ReadsBus i) (dev reg : Byte) (inc : Bool) {cap total : Nat} (hcap : 1 ≤ cap)
    (fuel : Nat) (got : List Byte) (hn : n + 2 * chunkCount cap (total - s.chunk) ≤ 256) (hs : R n s) :
    (seqLoop dev reg inc cap total fuel got s).Holds (fun _ t => ∃ k, k ≤ 256 ∧ R k t) Q := by
  induction fuel generalizing n got s with
  | zero => exact ⟨n, by omega, hs⟩
  | succ fuel ih =>
    unfold Machine.seqLoop
    split
    case isTrue hlt =>
      have hstep := chunkCount_step hcap (n := total - s.chunk) (by omega)
      refine ((h.memRead hreads dev _ _ (by omega) hs).and (memRead_chunk dev _ _ s)).andThen fun bytes t ht => ?_
      refine ih _ ?_ (h.latch _ t.tmp ht.1)
      rw [ht.2, show total - (s.chunk + min cap (total - s.chunk)) = total - s.chunk - min cap (total - s.chunk) by omega]
      omega
    case isFalse => exact ⟨n, by omega, hs⟩

theorem readIntoBuffer (h : BusInvariant i R Q) (hreads : ReadsBus i) (hcount : resultCount i = 0) (dev reg : Byte)
    {n : Nat} (hn : n ≤ 256) (inc : Bool) {unit : Nat} (hunit : unit = 1 ∨ unit = 2) (hs : R 0 s) :
    Q (readIntoBuffer dev reg n inc unit s) := by
  have hcap := chunkCap_bounds s.cfg.busCap_ge hunit
  have hcalls := chunkCount_le hcap.1 hn
  have hloop := h.seqLoop hreads dev reg inc (cap := chunkCap s.cfg.busCap unit) (total := n) (by omega) n []
    (s := { s with buf := [], chunk := 0 }) (by simp only [Nat.sub_zero]; omega) (h.latch 0 s.tmp (h.buffer [] hs))
  exact Flow.Holds.finish (f := seqRead dev reg n inc unit { s with buf := [] }) hloop fun bytes t ⟨k, hk, ht⟩ =>
    h.complete hk hcount.symm (h.buffer _ ht)

end BusInvariant

theorem ReadsBus.of_readHalf {i : Instr} {half : Byte × Byte × Nat} (h : readHalf i = some half) : ReadsBus i :=
  .inl (h ▸ Option.some_ne_none half)

/-- The induction over the 16 bus commands. -/
theorem exec_bus_induct {i : Instr} {tmo : Timeout} {R : Nat → State → Prop} {Q : State → Prop} (hi : timeoutOf i = some tmo)
    (s : State) (h : BusInvariant i R Q) (hs : R 0 (busPrologue tmo s)) : ∃ t, exec i s = .next t ∧ Q t := by
  have hrefuse := h.refuse hs
  have hite {p : Prop} [Decidable p] {a b : State} (ha : p → Q a) (hb : ¬ p → Q b) : Q (if p then a else b) := by
    split
    · exact ha ‹_›
    · exact hb ‹_›
  cases i <;> simp only [timeoutOf, Option.some.injEq, reduceCtorEq] at hi <;> subst hi
  case rdbit | rdbits =>
    exact ⟨_, rfl, hite (fun _ => h.readByteWith (.of_readHalf rfl) rfl _ _ _ hs) fun _ => hrefuse⟩
  case rdbitw | rdbitsw =>
    exact ⟨_, rfl, hite (fun _ => h.readWordWith (.of_readHalf rfl) rfl _ _ _ hs) fun _ => hrefuse⟩
  case rdbyte => exact ⟨_, rfl, h.readByteWith (.of_readHalf rfl) rfl _ _ _ hs⟩
  case rdword => exact ⟨_, rfl, h.readWordWith (.of_readHalf rfl) rfl _ _ _ hs⟩
  case rdbytes dev reg len inc tmo =>
    refine ⟨_, rfl, hite (fun _ => h.complete (values := []) (by omega) rfl hs) fun _ => ?_⟩
    exact h.readIntoBuffer (.inr ⟨dev, reg, len, inc, tmo, .inl rfl⟩) rfl dev reg (by omega) inc (.inl rfl) hs
  case rdwords dev reg len inc tmo =>
    refine ⟨_, rfl, hite (fun _ => h.complete (values := []) (by omega) rfl hs) fun _ => hite (fun _ => hrefuse) fun hlen => ?_⟩
    exact h.readIntoBuffer (.inr ⟨dev, reg, len, inc, tmo, .inr rfl⟩) rfl dev reg (by rw [wordBytes]; omega) inc (.inr rfl) hs
  case wrbit | wrbits =>
    exact ⟨_, rfl, hite (fun _ => h.modifyByte (.of_readHalf rfl) rfl _ _ _ hs) fun _ => hrefuse⟩
  case wrbitw | wrbitsw =>
    exact ⟨_, rfl, hite (fun _ => h.modifyWord (.of_readHalf rfl) rfl _ _ _ hs) fun _ => hrefuse⟩
  case wrbyte | wrword => exact ⟨_, rfl, h.writeBytes rfl _ _ _ (by omega) hs⟩
  case wrbytes | wrwords =>
    exact ⟨_, rfl, hite (fun _ => h.complete (values := []) (by omega) rfl hs) fun _ => h.writeFromBuffer rfl _ _ _ hs⟩

end Sys2Proof.Machine
end

section
/-! How a command can end, over all 34 (R57, R140, R190, R217, R218, R223, R242), and what follows for every command: its one response, its
time, the sticky bits, what it leaves alone, and the invariant of a step. -/

namespace Sys2Proof.Machine

/-! ### The states a command reaches before it ends -/

/-- What command `i` begun in `s` has left alone, and what it may have done, when it stands in `e`. -/
structure Reached (i : Instr) (s e : State) : Prop where
  ports : samePorts s e
  cfg : e.cfg = s.cfg
  rn : e.rn = s.rn
  out : e.out = s.out
  calls : ∃ new, e.calls = new ++ s.calls ∧ ∀ c ∈ new, callLegal s.cfg.busCap c = true
  noCalls : timeoutOf i = none → e.calls = s.calls
  estk : (∀ data, i ≠ .cfgwr 0 data) → e.estk = s.estk
  estkLow : s.estk.getLsbD 0 = false → e.estk.getLsbD 0 = false
  settings : (∀ num data, i ≠ .cfgwr num data) → sameSettings s e
  filter : i ≠ .dlinacc true → i ≠ .larst → sameFilter s e
  buffer : (∀ dev reg len inc tmo, i ≠ .rdbytes dev reg len inc tmo ∧ i ≠ .rdwords dev reg len inc tmo) →
    (∀ idx data, i ≠ .bufwr idx data) → e.buf = s.buf
  canonical : Memory.wf s.buf = true → Memory.below 256 s.buf = true → Memory.wf e.buf = true ∧ Memory.below 256 e.buf = true

theorem Reached.refl (i : Instr) (s : State) : Reached i s s where
  ports := ⟨rfl, rfl, rfl⟩
  cfg := rfl
  rn := rfl
  out := rfl
  calls := ⟨[], rfl, List.forall_mem_nil _⟩
  noCalls _ := rfl
  estk _ := rfl
  estkLow := id
  settings _ := ⟨rfl, rfl, rfl, rfl, rfl⟩
  filter _ _ := ⟨rfl, rfl⟩
  buffer _ _ := rfl
  canonical hwf hbelow := ⟨hwf, hbelow⟩

/-- Driver calls move only what no command keeps. -/
theorem Reached.of_kept {s0 s e : State} {i : Instr} {tmo : Timeout} (hi : timeoutOf i = some tmo) (h0 : Reached i s s0)
    (h : Kept s0 e) : Reached i s e := by
  obtain ⟨⟨new, hnew, hlegal⟩, he⟩ := h
  obtain ⟨old, hold, hlegal0⟩ := h0.calls
  have hcalls : ∃ new, e.calls = new ++ s.calls ∧ ∀ c ∈ new, callLegal s.cfg.busCap c = true := by
    refine ⟨new ++ old, by rw [hnew, hold, List.append_assoc], fun c hc => ?_⟩
    rcases List.mem_append.mp hc with hc | hc
    · exact h0.cfg ▸ hlegal c hc
    · exact hlegal0 c hc
  have hfields : e.cur = s0.cur ∧ e.port = s0.port ∧ e.resetLine = s0.resetLine ∧ e.cfg = s0.cfg ∧ e.rn = s0.rn ∧
      e.out = s0.out ∧ e.estk = s0.estk ∧ e.tmod = s0.tmod ∧ e.chen = s0.chen ∧ e.lpfa = s0.lpfa ∧ e.a1g = s0.a1g ∧
      e.pv = s0.pv ∧ e.prev = s0.prev ∧ e.buf = s0.buf := by
    rw [he]
    exact ⟨rfl, rfl, rfl, rfl, rfl, rfl, rfl, rfl, rfl, rfl, rfl, rfl, rfl, rfl⟩
  obtain ⟨hcur, hport, hreset, hcfg, hrn, hout, hestk, htmod, hchen, hlpfa, ha1g, hpv, hprev, hbuf⟩ := hfields
  exact
    { ports := by simpa only [samePorts, hcur, hport, hreset] using h0.ports
      cfg := hcfg.trans h0.cfg
      rn := hrn.trans h0.rn
      out := hout.trans h0.out
      calls := hcalls
      noCalls := fun hnone => absurd (hi.symm.trans hnone) (Option.some_ne_none tmo)
      estk := by simpa only [hestk] using h0.estk
      estkLow := by simpa only [hestk] using h0.estkLow
      settings := by simpa only [sameSettings, htmod, hchen, hlpfa, ha1g, hcfg] using h0.settings
      filter := by simpa only [sameFilter, hpv, hprev] using h0.filter
      buffer := by simpa only [hbuf] using h0.buffer
      canonical := by simpa only [hbuf] using h0.canonical }

theorem Reached.busPrologue (i : Instr) (tmo : Timeout) (s : State) : Reached i s (busPrologue tmo s) :=
  { Reached.refl i s with }

/-- A sequence read, a decode with filter, and a system command write their own registers: with everything else as in `e`. -/
theorem Reached.writeBuffer {i : Instr} {s e : State} {m : Memory} (h : Reached i s e)
    (hi : ¬ ((∀ dev reg len inc tmo, i ≠ .rdbytes dev reg len inc tmo ∧ i ≠ .rdwords dev reg len inc tmo) ∧
      ∀ idx data, i ≠ .bufwr idx data))
    (hm : Memory.wf s.buf = true → Memory.below 256 s.buf = true → Memory.wf m = true ∧ Memory.below 256 m = true) :
    Reached i s { e with buf := m } :=
  { h with
    buffer := fun hseq hwr => absurd ⟨hseq, hwr⟩ hi
    canonical := hm }

theorem Reached.writeFilter {i : Instr} {s e : State} (h : Reached i s e) (hi : i = .dlinacc true ∨ i = .larst) (pv : Bool)
    (prev : Vec3 Word) (fresh : Nat) : Reached i s { e with pv := pv, prev := prev, fresh := fresh } :=
  { h with filter := fun hlin hlarst => absurd hi (not_or.mpr ⟨hlin, hlarst⟩) }

/-- CFGWR (R193) writes one register, and never sets ESTK bit 0 (R17). -/
theorem Reached.csrWrite {num : Byte} {data : HalfWord} {s e : State} (h : csrWrite num data s = some e) :
    Reached (.cfgwr num data) s e := by
  have hset : ¬ ∀ num' data', Instr.cfgwr num data ≠ .cfgwr num' data' := fun hne => hne num data rfl
  have hrefl := Reached.refl (.cfgwr num data) s
  unfold Machine.csrWrite at h
  split at h
  case h_1 hnum =>
    have hzero : num = 0 := BitVec.eq_of_toNat_eq hnum
    split at h <;> cases h
    exact
      { hrefl with
        estk := fun hne => absurd (hzero ▸ rfl) (hne data)
        estkLow := fun hlow => by rw [estkClear_getLsbD _ _ (by omega), hlow, Bool.false_and]
        settings := fun hne => absurd hne hset }
  case h_3 =>
    split at h <;> cases h
    exact { hrefl with settings := fun hne => absurd hne hset }
  case h_6 => cases h
  all_goals
    cases h
    exact { hrefl with settings := fun hne => absurd hne hset }

/-! ### Decode and system commands -/

/-- What a command can fail with, beside a refused request (R211 to R214). -/
def CanFail (i : Instr) (s : State) : Failure → Prop
  | .busTimeout => ∃ tmo, timeoutOf i = some tmo ∧ effectiveTimeout tmo s.tmod ≠ 0
  | .busNack => timeoutOf i ≠ none
  | .malformedResponse => ReadsBus i
  | .channelNotPresent => ∃ need, channelsOf i = some need ∧ ∃ c ∈ need, s.chen.getLsbD c = false
  | .decodeDegenerate => True
  | .callerContractViolation => True

/-- How a command without driver calls can end (R140, R190): failed, or completed with its number of words. -/
def QuietEnd (i : Instr) (s t : State) : Prop :=
  (∃ f, CanFail i s f ∧ t = raise f s) ∨
  ∃ values e, values.length = resultCount i ∧ Reached i s e ∧ t = complete values e

theorem QuietEnd.complete {i : Instr} {s : State} {values : List Word} (h : values.length = resultCount i) :
    QuietEnd i s (complete values s) := .inr ⟨values, s, h, .refl i s, rfl⟩

theorem QuietEnd.refused (i : Instr) (s : State) : QuietEnd i s (raise .callerContractViolation s) :=
  .inl ⟨.callerContractViolation, trivial, rfl⟩

theorem decodeFrame_quietEnd {i : Instr} {channels : List Channel} {k : Frame → State → State} {s : State}
    (hi : channelsOf i = some (channels.map channelBit)) (hk : ∀ fr, QuietEnd i s (k fr s)) :
    QuietEnd i s (decodeFrame channels k s) := by
  rcases decodeFrame_cases channels k s with ⟨bytes, -, -, hend⟩ | ⟨-, -, hend⟩ | ⟨hoff, hend⟩ <;> rw [hend]
  · exact hk _
  · exact .refused i s
  · exact .inl ⟨.channelNotPresent, ⟨_, hi, all_channelEnabled_eq_false_iff.mp hoff⟩, rfl⟩

theorem withQuat_quietEnd {i : Instr} {fr : Frame} {k : RawQuat → State → State} {s : State} (hk : ∀ q, QuietEnd i s (k q s)) :
    QuietEnd i s (withQuat fr k s) := by
  rcases withQuat_cases fr k s with ⟨-, hend⟩ | ⟨-, hend⟩ <;> rw [hend]
  · exact .inl ⟨.decodeDegenerate, trivial, rfl⟩
  · exact hk _

theorem exec_quiet {i : Instr} (hi : timeoutOf i = none) (s : State) : ∃ t, exec i s = .next t ∧ QuietEnd i s t := by
  cases i <;> simp only [timeoutOf, reduceCtorEq] at hi
  case dlinacc lp =>
    refine ⟨_, rfl, decodeFrame_quietEnd rfl fun fr => withQuat_quietEnd fun q => ?_⟩
    cases lp
    · exact .complete rfl
    · exact .inr ⟨_, _, rfl, (Reached.refl _ s).writeFilter (.inl rfl) true _ s.fresh, rfl⟩
  case dqf | dgrav | deuler | dypr =>
    exact ⟨_, rfl, decodeFrame_quietEnd rfl fun _ => withQuat_quietEnd fun _ => .complete rfl⟩
  case cfgrd num =>
    cases h : csrRead num s with
    | some v => exact ⟨_, exec_cfgrd_of_some h, .complete rfl⟩
    | none => exact ⟨_, exec_cfgrd_of_none h, .refused _ s⟩
  case cfgwr num data =>
    cases h : csrWrite num data s with
    | some e => exact ⟨_, exec_cfgwr_of_some h, .inr ⟨[], e, rfl, .csrWrite h, rfl⟩⟩
    | none => exact ⟨_, exec_cfgwr_of_none h, .refused _ s⟩
  case bufrd idx =>
    cases h : Memory.read s.buf idx.toNat with
    | some b => exact ⟨_, exec_bufrd_of_some h, .complete rfl⟩
    | none => exact ⟨_, exec_bufrd_of_none h, .refused _ s⟩
  case bufwr idx data =>
    have hreached : Reached (.bufwr idx data) s { s with buf := Memory.write s.buf idx.toNat data } :=
      (Reached.refl _ s).writeBuffer (fun hne => hne.2 idx data rfl) fun hwf hbelow =>
        ⟨Memory.wf_write hwf, Memory.below_write idx.isLt hbelow⟩
    exact ⟨_, exec_bufwr idx data s, .inr ⟨[], _, rfl, hreached, rfl⟩⟩
  case larst =>
    exact ⟨_, exec_larst s, .inr ⟨[], _, rfl, (Reached.refl _ s).writeFilter (.inr rfl) false _ _, rfl⟩⟩
  all_goals exact ⟨_, rfl, decodeFrame_quietEnd rfl fun _ => .complete rfl⟩

end Sys2Proof.Machine
end

section
/-! What follows from the ways a command can end: one response, in time (R45), sticky error bits (R17), what is left alone, and the invariant
that every step keeps. -/

namespace Sys2Proof.Machine

/-! ### Every end of a command -/

/-- A time of `ms` milliseconds is within the bound of a bus command that has one (R45). -/
def WithinBound (i : Instr) (s : State) (ms : Nat) : Prop :=
  ∀ tmo, timeoutOf i = some tmo → effectiveTimeout tmo s.tmod ≠ 0 → ms ≤ (effectiveTimeout tmo s.tmod).toNat

/-- The four ways a command begun in `s` ends: completed (R217), failed (R218), dropped by reset (R242), or hanging without a bound (R223). -/
inductive CommandEnd (i : Instr) (s : State) : State → Prop where
  | completed {values : List Word} {e : State} (hlen : values.length ≤ 4) (h : Reached i s e)
      (hms : WithinBound i s e.elapsed) : CommandEnd i s (complete values e)
  | failed {ms : Nat} {f : Failure} {e : State} (h : Reached i s e) (hms : WithinBound i s ms) :
      CommandEnd i s (raiseAt ms f e)
  | dropped {e : State} (h : Reached i s e) : CommandEnd i s (hardReset e)
  | hung {e : State} {tmo : Timeout} (h : Reached i s e) (hi : timeoutOf i = some tmo)
      (hzero : effectiveTimeout tmo s.tmod = 0) (htmoeff : e.tmoeff = 0) : CommandEnd i s { e with busy := true }

theorem resultCount_le (i : Instr) : resultCount i ≤ 4 := by
  unfold resultCount
  split <;> omega

theorem QuietEnd.commandEnd {i : Instr} {s t : State} (hi : timeoutOf i = none) (h : QuietEnd i s t) : CommandEnd i s t := by
  have hms (ms : Nat) : WithinBound i s ms := fun tmo htmo => absurd (hi.symm.trans htmo) (Option.some_ne_none tmo).symm
  rcases h with ⟨f, -, rfl⟩ | ⟨values, e, hlen, he, rfl⟩
  · exact .failed (.refl i s) (hms _)
  · exact .completed (hlen ▸ resultCount_le i) he (hms _)

section
variable {i : Instr} {tmo : Timeout} {s s0 e t : State}

/-- A time before the deadline of the running command (R46). -/
theorem WithinBound.of_tmoeff {ms : Nat} (hi : timeoutOf i = some tmo) (htmo : e.tmoeff = effectiveTimeout tmo s.tmod)
    (h : e.tmoeff = 0 ∨ ms ≤ e.tmoeff.toNat) : WithinBound i s ms := by
  rintro tmo' htmo' hne
  obtain rfl : tmo = tmo' := Option.some.inj (hi.symm.trans htmo')
  exact htmo ▸ h.resolve_left (htmo ▸ hne)

theorem Running.withinBound (hi : timeoutOf i = some tmo) (h0 : s0.tmoeff = effectiveTimeout tmo s.tmod) (h : Running s0 e) :
    WithinBound i s e.elapsed :=
  .of_tmoeff hi (h.1.tmoeff.trans h0) (h.2.imp_right Nat.le_of_lt)

theorem Stopped.commandEnd (hi : timeoutOf i = some tmo) (h0 : s0.tmoeff = effectiveTimeout tmo s.tmod)
    (hreached : Reached i s s0) (h : Stopped s0 t) : CommandEnd i s t := by
  obtain ⟨e, hkept, rfl | ⟨hzero, rfl⟩ | ⟨ms, f, rfl, hms⟩⟩ := h
  · exact .dropped (hreached.of_kept hi hkept)
  · exact .hung (hreached.of_kept hi hkept) hi (by rw [← h0, ← hkept.tmoeff, hzero]) hzero
  · exact .failed (hreached.of_kept hi hkept) (.of_tmoeff hi (hkept.tmoeff.trans h0) hms)

theorem BusEnd.commandEnd (hi : timeoutOf i = some tmo) (h : BusEnd tmo s t) : CommandEnd i s t := by
  have h0 := Reached.busPrologue i tmo s
  rcases h with rfl | ⟨count, hcount, ⟨values, e, hlen, he, rfl⟩ | hstop⟩
  · exact .failed h0 fun _ _ _ => Nat.zero_le _
  · exact .completed (by omega) (h0.of_kept hi he.1) (he.withinBound hi rfl)
  · exact hstop.commandEnd hi rfl h0

theorem SequenceReadEnd.commandEnd (hi : timeoutOf i = some tmo)
    (hseq : ∃ dev reg len inc, i = .rdbytes dev reg len inc tmo ∨ i = .rdwords dev reg len inc tmo) (h : SequenceReadEnd tmo s t) :
    CommandEnd i s t := by
  have hwrites : ¬ ((∀ dev reg len inc tmo, i ≠ .rdbytes dev reg len inc tmo ∧ i ≠ .rdwords dev reg len inc tmo) ∧
      ∀ idx data, i ≠ .bufwr idx data) := by
    obtain ⟨dev, reg, len, inc, hseq⟩ := hseq
    rintro ⟨hne, -⟩
    rcases hseq with rfl | rfl
    · exact (hne dev reg len inc tmo).1 rfl
    · exact (hne dev reg len inc tmo).2 rfl
  have h0 : Reached i s { busPrologue tmo s with buf := [] } :=
    (Reached.busPrologue i tmo s).writeBuffer hwrites fun _ _ => ⟨rfl, rfl⟩
  rcases h with ⟨bytes, e, hlen, he, rfl⟩ | hstop
  · have hfilled : Reached i s { e with buf := Memory.writeRun [] 0 bytes } :=
      (h0.of_kept hi he.1).writeBuffer hwrites fun _ _ =>
        ⟨Memory.wf_writeRun bytes 0 rfl, Memory.below_writeRun bytes 0 (by omega) rfl⟩
    have hms : WithinBound i s e.elapsed := he.withinBound hi rfl
    exact .completed (Nat.zero_le 4) hfilled hms
  · exact hstop.commandEnd hi rfl h0

/-- Every command, from every state, ends in one of the four ways. -/
theorem exec_end (h : exec i s = .next t) : CommandEnd i s t := by
  cases hi : timeoutOf i with
  | none =>
    obtain ⟨t', ht', hend⟩ := exec_quiet hi s
    obtain rfl : t' = t := Host.Outcome.next.inj (ht'.symm.trans h)
    exact hend.commandEnd hi
  | some tmo =>
    obtain ⟨t', ht', hend⟩ := exec_bus hi s
    obtain rfl : t' = t := Host.Outcome.next.inj (ht'.symm.trans h)
    rcases hend with hend | ⟨hend, hseq⟩
    · exact hend.commandEnd hi
    · exact hend.commandEnd hi hseq

/-! ### One response, in time -/

theorem Reached.resetFrom (h : Reached i s e) : resetFrom s (hardReset e) := by
  obtain ⟨-, hport, -⟩ := h.ports
  simp only [Machine.resetFrom, hardReset, h.cfg, hport, h.out]

/-- Settles O12: of the four ends two emit a response, one is the reset and one the hang. -/
theorem oneResponsePerCommand : Obligations.OneResponsePerCommand := by
  intro i s t h
  cases exec_end h with
  | completed _ he _ => exact .inl ⟨_, congrArg _ he.out, rfl⟩
  | failed he _ => exact .inl ⟨_, congrArg _ he.out, rfl⟩
  | dropped he => exact .inr (.inl he.resetFrom)
  | hung he hi _ htmoeff => exact .inr (.inr ⟨he.out, rfl, htmoeff, hi ▸ Option.some_ne_none _⟩)

/-- The ends of a command that has emitted a response `r` (R79): completed or failed, with `r` the response. -/
theorem exec_answered {r : Response} (h : exec i s = .next t) (hout : t.out = r :: s.out) :
    ∃ e, Reached i s e ∧ WithinBound i s r.ms ∧
      ((∃ values, t = complete values e ∧ r.status = .ok ∧ r.ms = e.elapsed) ∨
        ∃ f, t = raiseAt r.ms f e ∧ r.status = .failed f) := by
  cases exec_end h with
  | @completed values e _ he hms =>
    obtain ⟨rfl, -⟩ := List.cons.inj hout
    exact ⟨e, he, hms, .inl ⟨values, rfl, rfl, rfl⟩⟩
  | @failed ms f e he hms =>
    obtain ⟨rfl, -⟩ := List.cons.inj hout
    exact ⟨e, he, hms, .inr ⟨f, rfl, rfl⟩⟩
  | dropped he => exact absurd (hout.symm.trans he.out) (List.cons_ne_self _ _)
  | hung he _ _ _ => exact absurd (hout.symm.trans he.out) (List.cons_ne_self _ _)

/-- Settles O13: with a bound there is no hang, and a response comes within it. -/
theorem noCommandOutlastsItsTimeout : Obligations.NoCommandOutlastsItsTimeout := by
  intro i tmo s t hi hbound h
  refine ⟨?idle, ?inTime⟩
  case idle =>
    cases exec_end h with
    | completed _ _ _ => rfl
    | failed _ _ => rfl
    | dropped _ => rfl
    | hung _ hi' hzero _ =>
      obtain rfl := Option.some.inj (hi.symm.trans hi')
      exact absurd hzero hbound
  case inTime =>
    intro r hout
    obtain ⟨-, -, hms, -⟩ := exec_answered h hout
    exact hms tmo hi hbound

/-! ### What a completed command leaves -/

theorem statusNumber_lt (f : Failure) : statusNumber f < 7 := by cases f <;> decide

/-- Settles O14: completion keeps ESTK, and a failure adds its own bit. -/
theorem errorBitsAreSticky : Obligations.ErrorBitsAreSticky := by
  intro i s t r h hout
  obtain ⟨e, hreached, -, ⟨values, rfl, hok, -⟩ | ⟨f, rfl, hfailed⟩⟩ := exec_answered h hout
  · refine ⟨fun hne k hk => ?_, fun f hf => absurd (hok.symm.trans hf) (by simp)⟩
    rwa [complete_estk, hreached.estk hne]
  · refine ⟨fun hne k hk => ?_, fun f' hf' => ?_⟩
    · have hlt : k < 7 := BitVec.lt_of_getLsbD hk
      rw [raiseAt_estk, estkRaise_getLsbD _ _ hlt, hreached.estk hne, hk, Bool.true_or]
    · obtain rfl : f = f' := Status.failed.inj (hfailed.symm.trans hf')
      rw [raiseAt_estk, estkRaise_getLsbD _ _ (statusNumber_lt f), decide_eq_true rfl, Bool.or_true]

/-- Settles O15: a command leaves alone what every state it reaches has left alone, and neither completing nor failing adds to that. -/
theorem onlyTheNamedCommandsWrite : Obligations.OnlyTheNamedCommandsWrite := by
  intro i s t r h hout
  have hkeeps (e : State) (he : Reached i s e) :
      samePorts s e ∧ e.cfg = s.cfg ∧ ((∀ num data, i ≠ .cfgwr num data) → sameSettings s e) ∧
        (i ≠ .dlinacc true → i ≠ .larst → sameFilter s e) ∧
        ((∀ dev reg len inc tmo, i ≠ .rdbytes dev reg len inc tmo ∧ i ≠ .rdwords dev reg len inc tmo) →
          (∀ idx data, i ≠ .bufwr idx data) → sameBuffer s e) :=
    ⟨he.ports, he.cfg, he.settings, he.filter, fun hseq hwr a => by rw [he.buffer hseq hwr]⟩
  obtain ⟨e, hreached, -, ⟨values, rfl, -⟩ | ⟨f, rfl, -⟩⟩ := exec_answered h hout
  · exact hkeeps e hreached
  · exact hkeeps e hreached

/-! ### The invariant -/

/-- The invariant but for its clause on BUSY, which does not hold while a command runs. -/
structure StoredInv (s : State) : Prop where
  wf : Memory.wf s.buf = true
  below : Memory.below 256 s.buf = true
  estk : s.estk.getLsbD 0 = false
  rn : s.rn.toNat ≤ 4
  calls : ∀ c ∈ s.calls, callLegal s.cfg.busCap c = true
  out : ∀ r ∈ s.out, responseLegal r = true

theorem inv_iff : s.inv ↔ StoredInv s ∧ (s.busy = true → s.tmoeff = 0) :=
  ⟨fun ⟨hwf, hbelow, hestk, hrn, hbusy, hcalls, hout⟩ => ⟨⟨hwf, hbelow, hestk, hrn, hcalls, hout⟩, hbusy⟩,
    fun ⟨h, hbusy⟩ => ⟨h.wf, h.below, h.estk, h.rn, hbusy, h.calls, h.out⟩⟩

theorem StoredInv.inv_of_idle (h : StoredInv s) (hidle : s.busy = false) : s.inv :=
  inv_iff.mpr ⟨h, fun hbusy => absurd (hidle.symm.trans hbusy) Bool.false_ne_true⟩

theorem StoredInv.reached (h : StoredInv s) (he : Reached i s e) : StoredInv e := by
  obtain ⟨hwf, hbelow⟩ := he.canonical h.wf h.below
  obtain ⟨new, hnew, hlegal⟩ := he.calls
  refine ⟨hwf, hbelow, he.estkLow h.estk, he.rn ▸ h.rn, fun c hc => ?_, he.out ▸ h.out⟩
  rw [hnew] at hc
  rw [he.cfg]
  rcases List.mem_append.mp hc with hc | hc
  · exact hlegal c hc
  · exact h.calls c hc

theorem StoredInv.complete {values : List Word} (h : StoredInv s) (hlen : values.length ≤ 4) :
    StoredInv (complete values s) := by
  obtain ⟨-, hrn, -, hout, -⟩ := complete_answeredOk hlen s
  refine ⟨h.wf, h.below, h.estk, hrn ▸ hlen, h.calls, ?_⟩
  rw [hout]
  exact List.forall_mem_cons.mpr ⟨decide_eq_true hlen, h.out⟩

theorem StoredInv.raiseAt (h : StoredInv s) (ms : Nat) (f : Failure) : StoredInv (raiseAt ms f s) where
  wf := h.wf
  below := h.below
  estk := by
    rw [raiseAt_estk, estkRaise_getLsbD _ _ (by omega), h.estk]
    cases f <;> rfl
  rn := Nat.zero_le 4
  calls := h.calls
  out := List.forall_mem_cons.mpr ⟨rfl, h.out⟩

theorem StoredInv.hardReset (h : StoredInv s) : StoredInv (hardReset s) where
  wf := rfl
  below := rfl
  estk := by simp
  rn := Nat.zero_le 4
  calls := h.calls
  out := h.out

theorem CommandEnd.inv (h : StoredInv s) (hend : CommandEnd i s t) : t.inv := by
  cases hend with
  | completed hlen he _ => exact ((h.reached he).complete hlen).inv_of_idle rfl
  | failed he _ => exact ((h.reached he).raiseAt _ _).inv_of_idle rfl
  | dropped he => exact (h.reached he).hardReset.inv_of_idle rfl
  | hung he _ _ htmoeff =>
    obtain ⟨hwf, hbelow, hestk, hrn, hcalls, hout⟩ := h.reached he
    exact inv_iff.mpr ⟨⟨hwf, hbelow, hestk, hrn, hcalls, hout⟩, fun _ => htmoeff⟩

theorem StoredInv.accept (h : StoredInv s) (w : CommandWord) (rest : List CommandWord) : StoredInv (accept w rest s) :=
  ⟨h.wf, h.below, h.estk, h.rn, h.calls, h.out⟩

/-- What a step does (R12, R75, R240). -/
theorem step_cases (h : step s = .next t) :
    t = hardReset s ∨ t = s ∨ ∃ w rest, (∃ i, exec i (accept w rest s) = .next t) ∨
      t = raise .callerContractViolation (accept w rest s) := by
  cases hreset : s.resetLine with
  | true =>
    rw [step_of_reset hreset] at h
    exact .inl (Host.Outcome.next.inj h).symm
  | false =>
    cases hbusy : s.busy with
    | true =>
      rw [step_hung hreset hbusy] at h
      cases h
    | false =>
      cases hport : s.port with
      | nil =>
        rw [step_idle hreset hbusy hport] at h
        exact .inr (.inl (Host.Outcome.next.inj h).symm)
      | cons w rest =>
        rw [step_presented hreset hbusy hport] at h
        refine .inr (.inr ⟨w, rest, ?_⟩)
        cases hw : decodeWord w with
        | ok i => exact .inl ⟨i, (runAccepted_ok _ hw).symm.trans h⟩
        | error e =>
          rw [runAccepted_error _ hw] at h
          exact .inr (Host.Outcome.next.inj h).symm

end

/-- Settles O10: acceptance keeps all of the invariant but its clause on BUSY, and each end of a command restores that. -/
theorem stepKeepsTheInvariant : Obligations.StepKeepsTheInvariant := by
  intro s t hinv hstep
  obtain ⟨hstored, -⟩ := inv_iff.mp hinv
  rcases step_cases hstep with rfl | rfl | ⟨w, rest, ⟨i, hexec⟩ | rfl⟩
  · exact hstored.hardReset.inv_of_idle rfl
  · exact hinv
  · exact (exec_end hexec).inv (hstored.accept w rest)
  · exact ((hstored.accept w rest).raiseAt _ _).inv_of_idle rfl

end Sys2Proof.Machine
end

section
/-! What a response says: its number of words (R79) and the failures each family of commands can report (R211 to R214); the bound on driver calls
(R223); and the refusal of ill-formed commands (R216). -/

namespace Sys2Proof.Machine

/-! ### The words and the status of a response -/

/-- If a command begun with the responses `out` has answered in `t`, it was OK with `count` words, or a failure of kind `P` without words, and RN
says so. -/
def AnswersAs (count : Nat) (P : Failure → Prop) (out : List Response) (t : State) : Prop :=
  ∀ r, t.out = r :: out →
    (r.status = .ok ∧ r.words.length = count ∧ t.rn.toNat = count) ∨ ∃ f, P f ∧ r.status = .failed f ∧ r.words = [] ∧ t.rn = 0

section
variable {count : Nat} {P : Failure → Prop} {out : List Response} {s t : State}

theorem AnswersAs.of_silent (h : t.out = out) : AnswersAs count P out t :=
  fun _ hr => absurd (hr.symm.trans h) (List.cons_ne_self _ _)

theorem AnswersAs.raiseAt (ms : Nat) {f : Failure} (hf : P f) (h : s.out = out) : AnswersAs count P out (raiseAt ms f s) := by
  intro r hr
  rw [raiseAt_out, h] at hr
  obtain ⟨rfl, -⟩ := List.cons.inj hr
  exact .inr ⟨f, hf, rfl, rfl, rfl⟩

theorem AnswersAs.complete {values : List Word} (hlen : values.length = count) (hcount : count ≤ 4) (h : s.out = out) :
    AnswersAs count P out (complete values s) := by
  obtain ⟨-, hrn, -, hout, -⟩ := complete_answeredOk (hlen ▸ hcount) s
  intro r hr
  rw [hout, h] at hr
  obtain ⟨rfl, -⟩ := List.cons.inj hr
  exact .inl ⟨rfl, hlen, hrn.trans hlen⟩

end

theorem QuietEnd.answersAs {i : Instr} {s t : State} (h : QuietEnd i s t) :
    AnswersAs (resultCount i) (CanFail i s) s.out t := by
  rcases h with ⟨f, hf, rfl⟩ | ⟨values, e, hlen, he, rfl⟩
  · exact .raiseAt _ hf rfl
  · exact .complete hlen (resultCount_le i) he.out

/-- R212, R213: a driver call that was answered in time fails with BusNack, or, when it is a read, with MalformedResponse. -/
theorem judge_error {c : BusCall} {reply : Reply} {f : Failure} (h : judge c reply = .error f) :
    f = .busNack ∨ (f = .malformedResponse ∧ ∃ dev n, c = .read dev n) := by
  cases reply with
  | nack =>
    rw [judge_nack] at h
    cases h
    exact .inl rfl
  | ack bytes =>
    cases c with
    | write dev sent =>
      rw [judge_write_ack] at h
      cases h
    | read dev n =>
      by_cases hlen : bytes.length = n
      · rw [judge_read_exact dev hlen] at h
        cases h
      · rw [judge_read_short dev hlen] at h
        cases h
        exact .inr ⟨rfl, dev, n, rfl⟩

/-- What the response of an ended driver call says (R46): BusTimeout under a bound only, else the failure of the answer. -/
theorem settleCall_answersAs {count : Nat} {P : Failure → Prop} {c : BusCall} {ev : CallEvent} {s : State}
    (htimeout : s.tmoeff ≠ 0 → P .busTimeout) (hanswer : ∀ reply f, judge c reply = .error f → P f) :
    (settleCall c ev s).Holds (fun _ t => t.out = s.out ∧ t.tmoeff = s.tmoeff) (AnswersAs count P s.out) := by
  cases ev with
  | resetAsserted => exact .of_silent rfl
  | never =>
    by_cases hbound : s.tmoeff = 0
    · rw [settleCall_never_unbounded hbound]
      exact .of_silent rfl
    · rw [settleCall_never_bounded hbound]
      exact .raiseAt _ (htimeout hbound) rfl
  | answered d reply =>
    cases hlate : deadlineReached s (s.elapsed + d) with
    | true =>
      rw [settleCall_late reply hlate]
      exact .raiseAt _ (htimeout (deadlineReached_eq_true.mp hlate).1) rfl
    | false =>
      cases hreply : judge c reply with
      | ok bytes =>
        rw [settleCall_pass hlate hreply]
        exact ⟨rfl, rfl⟩
      | error f =>
        rw [settleCall_fail hlate hreply]
        exact .raiseAt _ (hanswer reply f hreply) rfl

/-- A running bus command has answered nothing, under the timeout it took (R45). -/
theorem busInvariant_answersAs {i : Instr} {tmo : Timeout} (hi : timeoutOf i = some tmo) (s : State) :
    BusInvariant i (fun _ e => e.out = s.out ∧ e.tmoeff = effectiveTimeout tmo s.tmod)
      (AnswersAs (resultCount i) (CanFail i s) s.out) := by
  have hnack : CanFail i s .busNack := by
    rw [CanFail, hi]
    exact Option.some_ne_none tmo
  have hcall {e : State} (he : e.out = s.out ∧ e.tmoeff = effectiveTimeout tmo s.tmod) (c : BusCall)
      (hc : ∀ dev n, c = .read dev n → ReadsBus i) :
      (call c e).Holds (fun _ t => t.out = s.out ∧ t.tmoeff = effectiveTimeout tmo s.tmod)
        (AnswersAs (resultCount i) (CanFail i s) s.out) := by
    obtain ⟨hout, htmo⟩ := he
    have htimeout : (issue c e).2.tmoeff ≠ 0 → CanFail i s .busTimeout := fun hbound => ⟨tmo, hi, htmo ▸ hbound⟩
    have hanswer (reply : Reply) (f : Failure) (hf : judge c reply = .error f) : CanFail i s f := by
      rcases judge_error hf with rfl | ⟨rfl, dev, n, hread⟩
      · exact hnack
      · exact hc dev n hread
    have hsettle := settleCall_answersAs (count := resultCount i) (ev := (issue c e).1) htimeout hanswer
    rw [issue_out, issue_tmoeff, hout, htmo] at hsettle
    exact hsettle
  exact
    { write := fun dev bytes _ he => hcall he (.write dev bytes) fun _ _ hread => by cases hread
      read := fun hreads _ _ dev count _ he => hcall he (.read dev count) fun _ _ _ => hreads
      latch := fun _ _ he => he
      buffer := fun _ he => he
      refuse := fun he => .raiseAt (f := .callerContractViolation) _ trivial he.1
      complete := fun _ hlen he => .complete hlen (resultCount_le i) he.1 }

/-- What a response says, over all 34 commands. -/
theorem exec_answersAs {i : Instr} {s t : State} (h : exec i s = .next t) :
    AnswersAs (resultCount i) (CanFail i s) s.out t := by
  cases hi : timeoutOf i with
  | none =>
    obtain ⟨t', ht', hend⟩ := exec_quiet hi s
    obtain rfl : t' = t := Host.Outcome.next.inj (ht'.symm.trans h)
    exact hend.answersAs
  | some tmo =>
    obtain ⟨t', ht', hend⟩ := exec_bus_induct hi s (busInvariant_answersAs hi s) ⟨rfl, rfl⟩
    obtain rfl : t' = t := Host.Outcome.next.inj (ht'.symm.trans h)
    exact hend

/-- Settles O16: `AnswersAs` with the count of the command's kind. -/
theorem resultCountOfEveryCommand : Obligations.ResultCountOfEveryCommand := by
  intro i s t r h hout
  rcases exec_answersAs h r hout with ⟨hok, hwords⟩ | ⟨f, -, hfailed, hnone⟩
  · exact ⟨fun _ => hwords, fun hne => absurd hok hne⟩
  · exact ⟨fun hok => absurd (hok.symm.trans hfailed) (by simp), fun _ => hnone⟩

/-- Settles O17: the status is one `CanFail` admits. -/
theorem failureStatusesOfEachFamily : Obligations.FailureStatusesOfEachFamily := by
  intro i s t r f h hout hf
  rcases exec_answersAs h r hout with ⟨hok, -⟩ | ⟨f', hcan, hfailed, -⟩
  · exact absurd (hok.symm.trans hf) (by simp)
  · obtain rfl : f' = f := Status.failed.inj (hfailed.symm.trans hf)
    refine ⟨?_, ?_, ?_, ?_⟩ <;> rintro rfl <;> exact hcan

/-! ### The number of driver calls -/

/-- At most `n` driver calls were issued since the trace was `calls`. -/
def CallsWithin (n : Nat) (calls : List BusCall) (t : State) : Prop := ∃ new, t.calls = new ++ calls ∧ new.length ≤ n

theorem CallsWithin.mono {n m : Nat} {calls : List BusCall} {t : State} (h : CallsWithin n calls t) (hnm : n ≤ m) :
    CallsWithin m calls t := by
  obtain ⟨new, hnew, hlen⟩ := h
  exact ⟨new, hnew, hlen.trans hnm⟩

theorem call_callsWithin {n : Nat} {calls : List BusCall} {s : State} (h : CallsWithin n calls s) (c : BusCall) :
    (call c s).Holds (fun _ => CallsWithin (n + 1) calls) (CallsWithin (n + 1) calls) := by
  obtain ⟨new, hnew, hlen⟩ := h
  have hgrown (t : State) (ht : t.calls = c :: s.calls) : CallsWithin (n + 1) calls t :=
    ⟨c :: new, by rw [ht, hnew, List.cons_append], Nat.succ_le_succ hlen⟩
  exact (call_calls c s).mono (fun _ => hgrown) hgrown

theorem busInvariant_callsWithin (i : Instr) (calls : List BusCall) :
    BusInvariant i (fun n => CallsWithin n calls) (CallsWithin 256 calls) where
  write dev bytes hn h := (call_callsWithin h (.write dev bytes)).mono (fun _ _ => id) fun _ ht => ht.mono hn
  read _ _ _ dev count hn h := (call_callsWithin h (.read dev count)).mono (fun _ _ => id) fun _ ht => ht.mono hn
  latch _ _ h := h
  buffer _ h := h
  refuse h := CallsWithin.mono h (Nat.zero_le 256)
  complete hn _ h := CallsWithin.mono h hn

/-- Settles O18: no call from a decode or system command, and the bus commands count along in `exec_bus_induct`. -/
theorem atMostTwoHundredFiftySixCalls : Obligations.AtMostTwoHundredFiftySixCalls := by
  intro i s t h
  cases hi : timeoutOf i with
  | none =>
    obtain ⟨t', ht', hend⟩ := exec_quiet hi s
    obtain rfl : t' = t := Host.Outcome.next.inj (ht'.symm.trans h)
    have hcalls : t'.calls = s.calls := by
      rcases hend with ⟨f, -, rfl⟩ | ⟨values, e, -, he, rfl⟩
      · rfl
      · exact he.noCalls hi
    exact ⟨[], hcalls, Nat.zero_le 256⟩
  | some tmo =>
    obtain ⟨t', ht', hend⟩ := exec_bus_induct hi s (busInvariant_callsWithin i s.calls) ⟨[], rfl, le_rfl⟩
    obtain rfl : t' = t := Host.Outcome.next.inj (ht'.symm.trans h)
    exact hend

/-! ### Ill-formed commands -/

theorem descriptorOk_of_runLegal_false {width : Nat} {start len : Byte} (h : runLegal width start len = false) :
    descriptorOk width start len = false := by
  rw [← Bool.not_eq_true, descriptorOk_iff]
  simp only [runLegal, Bool.and_eq_false_iff, decide_eq_false_iff_not] at h
  omega

theorem writeFits_iff {cap n : Nat} : writeFits cap n = true ↔ n + 1 ≤ cap := decide_eq_true_iff

/-- What `csrWriteLegal` refuses, register by register (R193). -/
theorem csrWrite_of_illegal {num : Byte} {data : HalfWord} (s : State) (h : csrWriteLegal num data = false) :
    csrWrite num data s = none := by
  refine csrWrite_eq_none s ?_
  unfold csrWriteLegal at h
  split at h
  case h_1 hnum =>
    simp only [Bool.and_eq_false_iff, Bool.not_eq_false', decide_eq_false_iff_not, not_lt] at h
    exact .inl ⟨BitVec.eq_of_toNat_eq hnum, h⟩
  case h_3 hnum => exact .inr (.inl ⟨BitVec.eq_of_toNat_eq hnum, not_lt.mp (of_decide_eq_false h)⟩)
  case h_2 | h_4 | h_5 => cases h
  case h_6 =>
    simp only [imp_false] at *
    omega

/-- Refused before any driver call, with nothing else changed, at some time. -/
def RefusedAtOnce (s t : State) : Prop :=
  ∃ ms, answeredFailure s t .callerContractViolation ms ∧ t.calls = s.calls ∧ t.bus = s.bus ∧ sameSettings s t ∧
    sameBuffer s t ∧ sameFilter s t ∧ samePorts s t ∧ sameLatches s t

theorem raise_refusedAtOnce (s : State) : RefusedAtOnce s (raise .callerContractViolation s) :=
  ⟨s.elapsed, raise_answeredFailure _ s, rfl, rfl, ⟨rfl, rfl, rfl, rfl, rfl⟩, fun _ => rfl, ⟨rfl, rfl⟩, ⟨rfl, rfl, rfl⟩,
    ⟨rfl, rfl⟩⟩

/-- A bus command whose test of its operands fails. -/
theorem ite_refusedAtOnce {p : Prop} [Decidable p] {s a : State} (tmo : Timeout) (h : ¬ p) :
    RefusedAtOnce s (if p then a else raise .callerContractViolation (busPrologue tmo s)) := by
  rw [if_neg h]
  exact ⟨0, raise_busPrologue_refusedBeforeCalls tmo s⟩

theorem exec_illFormed {i : Instr} (h : i.wellFormed = false) (s : State) : ∃ t, exec i s = .next t ∧ RefusedAtOnce s t := by
  cases i <;> simp only [Instr.wellFormed, reduceCtorEq] at h
  case rdbit | rdbitw | wrbit | wrbitw =>
    exact ⟨_, rfl, ite_refusedAtOnce _ (Bool.not_eq_true _ ▸ h)⟩
  case rdbits | rdbitsw | wrbits | wrbitsw =>
    exact ⟨_, rfl, ite_refusedAtOnce _ (Bool.not_eq_true _ ▸ descriptorOk_of_runLegal_false h)⟩
  case rdwords dev reg len inc tmo =>
    have hlen : 128 < len.toNat := not_le.mp (of_decide_eq_false h)
    refine ⟨_, rfl, ?_⟩
    simp only [if_neg (show ¬ len.toNat = 0 by omega), if_pos hlen]
    exact ⟨0, raise_busPrologue_refusedBeforeCalls tmo s⟩
  case wrwords dev reg len tmo =>
    have hlen : 127 < len.toNat := not_le.mp (of_decide_eq_false h)
    have hcap := s.cfg.busCap_le
    have hfits : ¬ writeFits s.cfg.busCap (wordBytes len) = true := by
      rw [writeFits_iff, wordBytes]
      omega
    refine ⟨_, rfl, ?_⟩
    simp only [if_neg (show ¬ len.toNat = 0 by omega)]
    exact ite_refusedAtOnce tmo hfits
  case cfgrd num =>
    have hnum : 7 ≤ num.toNat := not_le.mp (of_decide_eq_false h)
    exact ⟨_, exec_cfgrd_of_none (csrRead_eq_none s hnum), raise_refusedAtOnce s⟩
  case cfgwr num data => exact ⟨_, exec_cfgwr_of_none (csrWrite_of_illegal s h), raise_refusedAtOnce s⟩

/-- Settles O22: every illegal operand fails the test its command makes first (`exec_illFormed`). -/
theorem illFormedCommandsAreRefused : Obligations.IllFormedCommandsAreRefused := by
  intro i s h
  obtain ⟨t, hexec, ms, hrefused⟩ := exec_illFormed h s
  exact ⟨t, ms, hexec, hrefused⟩

end Sys2Proof.Machine
end

section
/-! The scalar bus commands under a script that answers in time (R101 to R106, R120 to R125): the calls, the words, and the byte or word written
back. -/

namespace Sys2Proof.Machine

/-! ### A bus command some answered calls later -/

/-- The state of a bus command begun in `s`, `ms` milliseconds later, when these calls were answered and `rest` of the script is left. -/
def afterCalls (tmo : Timeout) (s : State) (calls : List BusCall) (rest : List CallEvent) (ms : Nat) : State :=
  { busPrologue tmo s with
    bus := .scripted rest
    calls := calls.reverse ++ s.calls
    fresh := s.fresh + calls.length
    elapsed := ms }

/-- The first half of a read-modify-write in TMP (R26). -/
def withTmp (tmp : HalfWord) (s : State) : State := { s with tmp := tmp }

section
variable {tmo : Timeout} {s : State} {calls : List BusCall} {rest : List CallEvent} {ms : Nat}

theorem inTime.mono {ms' : Nat} (h : inTime tmo s ms) (hle : ms' ≤ ms) : inTime tmo s ms' :=
  h.imp_right fun hlt => lt_of_le_of_lt hle hlt

/-- What a scalar bus command leaves that completes in such a state. -/
theorem complete_afterCalls {values : List Word} (hlen : values.length ≤ 4) :
    answeredOk s (complete values (afterCalls tmo s calls rest ms)) values ms ∧
      usedBus s (complete values (afterCalls tmo s calls rest ms)) tmo calls rest ms ∧
      sameSettings s (complete values (afterCalls tmo s calls rest ms)) ∧
      sameBuffer s (complete values (afterCalls tmo s calls rest ms)) ∧
      sameFilter s (complete values (afterCalls tmo s calls rest ms)) ∧
      samePorts s (complete values (afterCalls tmo s calls rest ms)) ∧
      sameLatches s (complete values (afterCalls tmo s calls rest ms)) :=
  ⟨complete_answeredOk hlen (afterCalls tmo s calls rest ms), ⟨rfl, rfl, rfl, rfl⟩, ⟨rfl, rfl, rfl, rfl, rfl⟩, fun _ => rfl,
    ⟨rfl, rfl⟩, ⟨rfl, rfl, rfl⟩, ⟨rfl, rfl⟩⟩

/-- The same with TMP written (R26). -/
theorem complete_withTmp (tmp : HalfWord) :
    answeredOk s (complete [] (withTmp tmp (afterCalls tmo s calls rest ms))) [] ms ∧
      usedBus s (complete [] (withTmp tmp (afterCalls tmo s calls rest ms))) tmo calls rest ms ∧
      sameSettings s (complete [] (withTmp tmp (afterCalls tmo s calls rest ms))) ∧
      sameBuffer s (complete [] (withTmp tmp (afterCalls tmo s calls rest ms))) ∧
      sameFilter s (complete [] (withTmp tmp (afterCalls tmo s calls rest ms))) ∧
      samePorts s (complete [] (withTmp tmp (afterCalls tmo s calls rest ms))) :=
  ⟨complete_answeredOk (words := []) (Nat.zero_le 4) _, ⟨rfl, rfl, rfl, rfl⟩, ⟨rfl, rfl, rfl, rfl, rfl⟩, fun _ => rfl,
    ⟨rfl, rfl⟩, ⟨rfl, rfl, rfl⟩⟩

end

/-! ### Reads -/

section
variable {tmo : Timeout} {s : State} {dev reg : Byte} {x : List Byte} {d1 d2 : Nat} {rest : List CallEvent}

/-- The read half of a command, answered in time (R48, R51). -/
theorem memRead_afterCalls {bytes : List Byte} {n : Nat} (hin : inTime tmo s (d1 + d2)) (hlen : bytes.length = n)
    (hbus : s.bus = .scripted (.answered d1 (.ack x) :: .answered d2 (.ack bytes) :: rest)) :
    memRead dev reg n (busPrologue tmo s) =
      .go bytes (afterCalls tmo s [.write dev [reg], .read dev n] rest (d1 + d2)) := by
  rw [memRead_ack (s := busPrologue tmo s) hbus hlen (deadlineReached_eq_false.mpr (hin.mono (by simp)))
    (deadlineReached_eq_false.mpr (hin.mono (by simp)))]
  simp [afterCalls]

theorem readByteWith_ack (f : Byte → Word) {b0 : Byte} (hin : inTime tmo s (d1 + d2))
    (hbus : s.bus = .scripted (.answered d1 (.ack x) :: .answered d2 (.ack [b0]) :: rest)) :
    readByteWith dev reg f (busPrologue tmo s) =
      complete [f b0] (afterCalls tmo s [.write dev [reg], .read dev 1] rest (d1 + d2)) := by
  rw [readByteWith, memRead_afterCalls (n := 1) hin rfl hbus]
  rfl

theorem readWordWith_ack (f : HalfWord → Word) {b0 b1 : Byte} (hin : inTime tmo s (d1 + d2))
    (hbus : s.bus = .scripted (.answered d1 (.ack x) :: .answered d2 (.ack [b0, b1]) :: rest)) :
    readWordWith dev reg f (busPrologue tmo s) =
      complete [f (b0 ++ b1)] (afterCalls tmo s [.write dev [reg], .read dev 2] rest (d1 + d2)) := by
  rw [readWordWith, memRead_afterCalls (n := 2) hin rfl hbus]
  rfl

end

/-- A command that leaves a state which is known in another form. -/
theorem exec_of_eq {i : Instr} {s a t : State} (hexec : exec i s = .next a) (h : a = t) : exec i s = .next t := h ▸ hexec

/-- A bus command that tests its operands, with operands that pass. -/
theorem exec_of_test {i : Instr} {s a : State} {tmo : Timeout} {test : Bool} (h : test = true)
    (hexec : exec i s = .next (if test then a else raise .callerContractViolation (busPrologue tmo s))) :
    exec i s = .next a := by
  rw [hexec, if_pos h]

theorem bitNumberOk_of_le {width : Nat} {start : Byte} (h : start.toNat ≤ width) : bitNumberOk (width + 1) start = true :=
  bitNumberOk_iff.mpr (Nat.lt_succ_of_le h)

theorem descriptorOk_of_le {width : Nat} {start len : Byte} (hstart : start.toNat ≤ width) (h1 : 1 ≤ len.toNat)
    (hlen : len.toNat ≤ start.toNat + 1) : descriptorOk (width + 1) start len = true :=
  descriptorOk_iff.mpr (by omega)

/-- R47: the first byte of a register word is its high byte. -/
theorem regWord_toNat (b0 b1 : Byte) : (b0 ++ b1).toNat = 256 * b0.toNat + b1.toNat := by
  rw [BitVec.toNat_append, ← Nat.shiftLeft_add_eq_or_of_lt b1.isLt, Nat.shiftLeft_eq]
  omega

/-- The bit-run of a register, as a result word (R103, R104). -/
theorem extractField_setWidth {w : Nat} (x : BitVec w) {start len : Nat} (hstart : start < w) (h1 : 1 ≤ len) (hlen : len ≤ start + 1) :
    (extractField x start len).setWidth 32 = BitVec.ofNat 32 (x.toNat / 2 ^ (start + 1 - len) % 2 ^ len) := by
  rw [← extractReadsTheRun w x start len hstart h1 hlen, BitVec.ofNat_toNat]

/-- A single bit, as a result word (R101, R102). -/
theorem extractBit_setWidth {w : Nat} (x : BitVec w) {start : Nat} (hstart : start < w) :
    (extractField x start 1).setWidth 32 = if x.getLsbD start then (1 : Word) else 0 := by
  rw [extractField_setWidth x hstart (by omega) (by omega), Nat.add_sub_cancel, pow_one, ← Nat.toNat_testBit,
    BitVec.testBit_toNat]
  cases x.getLsbD start <;> rfl

/-- Settles O29: the byte, or the two bytes joined high byte first, widened to a result word. -/
theorem readByteAndWordZeroExtend : Obligations.ReadByteAndWordZeroExtend := by
  intro s dev reg tmo d1 d2 x b0 b1 rest hin
  refine ⟨fun hbus => ⟨_, exec_of_eq rfl (readByteWith_ack zextByte hin hbus), ?byte⟩,
    fun hbus => ⟨_, exec_of_eq rfl (readWordWith_ack zextHalf hin hbus), ?word⟩⟩
  case byte =>
    rw [zextByte, ← BitVec.ofNat_toNat]
    exact complete_afterCalls (by simp)
  case word =>
    rw [zextHalf, ← BitVec.ofNat_toNat, regWord_toNat]
    exact complete_afterCalls (by simp)

/-- Settles O27: a single bit is the run of length 1, whose value is 0 or 1 (`extractBit_setWidth`). -/
theorem readBitReturnsTheBit : Obligations.ReadBitReturnsTheBit := by
  intro s dev reg start tmo d1 d2 x b0 b1 rest hin
  constructor
  · intro hstart hbus
    refine ⟨_, exec_of_eq (exec_of_test (bitNumberOk_of_le hstart) rfl) (readByteWith_ack _ hin hbus), ?_⟩
    rw [zextByte, extractBit_setWidth b0 (by omega)]
    exact complete_afterCalls (by simp)
  · intro hstart hbus
    refine ⟨_, exec_of_eq (exec_of_test (bitNumberOk_of_le hstart) rfl) (readWordWith_ack _ hin hbus), ?_⟩
    rw [zextHalf, extractBit_setWidth (b0 ++ b1) (by omega)]
    exact complete_afterCalls (by simp)

/-- Settles O28: `extractField` of the byte or word read, as `ExtractReadsTheRun` values it. -/
theorem readBitRunReturnsTheRun : Obligations.ReadBitRunReturnsTheRun := by
  intro s dev reg start len tmo d1 d2 x b0 b1 rest hin h1 hlen
  constructor
  · intro hstart hbus
    refine ⟨_, exec_of_eq (exec_of_test (descriptorOk_of_le hstart h1 hlen) rfl) (readByteWith_ack _ hin hbus), ?_⟩
    rw [zextByte, extractField_setWidth b0 (by omega) h1 hlen]
    exact complete_afterCalls (by simp)
  · intro hstart hbus
    refine ⟨_, exec_of_eq (exec_of_test (descriptorOk_of_le hstart h1 hlen) rfl) (readWordWith_ack _ hin hbus), ?_⟩
    rw [zextHalf, extractField_setWidth (b0 ++ b1) (by omega) h1 hlen, regWord_toNat]
    exact complete_afterCalls (by simp)

/-! ### Writes -/

/-- One write call, answered in time (R49). -/
theorem writeBytes_ack {tmo : Timeout} {s : State} {dev reg : Byte} {bytes x : List Byte} {d : Nat} {rest : List CallEvent}
    (hin : inTime tmo s d) (hbus : s.bus = .scripted (.answered d (.ack x) :: rest)) :
    writeBytes dev reg bytes (busPrologue tmo s) = complete [] (afterCalls tmo s [.write dev (reg :: bytes)] rest d) := by
  rw [writeBytes, memWrite, call_write_ack (s := busPrologue tmo s) hbus (deadlineReached_eq_false.mpr (hin.mono (by simp)))]
  simp [afterCalls]

theorem hiByte_eq (w : HalfWord) : hiByte w = BitVec.ofNat 8 (w.toNat / 256) := by
  rw [hiByte, BitVec.extractLsb', Nat.shiftRight_eq_div_pow]

theorem loByte_eq (w : HalfWord) : loByte w = BitVec.ofNat 8 (w.toNat % 256) := by
  apply BitVec.eq_of_toNat_eq
  simp [loByte, BitVec.extractLsb'_toNat]

/-- Settles O36: both are `writeBytes`, with one byte or with the two of the word. -/
theorem byteAndWordWriteOneCall : Obligations.ByteAndWordWriteOneCall := by
  intro s dev reg b data tmo d x rest hin hbus
  refine ⟨⟨_, exec_of_eq rfl (writeBytes_ack hin hbus), complete_afterCalls (by simp)⟩,
    ⟨_, exec_of_eq rfl (writeBytes_ack hin hbus), ?_⟩⟩
  rw [← hiByte_eq, ← loByte_eq]
  exact complete_afterCalls (by simp)

/-! ### Read-modify-write -/

section
variable {tmo : Timeout} {s : State} {dev reg : Byte} {x y : List Byte} {d1 d2 d3 : Nat} {rest : List CallEvent}

/-- The write-back of a read-modify-write, answered in time, with TMP written between (R57). -/
theorem writeBack_ack {n : Nat} {bytes : List Byte} (tmp : HalfWord) (hin : inTime tmo s (d1 + d2 + d3)) :
    writeBytes dev reg bytes
        (withTmp tmp (afterCalls tmo s [.write dev [reg], .read dev n] (.answered d3 (.ack y) :: rest) (d1 + d2))) =
      complete [] (withTmp tmp
        (afterCalls tmo s [.write dev [reg], .read dev n, .write dev (reg :: bytes)] rest (d1 + d2 + d3))) := by
  have hd : deadlineReached (withTmp tmp (afterCalls tmo s [.write dev [reg], .read dev n]
      (.answered d3 (.ack y) :: rest) (d1 + d2))) (d1 + d2 + d3) = false := deadlineReached_eq_false.mpr hin
  rw [writeBytes, memWrite, call_write_ack rfl hd]
  rfl

theorem loByte_setWidth (b : Byte) : loByte (b.setWidth 16) = b := by
  apply BitVec.eq_of_getLsbD_eq
  intro k hk
  rw [loByte_getLsbD _ hk, BitVec.getLsbD_setWidth, decide_eq_true (by omega), Bool.true_and]

theorem modifyByte_ack (f : Byte → Byte) {b0 : Byte} (hin : inTime tmo s (d1 + d2 + d3))
    (hbus : s.bus = .scripted (.answered d1 (.ack x) :: .answered d2 (.ack [b0]) :: .answered d3 (.ack y) :: rest)) :
    modifyByte dev reg f (busPrologue tmo s) =
      complete [] (withTmp (BitVec.ofNat 16 b0.toNat)
        (afterCalls tmo s [.write dev [reg], .read dev 1, .write dev [reg, f b0]] rest (d1 + d2 + d3))) := by
  rw [modifyByte, memRead_afterCalls (n := 1) (hin.mono (by omega)) rfl hbus, BitVec.ofNat_toNat]
  refine Eq.trans ?_ (writeBack_ack (y := y) (b0.setWidth 16) hin)
  simp only [Flow.finish_go, loByte_setWidth]
  rfl

theorem modifyWord_ack (f : HalfWord → HalfWord) {b0 b1 : Byte} (hin : inTime tmo s (d1 + d2 + d3))
    (hbus : s.bus = .scripted (.answered d1 (.ack x) :: .answered d2 (.ack [b0, b1]) :: .answered d3 (.ack y) :: rest)) :
    modifyWord dev reg f (busPrologue tmo s) =
      complete [] (withTmp (b0 ++ b1)
        (afterCalls tmo s
          [.write dev [reg], .read dev 2, .write dev [reg, hiByte (f (b0 ++ b1)), loByte (f (b0 ++ b1))]] rest
          (d1 + d2 + d3))) := by
  rw [modifyWord, memRead_afterCalls (n := 2) (hin.mono (by omega)) rfl hbus]
  exact writeBack_ack (b0 ++ b1) hin

end

theorem hiByte_append_loByte (w : HalfWord) : BitVec.append (hiByte w) (loByte w) = w := by
  apply BitVec.eq_of_toNat_eq
  have happend : BitVec.append (hiByte w) (loByte w) = hiByte w ++ loByte w := rfl
  have hw := w.isLt
  rw [happend, regWord_toNat, hiByte_eq, loByte_eq, BitVec.toNat_ofNat, BitVec.toNat_ofNat]
  omega

/-- Settles O35: the run of the byte or word read is replaced by the low bits of DATA, as R78 inserts. -/
theorem bitRunWriteReplacesTheRun : Obligations.BitRunWriteReplacesTheRun := by
  intro s dev reg start len data tmo d1 d2 d3 x y b0 b1 rest hin h1 hlen
  constructor
  · intro hstart hbus
    have hexec := exec_of_eq (exec_of_test (i := .wrbits dev reg start len data tmo)
      (descriptorOk_of_le hstart h1 hlen) rfl) (modifyByte_ack _ hin hbus)
    obtain ⟨hok, hused, hset, hbuf, hfilter, hports⟩ := complete_withTmp (BitVec.ofNat 16 b0.toNat)
    refine ⟨_, insertField b0 start.toNat len.toNat (loByte data), hexec, fun k hk => ?_, hok, hused, rfl, rfl, hset, hbuf,
      hfilter, hports⟩
    rw [insertField_getLsbD _ _ hlen hk]
    split
    · rw [loByte_getLsbD data (by omega)]
    · rfl
  · intro hstart hbus
    have hexec := exec_of_eq (exec_of_test (i := .wrbitsw dev reg start len data tmo)
      (descriptorOk_of_le hstart h1 hlen) rfl) (modifyWord_ack _ hin hbus)
    obtain ⟨hok, hused, hset, hbuf, hfilter, hports⟩ := complete_withTmp (b0 ++ b1)
    refine ⟨_, _, _, hexec, fun k hk => ?_, hok, hused, rfl, rfl, hset, hbuf, hfilter, hports⟩
    rw [hiByte_append_loByte, insertField_getLsbD _ _ hlen hk]

/-- Settles O34: a single-bit write is the run of length 1 (`SingleBitFormsAreRunsOfLengthOne`), with the bit as DATA[0]. -/
theorem bitWriteChangesOneBit : Obligations.BitWriteChangesOneBit := by
  intro s dev reg start bit tmo d1 d2 d3 x y b0 b1 rest hin
  have hrun := bitRunWriteReplacesTheRun s dev reg start 1 (bitData bit) tmo d1 d2 d3 x y b0 b1 rest hin (by decide)
    (by simp)
  have hdata : (bitData bit).getLsbD 0 = bit := bitData_getElem bit
  obtain ⟨-, -, hbyte, hword⟩ := singleBitFormsAreRunsOfLengthOne s dev reg start (bitData bit) tmo
  rw [hdata] at hbyte hword
  have hbit (k : Nat) (old : Bool) : (if start.toNat + 1 - (1 : Byte).toNat ≤ k ∧ k ≤ start.toNat then
      (bitData bit).getLsbD (k - (start.toNat + 1 - (1 : Byte).toNat)) else old) = if k = start.toNat then bit else old := by
    have hone : (1 : Byte).toNat = 1 := rfl
    by_cases hk : k = start.toNat
    · subst hk
      rw [hone, if_pos (by omega), if_pos rfl, show start.toNat - (start.toNat + 1 - 1) = 0 by omega, hdata]
    · rw [hone, if_neg (by omega), if_neg hk]
  simp only [hbit, ← hbyte, ← hword] at hrun
  exact hrun

end Sys2Proof.Machine
end

section
/-! The sequence commands: split reads into DB (R56, R107, R108), writes out of DB (R126, R127), and the length table R77. -/

namespace Sys2Proof.Machine

/-! ### The plan of a split read -/

/-- The chunks from number `j` on, `count` of them (R56): offset and size of each. -/
def chunksFrom (cap n j count : Nat) : List (Nat × Nat) :=
  (List.range' j count).map fun k => (k * cap, min cap (n - k * cap))

theorem chunkPlan_eq_chunksFrom (cap n : Nat) : chunkPlan cap n = chunksFrom cap n 0 (chunkCount cap n) := by
  rw [chunkPlan, chunksFrom, List.range_eq_range', chunkCount]

theorem chunksFrom_succ (cap n j count : Nat) :
    chunksFrom cap n j (count + 1) = (j * cap, min cap (n - j * cap)) :: chunksFrom cap n (j + 1) count := by
  rw [chunksFrom, List.range'_succ, List.map_cons, chunksFrom]

theorem chunksFrom_length (cap n j count : Nat) : (chunksFrom cap n j count).length = count := by
  rw [chunksFrom, List.length_map, List.length_range']

theorem chunkPlan_length (cap n : Nat) : (chunkPlan cap n).length = chunkCount cap n := by
  rw [chunkPlan_eq_chunksFrom, chunksFrom_length]

/-- R56: the register address of a chunk, modulo 256 with AI = 1. -/
theorem chunkReg_eq (reg : Byte) (inc : Bool) (offset : Nat) :
    chunkReg reg inc offset = if inc then BitVec.ofNat 8 (reg.toNat + offset) else reg := by
  rw [chunkReg, BitVec.ofNat_add, BitVec.ofNat_toNat, BitVec.setWidth_eq]

/-! ### The loop under a script that answers in time -/

/-- The state of a split read `count` chunks later, when all `n` bytes are there: the calls are issued, the time has passed, K is `n`. -/
def afterChunks (s : State) (calls : List BusCall) (rest : List CallEvent) (count ms n : Nat) : State :=
  { s with
    bus := .scripted rest
    calls := calls.reverse ++ s.calls
    fresh := s.fresh + 2 * count
    elapsed := s.elapsed + ms
    chunk := n }

theorem afterChunks_afterChunks (s : State) (calls calls' : List BusCall) (rest rest' : List CallEvent)
    (count count' ms ms' n n' : Nat) :
    afterChunks (afterChunks s calls rest count ms n) calls' rest' count' ms' n' =
      afterChunks s (calls ++ calls') rest' (count + count') (ms + ms') n' := by
  simp only [afterChunks, List.reverse_append, List.append_assoc, Nat.mul_add, Nat.add_assoc]

theorem chunkCalls_append (dev reg : Byte) (inc : Bool) (plan plan' : List (Nat × Nat)) :
    chunkCalls dev reg inc (plan ++ plan') = chunkCalls dev reg inc plan ++ chunkCalls dev reg inc plan' :=
  List.flatMap_append

theorem seqLoop_done {dev reg : Byte} {inc : Bool} {cap n : Nat} (fuel : Nat) (got : List Byte) {s : State} (h : s.chunk = n) :
    seqLoop dev reg inc cap n fuel got s = .go got s := by
  cases fuel with
  | zero => rfl
  | succ fuel => rw [seqLoop, if_neg (by omega)]

section
variable {dev reg : Byte} {inc : Bool} {cap n dw dr : Nat} {data : List Byte} {rest : List CallEvent}

/-- One chunk: the address write and the read of its bytes. -/
theorem seqLoop_chunk {j : Nat} (hdata : data.length = n) (fuel : Nat) (got : List Byte) {s : State} {draws : List CallEvent}
    (hchunk : s.chunk = j * cap) (hlt : j * cap < n)
    (hbus : s.bus = .scripted (chunkScript dw dr data [(j * cap, min cap (n - j * cap))] ++ draws))
    (htime : deadlineReached s (s.elapsed + (dw + dr)) = false) :
    seqLoop dev reg inc cap n (fuel + 1) got s =
      seqLoop dev reg inc cap n fuel (got ++ (data.drop (j * cap)).take (min cap (n - j * cap)))
        (afterChunks s (chunkCalls dev reg inc [(j * cap, min cap (n - j * cap))]) draws 1 (dw + dr)
          (j * cap + min cap (n - j * cap))) := by
  have hlen : ((data.drop (j * cap)).take (min cap (n - j * cap))).length = min cap (n - j * cap) := by
    rw [List.length_take, List.length_drop, hdata]
    omega
  have hearly : deadlineReached s (s.elapsed + dw) = false := by
    rw [deadlineReached_eq_false] at htime ⊢
    exact htime.imp_right fun h => by omega
  rw [← Nat.add_assoc] at htime
  rw [seqLoop, hchunk, if_pos hlt]
  simp only [memRead_ack hbus hlen hearly htime, Flow.andThen_go, hchunk, chunkReg_eq]
  simp only [afterChunks, Nat.add_assoc, chunkCalls]
  rfl

/-- All the chunks that are left. -/
theorem seqLoop_chunks (hcap : 1 ≤ cap) (hdata : data.length = n) (count : Nat) :
    ∀ (j fuel : Nat) (got : List Byte) (s : State), s.chunk = min (j * cap) n → chunkCount cap (n - s.chunk) = count →
      count ≤ fuel → s.bus = .scripted (chunkScript dw dr data (chunksFrom cap n j count) ++ rest) →
      deadlineReached s (s.elapsed + count * (dw + dr)) = false →
      seqLoop dev reg inc cap n fuel got s = .go (got ++ data.drop s.chunk)
        (afterChunks s (chunkCalls dev reg inc (chunksFrom cap n j count)) rest count (count * (dw + dr)) n) := by
  induction count with
  | zero =>
    intro j fuel got s hchunk hcount _ hbus _
    have hdone : s.chunk = n := by
      by_contra hne
      have := chunkCount_step hcap (n := n - s.chunk) (by omega)
      omega
    have hstate : afterChunks s [] rest 0 0 n = s := by
      have hrest : s.bus = .scripted rest := hbus
      rw [afterChunks, ← hdone, ← hrest]
      rfl
    have hnone : data.drop s.chunk = [] := List.drop_eq_nil_of_le (by omega)
    rw [seqLoop_done fuel got hdone, hnone, List.append_nil, Nat.zero_mul]
    exact congrArg _ hstate.symm
  | succ count ih =>
    intro j fuel got s hchunk hcount hfuel hbus htime
    have hmore : s.chunk < n := by
      by_contra hdone
      rw [show n - s.chunk = 0 by omega, chunkCount_zero hcap] at hcount
      omega
    have hoffset : s.chunk = j * cap := by omega
    obtain ⟨fuel, rfl⟩ : ∃ k, fuel = k + 1 := ⟨fuel - 1, by omega⟩
    rw [chunksFrom_succ] at hbus ⊢
    have hearly : deadlineReached s (s.elapsed + (dw + dr)) = false := by
      rw [deadlineReached_eq_false] at htime ⊢
      exact htime.imp_right fun h => by rw [Nat.succ_mul] at h; omega
    rw [seqLoop_chunk (draws := chunkScript dw dr data (chunksFrom cap n (j + 1) count) ++ rest) hdata fuel got hoffset
      (hoffset ▸ hmore) hbus hearly]
    have hstep := chunkCount_step hcap (n := n - s.chunk) (by omega)
    have hnext : j * cap + min cap (n - j * cap) = min ((j + 1) * cap) n := by
      rw [Nat.succ_mul]
      omega
    have hleft : n - (j * cap + min cap (n - j * cap)) = n - s.chunk - min cap (n - s.chunk) := by omega
    rw [ih (j + 1) fuel _ (afterChunks s _ _ 1 (dw + dr) (j * cap + min cap (n - j * cap))) hnext ?left (by omega) rfl ?time,
      afterChunks_afterChunks, ← chunkCalls_append, List.append_assoc, hoffset]
    case left =>
      show chunkCount cap (n - (j * cap + min cap (n - j * cap))) = count
      rw [hleft]
      omega
    case time =>
      refine deadlineReached_eq_false.mpr ((deadlineReached_eq_false.mp htime).imp_right fun h => ?_)
      simp only [afterChunks, Nat.succ_mul] at h ⊢
      omega
    have hbytes : (data.drop (j * cap)).take (min cap (n - j * cap)) ++ data.drop (j * cap + min cap (n - j * cap)) =
        data.drop (j * cap) := by
      rw [← List.drop_drop, List.take_append_drop]
    have htotal : dw + dr + count * (dw + dr) = (count + 1) * (dw + dr) := by rw [Nat.succ_mul, Nat.add_comm]
    rw [htotal, Nat.add_comm 1 count]
    exact congrArg (fun bytes => Flow.go (got ++ bytes) _) hbytes

end

/-! ### Sequence reads -/

theorem chunkCount_le_self {cap n : Nat} (hcap : 1 ≤ cap) (hn : 1 ≤ n) : chunkCount cap n ≤ n := by
  obtain ⟨c, rfl⟩ : ∃ c, cap = c + 1 := ⟨cap - 1, by omega⟩
  obtain ⟨m, rfl⟩ : ∃ m, n = m + 1 := ⟨n - 1, by omega⟩
  refine Nat.div_le_of_le_mul ?_
  have hproduct : (c + 1) * (m + 1) = c * m + c + m + 1 := by ring
  omega

/-- DB after a sequence read holds the delivered bytes and no other (R107). -/
theorem read_delivered (data : List Byte) (a : Nat) : Memory.read (Memory.writeRun [] 0 data) a = data[a]? := by
  rw [Memory.read_writeRun]
  by_cases h : a < data.length
  · simp [h]
  · simp [h]

/-- What a sequence read leaves that completed: the calls and the time of the plan, the `n` bytes of `data` in DB, and K at `n`. -/
def Delivers (tmo : Timeout) (s t : State) (calls : List BusCall) (rest : List CallEvent) (ms n : Nat) (data : List Byte) : Prop :=
  answeredOk s t [] ms ∧ usedBus s t tmo calls rest ms ∧ (∀ a, Memory.read t.buf a = data[a]?) ∧ sameSettings s t ∧
    sameFilter s t ∧ samePorts s t ∧ t.tmp = s.tmp ∧ t.chunk = n

/-- The state in which a split read of `n` bytes begins (R100, R107). -/
def emptied (tmo : Timeout) (s : State) : State := { busPrologue tmo s with buf := [], chunk := 0 }

theorem complete_delivers {tmo : Timeout} {s : State} (calls : List BusCall) (rest : List CallEvent) (count ms n : Nat)
    (data : List Byte) :
    Delivers tmo s
      (complete [] { afterChunks (emptied tmo s) calls rest count ms n with buf := Memory.writeRun [] 0 data })
      calls rest ms n data := by
  have helapsed : (afterChunks (emptied tmo s) calls rest count ms n).elapsed = ms := Nat.zero_add ms
  have hok := complete_answeredOk (words := []) (Nat.zero_le 4)
    { afterChunks (emptied tmo s) calls rest count ms n with buf := Memory.writeRun [] 0 data }
  rw [helapsed] at hok
  exact ⟨hok, ⟨rfl, rfl, helapsed, rfl⟩, read_delivered data, ⟨rfl, rfl, rfl, rfl, rfl⟩, ⟨rfl, rfl⟩, ⟨rfl, rfl, rfl⟩, rfl, rfl⟩

/-- A sequence read of either unit under a script that answers in time. -/
theorem readIntoBuffer_delivers {tmo : Timeout} {s : State} {dw dr cap n : Nat} {data : List Byte} {rest : List CallEvent}
    {unit : Nat} (dev reg : Byte) (inc : Bool) (hcap : chunkCap s.cfg.busCap unit = cap) (hunit : unit = 1 ∨ unit = 2)
    (h1 : 1 ≤ n) (hdata : data.length = n) (hbus : s.bus = .scripted (chunkScript dw dr data (chunkPlan cap n) ++ rest))
    (hin : inTime tmo s ((chunkPlan cap n).length * (dw + dr))) :
    Delivers tmo s (readIntoBuffer dev reg n inc unit (busPrologue tmo s)) (chunkCalls dev reg inc (chunkPlan cap n)) rest
      ((chunkPlan cap n).length * (dw + dr)) n data := by
  have hcap1 : 1 ≤ cap := hcap ▸ le_trans (by omega) (chunkCap_bounds s.cfg.busCap_ge hunit).1
  rw [chunkPlan_length] at hin ⊢
  rw [chunkPlan_eq_chunksFrom] at hbus ⊢
  have htime : deadlineReached (emptied tmo s) (0 + chunkCount cap n * (dw + dr)) = false := by
    rw [Nat.zero_add]
    exact deadlineReached_eq_false.mpr hin
  have hloop := seqLoop_chunks (dev := dev) (reg := reg) (inc := inc) hcap1 hdata (chunkCount cap n) 0 n [] (emptied tmo s)
    (by simp [emptied]) rfl (chunkCount_le_self hcap1 h1) hbus htime
  have hread : seqRead dev reg n inc unit { busPrologue tmo s with buf := [] } = .go data
      (afterChunks (emptied tmo s) (chunkCalls dev reg inc (chunksFrom cap n 0 (chunkCount cap n))) rest (chunkCount cap n)
        (chunkCount cap n * (dw + dr)) n) := by
    rw [seqRead, busPrologue_cfg, hcap]
    exact hloop
  rw [readIntoBuffer, hread]
  exact complete_delivers _ rest _ _ n data

theorem chunkCap_one (cap : Nat) : chunkCap cap 1 = cap := by rw [chunkCap, Nat.mod_one, Nat.sub_zero]

theorem exec_rdbytes {dev reg len : Byte} {inc : Bool} {tmo : Timeout} {s : State} (h1 : 1 ≤ len.toNat) :
    exec (.rdbytes dev reg len inc tmo) s = .next (readIntoBuffer dev reg len.toNat inc 1 (busPrologue tmo s)) :=
  congrArg Host.Outcome.next (if_neg (by omega))

theorem exec_rdwords {dev reg len : Byte} {inc : Bool} {tmo : Timeout} {s : State} (h1 : 1 ≤ len.toNat)
    (h128 : len.toNat ≤ 128) :
    exec (.rdwords dev reg len inc tmo) s = .next (readIntoBuffer dev reg (2 * len.toNat) inc 2 (busPrologue tmo s)) :=
  congrArg Host.Outcome.next ((if_neg (by omega)).trans (if_neg (by omega)))

/-- Settles O31: the chunks of `seqLoop_chunks`, put into DB. -/
theorem byteSequenceReadDelivers : Obligations.ByteSequenceReadDelivers := by
  intro s dev reg len inc tmo dw dr data rest h1 hlen hbus hin
  exact ⟨_, exec_rdbytes h1, readIntoBuffer_delivers dev reg inc (chunkCap_one _) (.inl rfl) h1 hlen hbus hin⟩

theorem wordView_of_read {s : State} {k : Nat} {hi lo : Byte} (hhi : Memory.read s.buf (2 * k) = some hi)
    (hlo : Memory.read s.buf (2 * k + 1) = some lo) : wordView s k = some (hi ++ lo) := by
  simp [wordView, hhi, hlo]

/-- Settles O32: the same with an even chunk size, and DB read as words (R14). -/
theorem wordSequenceReadDelivers : Obligations.WordSequenceReadDelivers := by
  intro s dev reg len inc tmo dw dr data rest h1 h128 hlen hbus hin
  obtain ⟨hok, hused, hread, hset, hfilter, hports, htmp, hchunk⟩ :=
    readIntoBuffer_delivers dev reg inc (unit := 2) rfl (.inr rfl) (by omega) hlen hbus hin
  refine ⟨_, exec_rdwords h1 h128, hok, hused, hread, fun k hk => ?_, hset, hfilter, hports, htmp, hchunk⟩
  have hbyte {a : Nat} (ha : a < data.length) : data[a]? = some (data.getD a 0) := by simp [ha]
  exact wordView_of_read ((hread _).trans (hbyte (by omega))) ((hread _).trans (hbyte (by omega)))

/-- Settles O33: only the end that completes with OK puts bytes into the emptied DB. -/
theorem unfinishedSequenceReadLeavesNoByte : Obligations.UnfinishedSequenceReadLeavesNoByte := by
  intro s t dev reg len inc tmo h1 hexec hnot
  have hend : SequenceReadEnd tmo s t := by
    rcases hexec with hexec | ⟨h128, hexec⟩
    · obtain rfl := Host.Outcome.next.inj ((exec_rdbytes h1).symm.trans hexec)
      exact readIntoBuffer_end dev reg _ inc (.inl rfl) (by omega) tmo s
    · obtain rfl := Host.Outcome.next.inj ((exec_rdwords h1 h128).symm.trans hexec)
      exact readIntoBuffer_end dev reg _ inc (.inr rfl) (by omega) tmo s
  rcases hend with ⟨bytes, e, -, he, rfl⟩ | ⟨e, hkept, hstop⟩
  · refine absurd ?_ (hnot e.elapsed)
    rw [complete_response (words := []) (Nat.zero_le 4)]
    exact congrArg _ he.1.out
  · have hbuf : e.buf = [] := hkept.buf
    rcases hstop with rfl | ⟨-, rfl⟩ | ⟨ms, f, rfl, -⟩
    · exact fun _ => rfl
    all_goals
      intro a
      exact (congrArg (fun m => Memory.read m a) hbuf).trans rfl

/-! ### Sequence writes -/

theorem readRun_payload {m : Memory} {payload : List Byte} (h : ∀ k, k < payload.length → Memory.read m k = payload[k]?) :
    Memory.readRun m 0 payload.length = some payload :=
  (Memory.readRun_eq_some _ _ _ _).mpr ⟨rfl, fun k hk => by rw [Nat.zero_add]; exact h k hk⟩

theorem writeFromBuffer_of_payload {dev reg : Byte} {n : Nat} {s : State} {payload : List Byte} (hfit : n + 1 ≤ s.cfg.busCap)
    (hrun : Memory.readRun s.buf 0 n = some payload) : writeFromBuffer dev reg n s = writeBytes dev reg payload s := by
  rw [writeFromBuffer, if_pos (writeFits_iff.mpr hfit), hrun]
  rfl

theorem writeFromBuffer_of_not_fit {dev reg : Byte} {n : Nat} {s : State} (hfit : ¬ n + 1 ≤ s.cfg.busCap) :
    writeFromBuffer dev reg n s = raise .callerContractViolation s := by
  rw [writeFromBuffer, if_neg (mt writeFits_iff.mp hfit)]

theorem writeFromBuffer_of_missing {dev reg : Byte} {n : Nat} {s : State} (hrun : Memory.readRun s.buf 0 n = none) :
    writeFromBuffer dev reg n s = raise .callerContractViolation s := by
  rw [writeFromBuffer, hrun]
  exact ite_self _

theorem exec_wrbytes {dev reg len : Byte} {tmo : Timeout} {s : State} (h1 : 1 ≤ len.toNat) :
    exec (.wrbytes dev reg len tmo) s = .next (writeFromBuffer dev reg len.toNat (busPrologue tmo s)) :=
  congrArg Host.Outcome.next (if_neg (by omega))

theorem exec_wrwords {dev reg len : Byte} {tmo : Timeout} {s : State} (h1 : 1 ≤ len.toNat) :
    exec (.wrwords dev reg len tmo) s = .next (writeFromBuffer dev reg (2 * len.toNat) (busPrologue tmo s)) :=
  congrArg Host.Outcome.next (if_neg (by omega))

/-- Settles O37: a payload that fits and is all there goes out in one write call. -/
theorem sequenceWriteSendsThePayload : Obligations.SequenceWriteSendsThePayload := by
  intro s dev reg len tmo d x payload rest h1 hin hbus hpayload hfit
  have hsend : writeFromBuffer dev reg payload.length (busPrologue tmo s) =
      complete [] (afterCalls tmo s [.write dev (reg :: payload)] rest d) :=
    (writeFromBuffer_of_payload (s := busPrologue tmo s) hfit (readRun_payload hpayload)).trans (writeBytes_ack hin hbus)
  have hcomplete := complete_afterCalls (tmo := tmo) (s := s) (calls := [.write dev (reg :: payload)]) (rest := rest) (ms := d)
    (values := []) (Nat.zero_le 4)
  rw [← hsend] at hcomplete
  constructor
  · intro hlen
    rw [hlen] at hcomplete
    exact ⟨_, exec_wrbytes h1, hcomplete⟩
  · intro hlen
    rw [hlen] at hcomplete
    exact ⟨_, exec_wrwords h1, hcomplete⟩

/-! ### The length table -/

/-- A sequence read of at least one byte begins with a driver call, like every read. -/
theorem readIntoBuffer_calls_lt {dev reg : Byte} {n : Nat} {inc : Bool} {unit : Nat} {s : State} (h1 : 1 ≤ n) :
    s.calls.length < (readIntoBuffer dev reg n inc unit s).calls.length := by
  have hloop (cap fuel : Nat) (got : List Byte) (e : State) (he : s.calls.length < e.calls.length) :
      (seqLoop dev reg inc cap n fuel got e).CallsExceed s.calls.length := by
    induction fuel generalizing got e with
    | zero => exact he
    | succ fuel ih =>
      unfold seqLoop
      split
      · exact (memRead_callsExceed dev _ _ he.le).andThen fun _ t ht => ih _ _ ht
      · exact he
  obtain ⟨m, rfl⟩ : ∃ m, n = m + 1 := ⟨n - 1, by omega⟩
  have hread : (seqRead dev reg (m + 1) inc unit { s with buf := [] }).CallsExceed s.calls.length := by
    rw [seqRead, seqLoop, if_pos (Nat.succ_pos m)]
    exact (memRead_callsExceed dev _ _ le_rfl).andThen fun _ t ht => hloop _ m _ _ ht
  exact hread.finish fun _ _ ht => ht

/-- One write call, however it turns out (R49). -/
theorem writeBytes_calls_length (dev reg : Byte) (bytes : List Byte) (s : State) :
    (writeBytes dev reg bytes s).calls.length = s.calls.length + 1 :=
  ((call_calls (.write dev (reg :: bytes)) s).mono (fun _ _ => congrArg List.length) fun _ => congrArg List.length).finish
    fun _ _ ht => ht

/-- The payload can be read exactly when all its bytes are valid. -/
theorem readRun_of_valid {s : State} {n : Nat} (h : ∀ k, k < n → dbv s k = true) :
    ∃ payload, Memory.readRun s.buf 0 n = some payload := by
  refine Option.ne_none_iff_exists'.mp fun hnone => ?_
  obtain ⟨k, hk, hread⟩ := (Memory.readRun_eq_none _ _ _).mp hnone
  have hvalid := h k hk
  rw [Nat.zero_add] at hread
  rw [dbv, hread] at hvalid
  cases hvalid

/-- R77: a write is sent in one call, or refused before any. -/
theorem writeFromBuffer_sent_or_refused {tmo : Timeout} {s : State} (dev reg : Byte) (n : Nat) :
    if n + 1 ≤ s.cfg.busCap ∧ ∀ k, k < n → dbv s k = true then
      (writeFromBuffer dev reg n (busPrologue tmo s)).calls.length = s.calls.length + 1
    else refusedBeforeCalls s (writeFromBuffer dev reg n (busPrologue tmo s)) := by
  split
  case isTrue h =>
    obtain ⟨hfit, hvalid⟩ := h
    obtain ⟨payload, hrun⟩ := readRun_of_valid hvalid
    rw [writeFromBuffer_of_payload (s := busPrologue tmo s) hfit hrun]
    exact writeBytes_calls_length dev reg payload (busPrologue tmo s)
  case isFalse h =>
    have hrefused : writeFromBuffer dev reg n (busPrologue tmo s) = raise .callerContractViolation (busPrologue tmo s) := by
      by_cases hfit : n + 1 ≤ s.cfg.busCap
      · have hmissing : Memory.readRun s.buf 0 n = none := by
          refine (Memory.readRun_eq_none _ _ _).mpr ?_
          obtain ⟨k, hk⟩ := not_forall.mp (not_and.mp h hfit)
          obtain ⟨hlt, hinvalid⟩ := Classical.not_imp.mp hk
          exact ⟨k, hlt, by simpa [dbv] using hinvalid⟩
        exact writeFromBuffer_of_missing (s := busPrologue tmo s) hmissing
      · exact writeFromBuffer_of_not_fit (s := busPrologue tmo s) hfit
    rw [hrefused]
    exact raise_busPrologue_refusedBeforeCalls tmo s

/-- R77: a sequence command of length 0 only completes. -/
theorem exec_noop {dev reg len : Byte} {inc : Bool} {tmo : Timeout} {i : Instr} (hzero : len.toNat = 0)
    (hi : i = .rdbytes dev reg len inc tmo ∨ i = .rdwords dev reg len inc tmo ∨ i = .wrbytes dev reg len tmo ∨
      i = .wrwords dev reg len tmo) (s : State) : exec i s = .next (complete [] (busPrologue tmo s)) := by
  rcases hi with rfl | rfl | rfl | rfl <;> exact congrArg Host.Outcome.next (if_pos hzero)

/-- Settles O38, row by row of R77. -/
theorem sequenceLengthTable : Obligations.SequenceLengthTable := by
  intro s dev reg len inc tmo
  refine ⟨?zero, fun h1 => ⟨?readBytes, ?readWords, ?writeBytes, ?writeWords⟩⟩
  case zero =>
    intro i hi hzero
    exact ⟨_, exec_noop hzero hi s, complete_answeredOk (words := []) (Nat.zero_le 4) (busPrologue tmo s), rfl, rfl,
      ⟨rfl, rfl, rfl, rfl, rfl⟩, fun _ => rfl, ⟨rfl, rfl⟩, ⟨rfl, rfl, rfl⟩, ⟨rfl, rfl⟩⟩
  case readBytes => exact ⟨_, exec_rdbytes h1, readIntoBuffer_calls_lt (s := busPrologue tmo s) h1⟩
  case readWords =>
    by_cases h128 : len.toNat ≤ 128
    · simp only [if_pos h128]
      exact ⟨_, exec_rdwords h1 h128, readIntoBuffer_calls_lt (s := busPrologue tmo s) (by omega)⟩
    · have hexec : exec (.rdwords dev reg len inc tmo) s = .next (raise .callerContractViolation (busPrologue tmo s)) :=
        congrArg Host.Outcome.next ((if_neg (by omega)).trans (if_pos (by omega)))
      simp only [if_neg h128]
      exact ⟨_, hexec, raise_busPrologue_refusedBeforeCalls tmo s⟩
  case writeBytes => exact ⟨_, exec_wrbytes h1, writeFromBuffer_sent_or_refused dev reg _⟩
  case writeWords => exact ⟨_, exec_wrwords h1, writeFromBuffer_sent_or_refused dev reg _⟩

end Sys2Proof.Machine
end

section
/-! What failing driver calls make of a command (R46, R57, R211 to R213): the first call of any bus command, and the read half of a scalar one. -/

namespace Sys2Proof.Machine

theorem Flow.andThen_finish {α β : Type} (f : Flow α) (g : α → State → Flow β) (k : β → State → State) :
    (f.andThen g).finish k = f.finish fun a s => (g a s).finish k := by
  cases f <;> rfl

/-! ### The read half -/

/-- A well-formed scalar read or read-modify-write is its read half, then something (R51). -/
theorem exec_eq_readHalf {i : Instr} {tmo : Timeout} {dev reg : Byte} {n : Nat} (hi : timeoutOf i = some tmo)
    (hwf : i.wellFormed = true) (hhalf : readHalf i = some (dev, reg, n)) (s : State) :
    ∃ k, exec i s = .next ((memRead dev reg n (busPrologue tmo s)).finish k) := by
  have hrun {start len : Byte} {width : Nat} (h : runLegal width start len = true) : descriptorOk width start len = true := by
    simp only [runLegal, Bool.and_eq_true, decide_eq_true_eq] at h
    exact descriptorOk_iff.mpr (by omega)
  cases i <;> simp only [timeoutOf, Option.some.injEq, reduceCtorEq] at hi <;> subst hi <;>
    simp only [readHalf, Option.some.injEq, Prod.mk.injEq, reduceCtorEq] at hhalf <;> obtain ⟨rfl, rfl, rfl⟩ := hhalf
  case rdbyte | rdword => exact ⟨_, rfl⟩
  case rdbit | rdbitw | wrbit | wrbitw => exact ⟨_, exec_of_test (test := bitNumberOk _ _) hwf rfl⟩
  case rdbits | rdbitsw | wrbits | wrbitsw => exact ⟨_, exec_of_test (hrun hwf) rfl⟩

section
variable {tmo : Timeout} {s : State} {calls : List BusCall} {rest : List CallEvent} {ms : Nat}

/-- What a bus command leaves that fails some answered calls later. -/
theorem raiseAt_afterCalls (f : Failure) :
    answeredFailure s (raiseAt ms f (afterCalls tmo s calls rest ms)) f ms ∧
      usedBus s (raiseAt ms f (afterCalls tmo s calls rest ms)) tmo calls rest ms ∧
      sameSettings s (raiseAt ms f (afterCalls tmo s calls rest ms)) ∧
      sameBuffer s (raiseAt ms f (afterCalls tmo s calls rest ms)) ∧
      sameFilter s (raiseAt ms f (afterCalls tmo s calls rest ms)) ∧
      samePorts s (raiseAt ms f (afterCalls tmo s calls rest ms)) ∧
      sameLatches s (raiseAt ms f (afterCalls tmo s calls rest ms)) :=
  ⟨raiseAt_answeredFailure ms f (afterCalls tmo s calls rest ms), ⟨rfl, rfl, rfl, rfl⟩, ⟨rfl, rfl, rfl, rfl, rfl⟩,
    fun _ => rfl, ⟨rfl, rfl⟩, ⟨rfl, rfl, rfl⟩, ⟨rfl, rfl⟩⟩

end

/-- The read call of a read half fails in time, after an address write that passed. -/
theorem memRead_fails {tmo : Timeout} {s : State} {dev reg : Byte} {n d1 d2 : Nat} {x : List Byte} {reply : Reply}
    {rest : List CallEvent} {f : Failure} (hin : inTime tmo s (d1 + d2))
    (hbus : s.bus = .scripted (.answered d1 (.ack x) :: .answered d2 reply :: rest)) (hfail : judge (.read dev n) reply = .error f) :
    memRead dev reg n (busPrologue tmo s) =
      .stop (raiseAt (d1 + d2) f (afterCalls tmo s [.write dev [reg], .read dev n] rest (d1 + d2))) := by
  have hwrite := call_write_ack (s := busPrologue tmo s) (dev := dev) (bytes := [reg]) hbus
    (deadlineReached_eq_false.mpr (hin.mono (by simp)))
  rw [memRead, hwrite, Flow.andThen_go, call_scripted rfl, settleCall_fail (f := f) ?time hfail]
  case time => exact deadlineReached_eq_false.mpr (hin.mono (by simp))
  simp [afterCalls]

/-- Settles O40: the read half fails, so nothing after it is run. -/
theorem failedReadHalfIssuesNoWrite : Obligations.FailedReadHalfIssuesNoWrite := by
  intro i tmo s dev reg n d1 d2 x reply rest hi hwf hhalf hin hbus hreply
  have hfail : judge (.read dev n) reply = .error (if reply = .nack then .busNack else .malformedResponse) := by
    cases reply with
    | nack => rfl
    | ack bytes => exact judge_read_short dev (hreply bytes rfl)
  obtain ⟨k, hexec⟩ := exec_eq_readHalf hi hwf hhalf s
  rw [memRead_fails hin hbus hfail, Flow.finish_stop] at hexec
  exact ⟨_, hexec, raiseAt_afterCalls _⟩

/-! ### The first call -/

/-- `t` is what a bus command begun in `s` leaves that issues a first driver call, with DB or K cleared before it at most. -/
def StartsWithCall (tmo : Timeout) (s t : State) : Prop :=
  ∃ (c : BusCall) (buf : Memory) (chunk : Nat) (k : List Byte → State → State),
    t = (call c { busPrologue tmo s with buf := buf, chunk := chunk }).finish k

theorem memRead_startsWithCall (tmo : Timeout) (s : State) (dev reg : Byte) (n : Nat) (k : List Byte → State → State) :
    StartsWithCall tmo s ((memRead dev reg n (busPrologue tmo s)).finish k) :=
  ⟨.write dev [reg], s.buf, s.chunk, _, Flow.andThen_finish _ _ k⟩

theorem writeBytes_startsWithCall (tmo : Timeout) (s : State) (dev reg : Byte) (bytes : List Byte) :
    StartsWithCall tmo s (writeBytes dev reg bytes (busPrologue tmo s)) :=
  ⟨.write dev (reg :: bytes), s.buf, s.chunk, _, rfl⟩

theorem readIntoBuffer_startsWithCall (tmo : Timeout) (s : State) (dev reg : Byte) {n : Nat} (inc : Bool) (unit : Nat)
    (h1 : 1 ≤ n) : StartsWithCall tmo s (readIntoBuffer dev reg n inc unit (busPrologue tmo s)) := by
  obtain ⟨m, rfl⟩ : ∃ m, n = m + 1 := ⟨n - 1, by omega⟩
  rw [readIntoBuffer, seqRead, seqLoop, if_pos (Nat.succ_pos m)]
  simp only [memRead, Flow.andThen_finish]
  exact ⟨.write dev [chunkReg reg inc 0], [], 0, _, rfl⟩

theorem writeFromBuffer_startsWithCall (tmo : Timeout) (s : State) (dev reg : Byte) (n : Nat) :
    (writeFromBuffer dev reg n (busPrologue tmo s)).calls = s.calls ∨
      StartsWithCall tmo s (writeFromBuffer dev reg n (busPrologue tmo s)) := by
  unfold writeFromBuffer
  split
  · split
    · exact .inr (writeBytes_startsWithCall tmo s dev reg _)
    · exact .inl rfl
  · exact .inl rfl

/-- A bus command issues no call, or begins with one. -/
theorem exec_startsWithCall {i : Instr} {tmo : Timeout} (hi : timeoutOf i = some tmo) (s : State) :
    ∃ t, exec i s = .next t ∧ (t.calls = s.calls ∨ StartsWithCall tmo s t) := by
  cases hwf : i.wellFormed with
  | false =>
    obtain ⟨t, hexec, ms, -, hcalls, -⟩ := exec_illFormed hwf s
    exact ⟨t, hexec, .inl hcalls⟩
  | true =>
    cases hhalf : readHalf i with
    | some half =>
      obtain ⟨k, hexec⟩ := exec_eq_readHalf (dev := half.1) (reg := half.2.1) (n := half.2.2) hi hwf hhalf s
      exact ⟨_, hexec, .inr (memRead_startsWithCall tmo s _ _ _ k)⟩
    | none =>
      cases i <;> simp only [timeoutOf, Option.some.injEq, reduceCtorEq] at hi <;> subst hi <;>
        simp only [readHalf, reduceCtorEq] at hhalf
      case wrbyte | wrword => exact ⟨_, rfl, .inr (writeBytes_startsWithCall _ s _ _ _)⟩
      case rdbytes dev reg len inc tmo =>
        by_cases hzero : len.toNat = 0
        · exact ⟨_, exec_noop hzero (.inl rfl) s, .inl rfl⟩
        · exact ⟨_, exec_rdbytes (by omega), .inr (readIntoBuffer_startsWithCall tmo s dev reg inc 1 (by omega))⟩
      case rdwords dev reg len inc tmo =>
        by_cases hzero : len.toNat = 0
        · exact ⟨_, exec_noop hzero (.inr (.inl rfl)) s, .inl rfl⟩
        · have h128 : len.toNat ≤ 128 := of_decide_eq_true hwf
          exact ⟨_, exec_rdwords (by omega) h128, .inr (readIntoBuffer_startsWithCall tmo s dev reg inc 2 (by omega))⟩
      case wrbytes dev reg len tmo =>
        by_cases hzero : len.toNat = 0
        · exact ⟨_, exec_noop (inc := false) hzero (.inr (.inr (.inl rfl))) s, .inl rfl⟩
        · exact ⟨_, exec_wrbytes (by omega), writeFromBuffer_startsWithCall tmo s dev reg _⟩
      case wrwords dev reg len tmo =>
        by_cases hzero : len.toNat = 0
        · exact ⟨_, exec_noop (inc := false) hzero (.inr (.inr (.inr rfl))) s, .inl rfl⟩
        · exact ⟨_, exec_wrwords (by omega), writeFromBuffer_startsWithCall tmo s dev reg _⟩

/-- The state in which the first call of a bus command is settled. -/
def firstIssued (tmo : Timeout) (s : State) (c : BusCall) (rest : List CallEvent) (buf : Memory) (chunk : Nat) : State :=
  { busPrologue tmo s with
    buf := buf
    chunk := chunk
    bus := .scripted rest
    calls := c :: s.calls
    fresh := s.fresh + 1 }

theorem StartsWithCall.scripted {tmo : Timeout} {s t : State} {ev : CallEvent} {rest : List CallEvent}
    (h : StartsWithCall tmo s t) (hbus : s.bus = .scripted (ev :: rest)) :
    ∃ c buf chunk k, t = (settleCall c ev (firstIssued tmo s c rest buf chunk)).finish k := by
  obtain ⟨c, buf, chunk, k, rfl⟩ := h
  exact ⟨c, buf, chunk, k, by rw [call_scripted (s := { busPrologue tmo s with buf := buf, chunk := chunk }) hbus]; rfl⟩

/-- Settles O39: the draw of the first call ends the command in each of these cases, by the rule of a driver call (R46). -/
theorem firstCallFailures : Obligations.FirstCallFailures := by
  intro i tmo s t ev rest hi hbus hexec hcalls
  obtain ⟨t', ht', hstart⟩ := exec_startsWithCall hi s
  obtain rfl : t' = t := Host.Outcome.next.inj (ht'.symm.trans hexec)
  obtain ⟨c, buf, chunk, k, rfl⟩ := (hstart.resolve_left hcalls).scripted hbus
  have hfailure (ms : Nat) (f : Failure) (e : State) (he : e = raiseAt ms f (firstIssued tmo s c rest buf chunk)) :
      answeredFailure s e f ms ∧ e.calls.length = s.calls.length + 1 := by
    rw [he]
    exact ⟨raiseAt_answeredFailure ms f (firstIssued tmo s c rest buf chunk), rfl⟩
  refine ⟨?neverBounded, ?neverUnbounded, ?late, ?nack⟩
  case neverBounded =>
    rintro rfl hbound
    exact hfailure _ _ _ (congrArg (Flow.finish · k) (settleCall_never_bounded (s := firstIssued tmo s c rest buf chunk) hbound))
  case neverUnbounded =>
    rintro rfl hzero
    rw [settleCall_never_unbounded (s := firstIssued tmo s c rest buf chunk) hzero]
    exact ⟨rfl, rfl, rfl, rfl⟩
  case late =>
    rintro d reply rfl hbound hlate
    have hd : deadlineReached (firstIssued tmo s c rest buf chunk) ((firstIssued tmo s c rest buf chunk).elapsed + d) = true :=
      deadlineReached_eq_true.mpr ⟨hbound, le_trans hlate (Nat.le_add_left d _)⟩
    exact hfailure _ _ _ (congrArg (Flow.finish · k) (settleCall_late reply hd))
  case nack =>
    rintro d rfl hin
    have helapsed : (firstIssued tmo s c rest buf chunk).elapsed + d = d := Nat.zero_add d
    have hd : deadlineReached (firstIssued tmo s c rest buf chunk) ((firstIssued tmo s c rest buf chunk).elapsed + d) = false := by
      rw [helapsed]
      exact deadlineReached_eq_false.mpr hin
    rw [settleCall_fail hd (judge_nack c), helapsed]
    exact ⟨raiseAt_answeredFailure d .busNack { firstIssued tmo s c rest buf chunk with elapsed := d }, rfl⟩

end Sys2Proof.Machine
end

section
/-! The decode commands on a complete frame: the integers of the frame (R142 to R147), the floating results (R164 to R175), and their
repetition (R176). -/

namespace Sys2Proof.Machine

/-! ### Reading a complete frame -/

/-- `fr` is the frame whose bytes DB holds, laid out by CHEN (R140, R141). -/
structure FrameOf (s : State) (bs : Nat → Byte) (fr : Frame) : Prop where
  chen : fr.chen = s.chen
  byte : ∀ a, a < frameLength s.chen → frameByte fr a = bs a

/-- R140: with its channels on and every byte of the frame there, a decode command runs its body on the frame. -/
theorem exec_of_frameHolds {i : Instr} {channels : List Channel} {k : Frame → State → State} {s : State} {bs : Nat → Byte}
    (hexec : exec i s = .next (decodeFrame channels k s)) (hon : channels.all (channelEnabled s.chen) = true)
    (h : frameHolds s bs) : ∃ fr, FrameOf s bs fr ∧ exec i s = .next (k fr s) := by
  obtain ⟨bytes, hbytes⟩ := h.readRun
  refine ⟨_, ⟨rfl, fun a ha => ?_⟩, hexec.trans (congrArg _ (decodeFrame_of_frame k hon hbytes))⟩
  exact Option.some.inj ((frameHolds_of_readRun hbytes a ha).symm.trans (h a ha))

section
variable {s : State} {bs : Nat → Byte} {fr : Frame}

theorem FrameOf.frameF16_eq (h : FrameOf s bs fr) {o : Nat} (ho : o + 1 < frameLength s.chen) : frameF16 fr o = int16 bs o := by
  rw [frameF16, framePattern16, h.byte o (by omega), h.byte (o + 1) ho, int16]

theorem FrameOf.frameF32_eq (h : FrameOf s bs fr) {o : Nat} (ho : o + 3 < frameLength s.chen) :
    frameF32 fr o = (field32 bs o).toInt := by
  rw [frameF32, framePattern32, h.byte o (by omega), h.byte (o + 1) (by omega), h.byte (o + 2) (by omega), h.byte (o + 3) ho,
    field32]

theorem frameLength_quat (hquat : s.chen.getLsbD 0 = true) : 16 ≤ frameLength s.chen := by
  simp only [frameLength, hquat, Bool.toNat_true]
  omega

theorem FrameOf.rawQuatOf_eq (h : FrameOf s bs fr) (hquat : s.chen.getLsbD 0 = true) : rawQuatOf fr = quatAt bs := by
  have hlen := frameLength_quat hquat
  have hview {o : Nat} (ho : o + 3 < 16) : frameF32 fr (qbase fr + o) = (field32 bs o).toInt := by
    rw [qbase, Nat.zero_add]
    exact h.frameF32_eq (by omega)
  simp only [rawQuatOf, hview, Nat.reduceAdd, Nat.reduceLT]
  rfl

/-- R145: the gyro vector at its base. -/
theorem FrameOf.gyroOf_eq (h : FrameOf s bs fr) (hgyro : s.chen.getLsbD 1 = true) :
    gyroOf fr = ⟨int16 bs (gyroBase s.chen), int16 bs (gyroBase s.chen + 2), int16 bs (gyroBase s.chen + 4)⟩ := by
  have hbase : gbase fr = gyroBase s.chen := by rw [gbase, h.chen, gyroBase, chenBit]
  have hlen : gyroBase s.chen + 8 ≤ frameLength s.chen := by
    simp only [frameLength, gyroBase, hgyro, Bool.toNat_true]
    omega
  rw [gyroOf, hbase, Nat.add_zero, h.frameF16_eq (by omega), h.frameF16_eq (by omega), h.frameF16_eq (by omega)]

/-- R147: the mag vector at its base. -/
theorem FrameOf.magOf_eq (h : FrameOf s bs fr) (hmag : s.chen.getLsbD 2 = true) :
    magOf fr = ⟨int16 bs (magBase s.chen), int16 bs (magBase s.chen + 2), int16 bs (magBase s.chen + 4)⟩ := by
  have hbase : mbase fr = magBase s.chen := by rw [mbase, h.chen, magBase, chenBit, chenBit]
  have hlen : magBase s.chen + 8 ≤ frameLength s.chen := by
    simp only [frameLength, magBase, hmag, Bool.toNat_true]
    omega
  rw [magOf, hbase, Nat.add_zero, h.frameF16_eq (by omega), h.frameF16_eq (by omega), h.frameF16_eq (by omega)]

/-- R146: the accel vector at its base. -/
theorem FrameOf.accelOf_eq (h : FrameOf s bs fr) (haccel : s.chen.getLsbD 3 = true) :
    accelOf fr = ⟨int16 bs (accelBase s.chen), int16 bs (accelBase s.chen + 4), int16 bs (accelBase s.chen + 8)⟩ := by
  have hbase : abase fr = accelBase s.chen := by rw [abase, h.chen, accelBase, chenBit, chenBit, chenBit]
  have hlen : accelBase s.chen + 16 ≤ frameLength s.chen := by
    simp only [frameLength, accelBase, haccel, Bool.toNat_true]
    omega
  rw [accelOf, hbase, Nat.add_zero, h.frameF16_eq (by omega), h.frameF16_eq (by omega), h.frameF16_eq (by omega)]

end

/-- A decode command that completes changes nothing but its answer (R140, R217). -/
theorem complete_decoded {words : List Word} (hlen : words.length ≤ 4) (s : State) :
    answeredOk s (complete words s) words s.elapsed ∧ quietDecode s (complete words s) ∧ sameFilter s (complete words s) :=
  ⟨complete_answeredOk hlen s, complete_quietDecode words s, complete_sameFilter words s⟩

/-! ### Integers -/

theorem sextInt_int16 (bs : Nat → Byte) (o : Nat) : sextInt (int16 bs o) = field16 bs o := rfl

theorem sextInt_field32 (bs : Nat → Byte) (o : Nat) : sextInt (field32 bs o).toInt = field32 bs o := BitVec.ofInt_toInt

theorem channel_on {s : State} (c : Channel) (h : s.chen.getLsbD (channelBit c) = true) :
    [c].all (channelEnabled s.chen) = true := by
  simpa [channelEnabled] using h

/-- Settles O41: each view of the frame is the field of the spec at its offset. -/
theorem integerQuaternion : Obligations.IntegerQuaternion := by
  intro s bs hquat hframe
  have hlen := frameLength_quat hquat
  constructor
  · obtain ⟨fr, hfr, hexec⟩ := exec_of_frameHolds (i := .dq16) rfl (channel_on .quat hquat) hframe
    have hview {o : Nat} (ho : o + 1 < 16) : sextInt (frameF16 fr (qbase fr + o)) = field16 bs o := by
      rw [qbase, Nat.zero_add, hfr.frameF16_eq (by omega), sextInt_int16]
    simp only [hview, Nat.reduceAdd, Nat.reduceLT] at hexec
    exact ⟨_, hexec, complete_decoded (by simp) s⟩
  · obtain ⟨fr, hfr, hexec⟩ := exec_of_frameHolds (i := .dq32) rfl (channel_on .quat hquat) hframe
    have hview {o : Nat} (ho : o + 3 < 16) : sextInt (frameF32 fr (qbase fr + o)) = field32 bs o := by
      rw [qbase, Nat.zero_add, hfr.frameF32_eq (by omega), sextInt_field32]
    simp only [hview, Nat.reduceAdd, Nat.reduceLT] at hexec
    exact ⟨_, hexec, complete_decoded (by simp) s⟩

/-- The vector commands on a complete frame: the words of the vector, in the form the command gives them. -/
theorem exec_vector {i : Instr} {c : Channel} {vector : Frame → Vec3 Int} (words : State → Vec3 Int → List Word) {s : State}
    {bs : Nat → Byte} {v : Vec3 Int} {w0 w1 w2 : Word}
    (hexec : exec i s = .next (decodeFrame [c] (fun fr s => complete (words s (vector fr)) s) s))
    (hon : s.chen.getLsbD (channelBit c) = true) (h : frameHolds s bs) (hvector : ∀ fr, FrameOf s bs fr → vector fr = v)
    (hwords : words s v = [w0, w1, w2]) :
    ∃ t, exec i s = .next t ∧ answeredOk s t [w0, w1, w2] s.elapsed ∧ quietDecode s t ∧ sameFilter s t := by
  obtain ⟨fr, hfr, hend⟩ := exec_of_frameHolds hexec (channel_on c hon) h
  simp only [hvector fr hfr, hwords] at hend
  exact ⟨_, hend, complete_decoded (by simp) s⟩

/-- Settles O42: the vector of each channel, sign-extended. -/
theorem integerVectors : Obligations.IntegerVectors := by
  intro s bs hframe
  refine ⟨fun hgyro => ?_, fun hmag => ?_, fun haccel => ?_⟩
  · exact exec_vector (fun _ => intWords) rfl hgyro hframe (fun _ hfr => hfr.gyroOf_eq hgyro) rfl
  · exact exec_vector (fun _ => intWords) rfl hmag hframe (fun _ hfr => hfr.magOf_eq hmag) rfl
  · exact exec_vector (fun _ => intWords) rfl haccel hframe (fun _ hfr => hfr.accelOf_eq haccel) rfl

/-! ### Floating results -/

/-- R161: a rational in the chosen numerics, as the spec writes it. -/
theorem rndRat_eq_rndValue (s : State) (q : Rat) : rndRat s.cfg.numerics q = rndValue s q := by
  rw [rndRat, rndValue, ExactReal.ofRat, pow_two]

theorem rndWords_eq (s : State) (v : Vec3 Rat) :
    rndWords s.cfg.numerics v = [rndValue s v.x, rndValue s v.y, rndValue s v.z] := by
  simp only [rndWords, Vec3.map, Vec3.toList, rndRat_eq_rndValue]

theorem floatWords_eq (s : State) (v : Vec3 Int) :
    floatWords s.cfg.numerics v = [rndValue s v.x, rndValue s v.y, rndValue s v.z] := rndWords_eq s _

/-- Settles O50: the vector of each channel, as rationals, each rounded. -/
theorem floatingVectors : Obligations.FloatingVectors := by
  intro s bs hframe
  refine ⟨fun hgyro => ?_, fun hmag => ?_, fun haccel => ?_⟩
  · exact exec_vector (fun s => floatWords s.cfg.numerics) rfl hgyro hframe (fun _ hfr => hfr.gyroOf_eq hgyro) (floatWords_eq s _)
  · exact exec_vector (fun s => floatWords s.cfg.numerics) rfl hmag hframe (fun _ hfr => hfr.magOf_eq hmag) (floatWords_eq s _)
  · exact exec_vector (fun s => floatWords s.cfg.numerics) rfl haccel hframe (fun _ hfr => hfr.accelOf_eq haccel)
      (floatWords_eq s _)

/-! ### The quaternion in rationals -/

/-- R168: the gravity vector of the formulas. -/
theorem gravity_eq (q : RawQuat) : gravity q = ⟨gravityX q, gravityY q, gravityZ q⟩ := by
  simp only [gravity, gravityX, gravityY, gravityZ, normSq_eq_sumSquares, Vec3.mk.injEq]
  refine ⟨?_, ?_, ?_⟩ <;> push_cast <;> ring

/-- Settles O47: (2(xz − wy))² + (2(wx + yz))² + (w² − x² − y² + z²)² = S². -/
theorem gravityHasUnitLength : Obligations.GravityHasUnitLength := by
  intro q hq
  have hS : ((normSq q : Int) : Rat) ≠ 0 := by exact_mod_cast hq
  have hunit : (gravity q).x ^ 2 + (gravity q).y ^ 2 + (gravity q).z ^ 2 = 1 := by
    simp only [gravity, div_pow]
    rw [← add_div, ← add_div, div_eq_one_iff_eq (pow_ne_zero 2 hS)]
    simp only [normSq]
    push_cast
    ring
  have habs {a b c : Rat} (h : a ^ 2 + b ^ 2 + c ^ 2 = 1) : -1 ≤ a ∧ a ≤ 1 :=
    abs_le.mp ((sq_le_one_iff_abs_le_one a).mp (by nlinarith [sq_nonneg b, sq_nonneg c]))
  obtain ⟨hx, hx'⟩ := habs hunit
  obtain ⟨hy, hy'⟩ := habs (a := (gravity q).y) (b := (gravity q).x) (c := (gravity q).z) (by linarith)
  obtain ⟨hz, hz'⟩ := habs (a := (gravity q).z) (b := (gravity q).x) (c := (gravity q).y) (by linarith)
  exact ⟨gravity_eq q, hunit, hx, hx', hy, hy', hz, hz'⟩

/-- R162: scaling a component and S together keeps the real. -/
theorem overSqrt_scale {k : Int} (hk : 0 < k) (n S : Int) : ExactReal.overSqrt (k * n) (k * k * S) = ExactReal.overSqrt n S := by
  have hsign : k * n < 0 ↔ n < 0 := by
    rw [mul_neg_iff]
    omega
  have hk' : ((k * k : Int) : Rat) ≠ 0 := by exact_mod_cast (mul_pos hk hk).ne'
  have hsquare : (((k * n * (k * n) : Int) : Rat)) / ((k * k * S : Int) : Rat) = ((n * n : Int) : Rat) / (S : Rat) := by
    rw [show k * n * (k * n) = k * k * (n * n) by ring, Int.cast_mul (k * k), Int.cast_mul (k * k) S, mul_div_mul_left _ _ hk']
  simp only [ExactReal.overSqrt, hsign, hsquare]

/-- Settles O49: S grows by k², each component by k, and `overSqrt_scale` cancels them. -/
theorem unitQuaternionIgnoresLength : Obligations.UnitQuaternionIgnoresLength := by
  intro q k hk _
  have hS : normSq ⟨k * q.w, k * q.x, k * q.y, k * q.z⟩ = k * k * normSq q := by
    simp only [normSq]
    ring
  simp only [unitQuat, hS, overSqrt_scale hk]

/-! ### The commands on the quaternion -/

/-- R163: on a complete frame whose quaternion is not degenerate, a command that normalises runs its body on it. -/
theorem exec_of_quat {i : Instr} {channels : List Channel} {k : Frame → RawQuat → State → State} {s : State} {bs : Nat → Byte}
    (hexec : exec i s = .next (decodeFrame channels (fun fr => withQuat fr (k fr)) s))
    (hon : channels.all (channelEnabled s.chen) = true) (hquat : s.chen.getLsbD 0 = true) (h : frameHolds s bs)
    (hlong : (s.cfg.qepsSqRaw : Int) ≤ sumSquares (quatAt bs)) :
    ∃ fr, FrameOf s bs fr ∧ exec i s = .next (k fr (quatAt bs) s) := by
  obtain ⟨fr, hfr, hend⟩ := exec_of_frameHolds hexec hon h
  have hraw := hfr.rawQuatOf_eq hquat
  refine ⟨fr, hfr, hend.trans (congrArg _ ?_)⟩
  rw [withQuat, hraw, normSq_eq_sumSquares, if_neg (not_lt.mpr hlong)]

theorem rnd_overSqrt (s : State) (n S : Int) :
    (numericsOf s.cfg.numerics).rnd (ExactReal.overSqrt n S) = rndComponent s n S := by
  rw [rndComponent, ExactReal.overSqrt]
  push_cast
  rw [pow_two]

/-- Settles O45: past the degenerate test, the components of `unitQuat` of the frame's quaternion, each rounded. -/
theorem unitQuaternionFloating : Obligations.UnitQuaternionFloating := by
  intro s bs hquat hframe hlong
  obtain ⟨fr, -, hexec⟩ := exec_of_quat (i := .dqf) rfl (channel_on .quat hquat) hquat hframe hlong
  simp only [unitQuat, rnd_overSqrt, normSq_eq_sumSquares] at hexec
  exact ⟨_, hexec, complete_decoded (by simp) s⟩

/-- Settles O46: past the degenerate test, `gravity` of the frame's quaternion, each component rounded. -/
theorem gravityFloating : Obligations.GravityFloating := by
  intro s bs hquat hframe hlong
  obtain ⟨fr, -, hexec⟩ := exec_of_quat (i := .dgrav) rfl (channel_on .quat hquat) hquat hframe hlong
  simp only [rndWords_eq, gravity_eq] at hexec
  exact ⟨_, hexec, complete_decoded (by simp) s⟩

/-- R176 P2: three rounded angles are three numbers. -/
theorem angles_isNumber (c : NumericsChoice) (angles : Vec3 Angle) :
    ∀ w ∈ (angles.map (rndAngle c)).toList, (numericsOf c).isNumber w = true := by
  simp [Vec3.map, Vec3.toList, rndAngle_isNumber]

/-- Settles O48: past the degenerate test, three rounded angles, whatever the open functions give. -/
theorem anglesComplete : Obligations.AnglesComplete := by
  intro s bs hquat hframe hlong
  constructor
  · obtain ⟨fr, -, hexec⟩ := exec_of_quat (i := .deuler) rfl (channel_on .quat hquat) hquat hframe hlong
    obtain ⟨hok, hquiet⟩ := complete_decoded
      (words := ((Config.eulerFn (unitQuat (quatAt bs))).map (rndAngle s.cfg.numerics)).toList) (by simp [Vec3.toList]) s
    exact ⟨_, hexec, hok, angles_isNumber _ _, hquiet⟩
  · obtain ⟨fr, -, hexec⟩ := exec_of_quat (i := .dypr) rfl (channel_on .quat hquat) hquat hframe hlong
    rw [← gravity_eq]
    obtain ⟨hok, hquiet⟩ := complete_decoded
      (words := ((Config.yprFn (unitQuat (quatAt bs)) (gravity (quatAt bs))).map (rndAngle s.cfg.numerics)).toList)
      (by simp [Vec3.toList]) s
    exact ⟨_, hexec, hok, angles_isNumber _ _, hquiet⟩

/-! ### Linear acceleration -/

/-- R174: the three axes, in the spec's own terms. -/
theorem linearAccel_eq (s : State) (a : Vec3 Int) (q : RawQuat) :
    linearAccel s.a1g a (gravity q) = ⟨linearAt s a.x (gravityX q), linearAt s a.y (gravityY q), linearAt s a.z (gravityZ q)⟩ := by
  rw [gravity_eq]
  rfl

/-- `DLINACC lp` has completed in `t` with these words, which have become P (R175). -/
def Filtered (s t : State) (y : Vec3 Word) : Prop :=
  answeredOk s t [y.x, y.y, y.z] s.elapsed ∧ quietDecode s t ∧ t.pv = true ∧ t.prev = y

theorem complete_filtered (s : State) {y y' : Vec3 Word} (h : y = y') :
    Filtered s (complete y.toList { s with prev := y, pv := true }) y' := by
  subst h
  exact
    ⟨complete_answeredOk (words := y.toList) (by simp [Vec3.toList]) { s with prev := y, pv := true },
      complete_quietDecode y.toList { s with prev := y, pv := true }, rfl, rfl⟩

/-- The filter's rounded output (R175). -/
def filterWords (s : State) (xl : Vec3 Rat) : Vec3 Word :=
  (filterOut s.cfg.numerics s.pv s.lpfa s.prev xl).map (rndRat s.cfg.numerics)

theorem filterWords_of_pv_false {s : State} (hpv : s.pv = false) (xl : Vec3 Rat) :
    filterWords s xl = ⟨rndValue s xl.x, rndValue s xl.y, rndValue s xl.z⟩ := by
  simp [filterWords, filterOut, hpv, Vec3.map, rndRat_eq_rndValue]

theorem filterWords_of_pv_true {s : State} (hpv : s.pv = true) (xl : Vec3 Rat) {smooth : Word → Rat → Word}
    (hsmooth : ∀ p v, smooth p v = rndValue s ((numericsOf s.cfg.numerics).val p +
      (s.lpfa.toNat : Rat) / 65536 * (v - (numericsOf s.cfg.numerics).val p))) :
    filterWords s xl = ⟨smooth s.prev.x xl.x, smooth s.prev.y xl.y, smooth s.prev.z xl.z⟩ := by
  simp [filterWords, filterOut, hpv, Vec3.map, rndRat_eq_rndValue, filterAxis, hsmooth]

/-- Settles O52: `linearAccel` on the frame's vector, then the rounding, or the filter by its PV. -/
theorem linearAcceleration : Obligations.LinearAcceleration := by
  rintro s bs q ab x y z hquat haccel hframe rfl hlong rfl rfl rfl rfl
  have hon : [Channel.quat, Channel.accel].all (channelEnabled s.chen) = true := by
    simpa [channelEnabled, channelBit] using ⟨hquat, haccel⟩
  obtain ⟨fr, hfr, hplain⟩ := exec_of_quat (i := .dlinacc false) rfl hon hquat hframe hlong
  obtain ⟨fr', hfr', hfilter⟩ := exec_of_quat (i := .dlinacc true) rfl hon hquat hframe hlong
  simp only [hfr.accelOf_eq haccel, linearAccel_eq, rndWords_eq, Bool.false_eq_true, if_false] at hplain
  simp only [hfr'.accelOf_eq haccel, linearAccel_eq, if_true] at hfilter
  refine ⟨⟨_, hplain, complete_decoded (by simp) s⟩, fun hpv => ⟨_, hfilter, ?first⟩,
    fun hpv smooth hsmooth => ⟨_, hfilter, ?next⟩⟩
  case first => exact complete_filtered s (filterWords_of_pv_false hpv _)
  case next => exact complete_filtered s (filterWords_of_pv_true hpv _ hsmooth)

/-! ### Decoding twice -/

/-- What two commands left of `s` and of `t` shows one and the same response. -/
def SameAnswer (s t a b : State) : Prop := ∃ r, a.out = r :: s.out ∧ b.out = r :: t.out

theorem SameAnswer.raise (f : Failure) {s t : State} (helapsed : t.elapsed = s.elapsed) :
    SameAnswer s t (raise f s) (raise f t) := ⟨_, rfl, by rw [raise_out, helapsed]⟩

theorem SameAnswer.complete {words : List Word} (hlen : words.length ≤ 4) {s t : State} (helapsed : t.elapsed = s.elapsed) :
    SameAnswer s t (complete words s) (complete words t) :=
  ⟨_, complete_response hlen s, by rw [complete_response hlen, helapsed]⟩

/-- A decode command other than `DLINACC lp` answers the same from two states with the same DB, settings and time: it reads nothing else. -/
theorem exec_sameAnswer {i : Instr} {need : List Nat} (hi : channelsOf i = some need) (hlp : i ≠ .dlinacc true) {s t : State}
    (hchen : t.chen = s.chen) (ha1g : t.a1g = s.a1g) (hcfg : t.cfg = s.cfg) (hbuf : t.buf = s.buf)
    (helapsed : t.elapsed = s.elapsed) : ∃ a b, exec i s = .next a ∧ exec i t = .next b ∧ SameAnswer s t a b := by
  have hraise (f : Failure) : SameAnswer s t (raise f s) (raise f t) := .raise f helapsed
  have hvec (v : Vec3 Word) : v.toList.length ≤ 4 := by simp [Vec3.toList]
  cases i <;> simp only [channelsOf, reduceCtorEq] at hi <;> refine ⟨_, _, rfl, rfl, decodeFrame_rel _ hchen hbuf hraise fun fr => ?_⟩
  case dq16 | dq32 => exact .complete (by simp) helapsed
  case dgyro | dacc | dmag => exact .complete (hvec _) helapsed
  case dgyrof | daccf | dmagf => exact hcfg ▸ .complete (hvec _) helapsed
  case dqf =>
    exact withQuat_rel fr hcfg hraise fun q => hcfg ▸ .complete (by simp) helapsed
  case dgrav | deuler | dypr =>
    exact withQuat_rel fr hcfg hraise fun q => hcfg ▸ .complete (hvec _) helapsed
  case dlinacc lp =>
    obtain rfl : lp = false := by simpa using hlp
    exact withQuat_rel fr hcfg hraise fun q => hcfg ▸ ha1g ▸ .complete (hvec _) helapsed

/-- Settles O53: a decode command leaves all that `exec_sameAnswer` asks for as it was. -/
theorem decodingTwiceAnswersTheSame : Obligations.DecodingTwiceAnswersTheSame := by
  intro i need s t u hi hlp ht hu
  obtain ⟨t', ht', hend⟩ := exec_decode hi hlp s
  obtain rfl : t' = t := Host.Outcome.next.inj (ht'.symm.trans ht)
  have hkept : t'.chen = s.chen ∧ t'.a1g = s.a1g ∧ t'.cfg = s.cfg ∧ t'.buf = s.buf ∧ t'.elapsed = s.elapsed := by
    rcases hend with ⟨f, rfl⟩ | ⟨values, -, rfl⟩ <;> exact ⟨rfl, rfl, rfl, rfl, rfl⟩
  obtain ⟨hchen, ha1g, hcfg, hbuf, helapsed⟩ := hkept
  obtain ⟨a, b, ha, hb, hsame⟩ := exec_sameAnswer hi hlp hchen ha1g hcfg hbuf helapsed
  obtain rfl : a = t' := Host.Outcome.next.inj (ha.symm.trans ht)
  obtain rfl : b = u := Host.Outcome.next.inj (hb.symm.trans hu)
  exact hsame

end Sys2Proof.Machine
end

section
/-! Integers in the suggested binary32 (R161, log 12): an integer below 2^24 is its own significand, shifted, so nothing is rounded off. -/

namespace Sys2Proof.Machine

/-! ### The magnitude -/

/-- The bit-by-bit root of a perfect square is exact. -/
theorem sqrtBits_of_square {r B : Nat} (hB : 0 < B) :
    ∀ {bits m : Nat}, m ≤ r → r < m + 2 ^ bits → sqrtBits (r ^ 2 * B) B bits m = r
  | 0, m, hle, hlt => by
    simp only [sqrtBits]
    omega
  | bits + 1, m, hle, hlt => by
    have hpow := pow_succ 2 bits
    have htest : (m + 2 ^ bits) ^ 2 * B ≤ r ^ 2 * B ↔ m + 2 ^ bits ≤ r := by
      rw [Nat.mul_le_mul_right_iff hB, Nat.pow_le_pow_iff_left two_ne_zero]
    simp only [sqrtBits, htest]
    split
    · exact sqrtBits_of_square hB (by omega) (by omega)
    · exact sqrtBits_of_square hB (by omega) (by omega)

theorem log2Ratio_one {p : Nat} (hp : p ≠ 0) : log2Ratio p 1 = Nat.log2 p := by
  have hle := Nat.log2_self_le hp
  simp [log2Ratio, show Nat.log2 1 = 0 by decide, hle]

theorem log2_mul_self {a : Nat} (ha : a ≠ 0) : Nat.log2 (a * a) / 2 = Nat.log2 a := by
  have hlow : 2 * Nat.log2 a ≤ Nat.log2 (a * a) := by
    rw [Nat.le_log2 (mul_ne_zero ha ha), two_mul, pow_add]
    exact Nat.mul_le_mul (Nat.log2_self_le ha) (Nat.log2_self_le ha)
  have hhigh : Nat.log2 (a * a) < 2 * Nat.log2 a + 2 := by
    rw [Nat.log2_lt (mul_ne_zero ha ha), show 2 * Nat.log2 a + 2 = (Nat.log2 a + 1) + (Nat.log2 a + 1) by omega, pow_add]
    exact Nat.mul_lt_mul'' Nat.lt_log2_self Nat.lt_log2_self
  omega

/-- The significand of an integer below 2^24: the integer, shifted to 24 bits. -/
def significand (a : Nat) : Nat := a * 2 ^ (23 - Nat.log2 a)

section
variable {a : Nat} (ha : a ≠ 0) (hlt : a < 2 ^ 24)
include ha hlt

theorem log2_le_of_lt : Nat.log2 a ≤ 23 := Nat.le_of_lt_succ ((Nat.log2_lt ha).2 hlt)

theorem significand_bounds : 2 ^ 23 ≤ significand a ∧ significand a < 2 ^ 24 := by
  have he := log2_le_of_lt ha hlt
  constructor
  · calc 2 ^ 23 = 2 ^ Nat.log2 a * 2 ^ (23 - Nat.log2 a) := by rw [← pow_add, Nat.add_sub_cancel' he]
      _ ≤ significand a := Nat.mul_le_mul_right _ (Nat.log2_self_le ha)
  · calc significand a < 2 ^ (Nat.log2 a + 1) * 2 ^ (23 - Nat.log2 a) :=
          Nat.mul_lt_mul_of_pos_right Nat.lt_log2_self (by positivity)
      _ = 2 ^ 24 := by rw [← pow_add]; congr 1; omega

/-- The pattern of an integer below 2^24: its root is exact, so rounding leaves it. -/
theorem binary32Magnitude_mul_self : binary32Magnitude (a * a) 1 = (Nat.log2 a + 126) * 2 ^ 23 + significand a := by
  have he := log2_le_of_lt ha hlt
  obtain ⟨hlow, hhigh⟩ := significand_bounds ha hlt
  have hexp : max (log2Ratio (a * a) 1 / 2) (-126) = (Nat.log2 a : Int) := by
    have := log2_mul_self ha
    rw [log2Ratio_one (mul_ne_zero ha ha)]
    omega
  have hleft : (23 - (Nat.log2 a : Int)).toNat = 23 - Nat.log2 a := by omega
  have hright : (-(23 - (Nat.log2 a : Int))).toNat = 0 := by omega
  have hbase : ((Nat.log2 a : Int) + 126).toNat = Nat.log2 a + 126 := by omega
  have hsquare : a * a * 4 ^ (23 - Nat.log2 a) = significand a ^ 2 * 1 := by
    rw [significand, mul_one, mul_pow, ← pow_mul, mul_comm _ 2, pow_mul, sq]
    rfl
  have hroot : sqrtBits (significand a ^ 2 * 1) 1 25 0 = significand a := sqrtBits_of_square one_pos (by omega) (by omega)
  have hround : 4 * (significand a ^ 2 * 1) < (2 * significand a + 1) ^ 2 * 1 := by nlinarith
  simp only [binary32Magnitude, hexp, hleft, hright, hbase, pow_zero, one_mul, hsquare, hroot]
  rw [if_neg (by omega), if_neg (by omega), min_eq_left (by omega)]

end

/-! ### The value -/

/-- The fraction field of a pattern. -/
theorem fraction_ofNat (n : Nat) : ((BitVec.ofNat 32 n).extractLsb' 0 23).toNat = n % 2 ^ 23 := by
  rw [BitVec.extractLsb'_toNat, BitVec.toNat_ofNat, Nat.shiftRight_zero]
  omega

/-- The sign bit does not reach the fraction field. -/
theorem fraction_or_sign (w : Word) : (w ||| 0x80000000).extractLsb' 0 23 = w.extractLsb' 0 23 := by
  have h : (0x80000000 : Word).extractLsb' 0 23 = 0#23 := by decide
  rw [BitVec.extractLsb'_or, h]
  exact BitVec.or_zero

/-- A pattern of a normal number with the exponent of an integer below 2^24: its significand over the shift. -/
theorem binary32Val_of_fields {w : Word} {k m : Nat} (hk : k ≤ 23) (hexp : (w.extractLsb' 23 8).toNat = k + 127)
    (hfrac : 2 ^ 23 + (w.extractLsb' 0 23).toNat = m) :
    binary32Val w = mkRat ((if w.getLsbD 31 then -1 else 1) * (m : Nat)) (2 ^ (23 - k)) := by
  simp only [binary32Val, hexp, hfrac]
  rw [if_neg (by omega), if_neg (by omega), if_pos (by omega), show 150 - (k + 127) = 23 - k by omega]

theorem mkRat_significand (sign : Int) (a : Nat) : mkRat (sign * (significand a : Nat)) (2 ^ (23 - Nat.log2 a)) = sign * a := by
  have hpow : ((2 : Rat) ^ (23 - Nat.log2 a)) ≠ 0 := by positivity
  rw [Rat.mkRat_eq_div, significand]
  push_cast
  rw [← mul_assoc, mul_div_cancel_right₀ _ hpow]

/-- The pattern of an integer below 2^24 denotes the integer, with either sign bit. -/
theorem binary32Val_magnitude {a : Nat} (ha : a ≠ 0) (hlt : a < 2 ^ 24) :
    binary32Val (BitVec.ofNat 32 (binary32Magnitude (a * a) 1)) = a ∧
    binary32Val (BitVec.ofNat 32 (binary32Magnitude (a * a) 1) ||| 0x80000000) = -a := by
  have he := log2_le_of_lt ha hlt
  obtain ⟨hlow, hhigh⟩ := significand_bounds ha hlt
  rw [binary32Magnitude_mul_self ha hlt]
  have hexp := exponent_ofNat (n := (Nat.log2 a + 126) * 2 ^ 23 + significand a) (by omega)
  have hfrac := fraction_ofNat ((Nat.log2 a + 126) * 2 ^ 23 + significand a)
  constructor
  · rw [binary32Val_of_fields he (by rw [hexp]; omega) (m := significand a) (by rw [hfrac]; omega), mkRat_significand,
      BitVec.getLsbD_ofNat, Nat.testBit_eq_false_of_lt (by omega)]
    simp
  · rw [binary32Val_of_fields he (by rw [exponent_or_sign, hexp]; omega) (m := significand a)
      (by rw [fraction_or_sign, hfrac]; omega), mkRat_significand, BitVec.getLsbD_or]
    simp

/-! ### The statement -/

/-- R161: how an integer is rounded, by its magnitude and sign. -/
theorem binary32Rnd_ofRat_int {n : Int} (hn : n ≠ 0) : binary32Rnd (ExactReal.ofRat n) =
    if n < 0 then BitVec.ofNat 32 (binary32Magnitude (n.natAbs * n.natAbs) 1) ||| 0x80000000
    else BitVec.ofNat 32 (binary32Magnitude (n.natAbs * n.natAbs) 1) := by
  have hsquare : (n : Rat) * n = ((n.natAbs * n.natAbs : Nat) : Rat) := by
    rw [← Int.cast_mul, ← Int.natAbs_mul_self]
    rfl
  have hnz : n.natAbs * n.natAbs ≠ 0 := by simpa using hn
  simp only [binary32Rnd, ExactReal.ofRat, hsquare, Rat.num_natCast, Rat.den_natCast, Int.toNat_natCast, if_neg hnz,
    decide_eq_true_eq, Int.cast_lt_zero]

/-- Settles O51: zero apart, both bounds are far below 2^24. -/
theorem binary32HoldsSixteenBitIntegers : Obligations.Binary32HoldsSixteenBitIntegers := by
  intro n hlow hhigh
  by_cases hn : n = 0
  · subst hn
    simp [binary32Rnd, binary32Val, ExactReal.ofRat]
  · obtain ⟨hpos, hneg⟩ := binary32Val_magnitude (a := n.natAbs) (by simpa using hn) (by omega)
    rw [binary32Rnd_ofRat_int hn]
    split
    case isTrue h =>
      rw [hneg, ← Int.cast_natCast, ← Int.cast_neg]
      congr 1
      omega
    case isFalse h =>
      rw [hpos, ← Int.cast_natCast]
      congr 1
      omega

end Sys2Proof.Machine
end

section
/-! The block with the ideal device (R60, S1, S2): what a write leaves in the device's registers, and what a read then returns. -/

namespace Sys2Proof.Machine

/-! ### Stores whose unlisted bytes are 0 -/

/-- R60: a write of such a store is read back, and keeps every other byte. -/
theorem readOrZero_writeOrErase {m : Memory} (hwf : Memory.wf m = true) (a c : Nat) (b : Byte) :
    readOrZero (writeOrErase m a b) c = if c = a then b else readOrZero m c := by
  by_cases hb : b = 0
  · rw [writeOrErase, if_pos hb, readOrZero, Memory.read_erase a c hwf]
    split
    · exact hb.symm
    · rfl
  · rw [writeOrErase, if_neg hb, readOrZero, Memory.read_write]
    split
    · rfl
    · rfl

theorem readOrZero_writeOrErase_same {m : Memory} (hwf : Memory.wf m = true) (a : Nat) (b : Byte) :
    readOrZero (writeOrErase m a b) a = b := by
  rw [readOrZero_writeOrErase hwf, if_pos rfl]

theorem wf_writeOrErase {m : Memory} (hwf : Memory.wf m = true) (a : Nat) (b : Byte) :
    Memory.wf (writeOrErase m a b) = true := by
  unfold writeOrErase
  split
  · exact Memory.wf_erase a hwf
  · exact Memory.wf_write hwf

/-- R60: the register after 0xFF is register 0, so two registers that follow each other are never the same byte. -/
theorem deviceKey_succ_ne (dev reg : Byte) : deviceKey dev (reg + 1) ≠ deviceKey dev reg := by
  have hreg := reg.isLt
  have hsucc : (reg + 1).toNat = (reg.toNat + 1) % 256 := by simp [BitVec.toNat_add]
  simp only [deviceKey, hsucc]
  omega

/-! ### The device under one call -/

/-- The device with the address pointer of `dev` at `reg`. -/
def pointed (dev reg : Byte) (d : IdealDevice) : IdealDevice := { d with ptr := writeOrErase d.ptr dev.toNat reg }

/-- The device with this byte in register `reg` of `dev`. -/
def withReg (dev reg b : Byte) (d : IdealDevice) : IdealDevice := { d with mem := writeOrErase d.mem (deviceKey dev reg) b }

/-- What a device needs for its calls to pass by R60: nothing planned, and stores in canonical form. -/
structure DeviceReady (d : IdealDevice) : Prop where
  plan : d.plan = []
  mem : Memory.wf d.mem = true
  ptr : Memory.wf d.ptr = true

theorem deviceReady_of_deviceWf {d : IdealDevice} (hplan : d.plan = []) (hwf : deviceWf d = true) : DeviceReady d := by
  simp only [deviceWf, Bool.and_eq_true] at hwf
  obtain ⟨⟨⟨hmem, -⟩, hptr⟩, -⟩ := hwf
  exact ⟨hplan, hmem, hptr⟩

section
variable {d : IdealDevice} (h : DeviceReady d) (dev reg b : Byte)
include h

theorem DeviceReady.pointed : DeviceReady (pointed dev reg d) := ⟨h.plan, h.mem, wf_writeOrErase h.ptr _ _⟩

theorem DeviceReady.withReg : DeviceReady (withReg dev reg b d) := ⟨h.plan, wf_writeOrErase h.mem _ _, h.ptr⟩

/-- R60: a data byte goes to the pointed register, and the pointer moves on. -/
theorem deviceStore_pointed (rest : List Byte) : deviceStore dev (b :: rest) (Machine.pointed dev reg d) =
    deviceStore dev rest (Machine.pointed dev (reg + 1) (Machine.withReg dev reg b (Machine.pointed dev reg d))) := by
  have hptr : readOrZero (Machine.pointed dev reg d).ptr dev.toNat = reg := readOrZero_writeOrErase_same h.ptr _ _
  simp only [deviceStore, hptr]
  rfl

/-- R60: a plain register is read, and the pointer moves on. -/
theorem deviceLoad_pointed (hplain : queueAt d.queues (deviceKey dev reg) = none) (n : Nat) :
    deviceLoad dev (n + 1) (Machine.pointed dev reg d) =
      (readOrZero d.mem (deviceKey dev reg) :: (deviceLoad dev n (Machine.pointed dev (reg + 1) (Machine.pointed dev reg d))).1,
        (deviceLoad dev n (Machine.pointed dev (reg + 1) (Machine.pointed dev reg d))).2) := by
  have hptr : readOrZero (Machine.pointed dev reg d).ptr dev.toNat = reg := readOrZero_writeOrErase_same h.ptr _ _
  have hqueue : queueAt (Machine.pointed dev reg d).queues (deviceKey dev reg) = none := hplain
  simp only [deviceLoad, hptr, hqueue]
  rfl

end

/-! ### The block's side of a call -/

/-- The state after call `c` has passed in 0 ms and left this device. -/
def passed (c : BusCall) (d : IdealDevice) (s : State) : State :=
  { s with bus := .ideal d, calls := c :: s.calls, fresh := s.fresh + 1 }

section
variable {s : State} {d : IdealDevice}

/-- No deadline is reached in 0 ms: the one of TMOeff = 0 never is (R45). -/
theorem deadlineReached_zero (s : State) : deadlineReached s 0 = false := by
  rw [deadlineReached_eq_false, Nat.pos_iff_ne_zero, ← BitVec.toNat_inj]
  exact em _

/-- A call that the device answers passes (R46, R60). -/
theorem call_ideal {c : BusCall} {reply : Reply} {bytes : List Byte} {d' : IdealDevice} (hbus : s.bus = .ideal d)
    (hplan : d.plan = []) (helapsed : s.elapsed = 0) (hanswer : deviceAnswer c d = (reply, d'))
    (hjudge : judge c reply = .ok bytes) : call c s = .go bytes (passed c d' s) := by
  have hissue : issue c s = (.answered 0 reply, passed c d' s) := by
    simp [issue, busAnswer, hbus, idealAnswer, hplan, fixturePass, hanswer, helapsed, deadlineReached_zero, passed]
  have hdeadline : deadlineReached (passed c d' s) (passed c d' s).elapsed = false := by
    rw [show (passed c d' s).elapsed = 0 from helapsed]
    exact deadlineReached_zero _
  simp only [call, hissue, settleCall, hdeadline, hjudge, Bool.false_eq_true, if_false, Nat.add_zero]

/-- The read half of a command on the ideal device (R48). -/
theorem memRead_ideal {dev reg : Byte} {n : Nat} {bytes : List Byte} {d' : IdealDevice} (hbus : s.bus = .ideal d)
    (hplan : d.plan = []) (helapsed : s.elapsed = 0) (hload : deviceLoad dev n (pointed dev reg d) = (bytes, d'))
    (hlen : bytes.length = n) :
    memRead dev reg n s = .go bytes (passed (.read dev n) d' (passed (.write dev [reg]) (pointed dev reg d) s)) := by
  rw [memRead, call_ideal (bytes := []) (d' := pointed dev reg d) hbus hplan helapsed rfl rfl]
  refine call_ideal (reply := .ack bytes) rfl hplan helapsed ?_ ?_
  · simp only [deviceAnswer, hload]
  · simp only [judge, hlen, if_true]

/-- One write call on the ideal device (R49). -/
theorem writeBytes_ideal {dev reg : Byte} {bytes : List Byte} (hbus : s.bus = .ideal d) (hplan : d.plan = [])
    (helapsed : s.elapsed = 0) : writeBytes dev reg bytes s =
      complete [] (passed (.write dev (reg :: bytes)) (deviceStore dev bytes (pointed dev reg d)) s) := by
  rw [writeBytes, memWrite, call_ideal (bytes := []) hbus hplan helapsed rfl rfl]
  rfl

/-! ### Registers read and written -/

variable {dev reg : Byte}

/-- The device after one register was read. -/
def afterLoad (dev reg : Byte) (d : IdealDevice) : IdealDevice := pointed dev (reg + 1) (pointed dev reg d)

theorem memRead_ideal_byte (hbus : s.bus = .ideal d) (h : DeviceReady d) (helapsed : s.elapsed = 0)
    (hplain : queueAt d.queues (deviceKey dev reg) = none) :
    memRead dev reg 1 s = .go [readOrZero d.mem (deviceKey dev reg)]
      (passed (.read dev 1) (afterLoad dev reg d) (passed (.write dev [reg]) (pointed dev reg d) s)) :=
  memRead_ideal hbus h.plan helapsed (deviceLoad_pointed h dev reg hplain 0) rfl

theorem memRead_ideal_word (hbus : s.bus = .ideal d) (h : DeviceReady d) (helapsed : s.elapsed = 0)
    (hplain : queueAt d.queues (deviceKey dev reg) = none) (hplain' : queueAt d.queues (deviceKey dev (reg + 1)) = none) :
    memRead dev reg 2 s = .go [readOrZero d.mem (deviceKey dev reg), readOrZero d.mem (deviceKey dev (reg + 1))]
      (passed (.read dev 2) (afterLoad dev (reg + 1) (pointed dev reg d)) (passed (.write dev [reg]) (pointed dev reg d) s)) := by
  refine memRead_ideal hbus h.plan helapsed ?_ rfl
  rw [deviceLoad_pointed h dev reg hplain 1, deviceLoad_pointed (h.pointed dev reg) dev (reg + 1) hplain' 0]
  rfl

/-- The device after one register was written. -/
def afterStore (dev reg b : Byte) (d : IdealDevice) : IdealDevice :=
  pointed dev (reg + 1) (withReg dev reg b (pointed dev reg d))

theorem DeviceReady.afterStore (h : DeviceReady d) (dev reg b : Byte) : DeviceReady (afterStore dev reg b d) :=
  ((h.pointed dev reg).withReg dev reg b).pointed dev (reg + 1)

theorem deviceStore_pointed_one (h : DeviceReady d) (dev reg b : Byte) :
    deviceStore dev [b] (pointed dev reg d) = afterStore dev reg b d := deviceStore_pointed h dev reg b []

/-- Exactly the register changes. -/
theorem readOrZero_afterStore (h : DeviceReady d) (dev reg b : Byte) (a : Nat) :
    readOrZero (afterStore dev reg b d).mem a = if a = deviceKey dev reg then b else readOrZero d.mem a :=
  readOrZero_writeOrErase h.mem _ _ _

/-! ### The scalar commands on the ideal device -/

/-- R101, R103, R105: the word computed from the register. -/
theorem readByteWith_ideal (f : Byte → Word) (hbus : s.bus = .ideal d) (h : DeviceReady d) (helapsed : s.elapsed = 0)
    (hplain : queueAt d.queues (deviceKey dev reg) = none) :
    readByteWith dev reg f s = complete [f (readOrZero d.mem (deviceKey dev reg))]
      (passed (.read dev 1) (afterLoad dev reg d) (passed (.write dev [reg]) (pointed dev reg d) s)) := by
  rw [readByteWith, memRead_ideal_byte hbus h helapsed hplain]
  rfl

/-- R102, R104, R106: the word computed from the register word. -/
theorem readWordWith_ideal (f : HalfWord → Word) (hbus : s.bus = .ideal d) (h : DeviceReady d) (helapsed : s.elapsed = 0)
    (hplain : queueAt d.queues (deviceKey dev reg) = none) (hplain' : queueAt d.queues (deviceKey dev (reg + 1)) = none) :
    readWordWith dev reg f s =
      complete [f (readOrZero d.mem (deviceKey dev reg) ++ readOrZero d.mem (deviceKey dev (reg + 1)))]
        (passed (.read dev 2) (afterLoad dev (reg + 1) (pointed dev reg d)) (passed (.write dev [reg]) (pointed dev reg d) s)) := by
  rw [readWordWith, memRead_ideal_word hbus h helapsed hplain hplain']
  rfl

/-- R120, R122: the register is read, and written back as `f` makes it (R57). -/
theorem modifyByte_ideal (f : Byte → Byte) (hbus : s.bus = .ideal d) (h : DeviceReady d) (helapsed : s.elapsed = 0)
    (hplain : queueAt d.queues (deviceKey dev reg) = none) :
    modifyByte dev reg f s =
      complete [] (passed (.write dev [reg, f (readOrZero d.mem (deviceKey dev reg))])
        (afterStore dev reg (f (readOrZero d.mem (deviceKey dev reg))) (afterLoad dev reg d))
        (withTmp ((readOrZero d.mem (deviceKey dev reg)).setWidth 16)
          (passed (.read dev 1) (afterLoad dev reg d) (passed (.write dev [reg]) (pointed dev reg d) s)))) := by
  have hload : DeviceReady (afterLoad dev reg d) := (h.pointed dev reg).pointed dev (reg + 1)
  rw [modifyByte, memRead_ideal_byte hbus h helapsed hplain, ← deviceStore_pointed_one hload]
  refine Eq.trans ?_ (writeBytes_ideal rfl hload.plan helapsed)
  simp only [Flow.finish_go, byteAt, List.getD_cons_zero, loByte_setWidth]
  rfl

/-- R125: the two bytes of the word go to two registers that follow each other. -/
theorem writeBytes_ideal_pair (hi lo : Byte) (hbus : s.bus = .ideal d) (h : DeviceReady d) (helapsed : s.elapsed = 0) :
    writeBytes dev reg [hi, lo] s =
      complete [] (passed (.write dev [reg, hi, lo])
        (pointed dev (reg + 1 + 1) (withReg dev (reg + 1) lo (afterStore dev reg hi d))) s) := by
  rw [writeBytes_ideal hbus h.plan helapsed, deviceStore_pointed h,
    deviceStore_pointed ((h.pointed dev reg).withReg dev reg hi)]
  rfl

end

/-! ### The round trips -/

/-- A run that was inserted, read back as a result word. -/
theorem extractField_insertField_setWidth (b : Byte) (data : HalfWord) {start len : Nat} (hstart : start < 8) (h1 : 1 ≤ len)
    (hlen : len ≤ start + 1) :
    zextByte (extractField (insertField b start len (loByte data)) start len) = BitVec.ofNat 32 (data.toNat % 2 ^ len) := by
  obtain ⟨hback, -⟩ := fieldLaws 8 b (loByte data) start len hstart h1 hlen
  have hdvd : 2 ^ len ∣ 2 ^ 8 := Nat.pow_dvd_pow 2 (by omega)
  rw [zextByte, ← BitVec.ofNat_toNat, hback, loByte, BitVec.extractLsb'_toNat, Nat.shiftRight_zero, Nat.mod_mod_of_dvd _ hdvd]

/-- Settles O59: `modifyByte_ideal` leaves the register with the run inserted, and `readByteWith_ideal` reads it there. -/
theorem bitRunRoundTripOnTheIdealDevice : Obligations.BitRunRoundTripOnTheIdealDevice := by
  intro s d dev reg start len data tmo tmo2 hbus hplan hwf hplain hstart h1 hlen
  have h := deviceReady_of_deviceWf hplan hwf
  have hload : DeviceReady (afterLoad dev reg d) := (h.pointed dev reg).pointed dev (reg + 1)
  have htest := descriptorOk_of_le (width := 7) hstart h1 hlen
  refine ⟨_, _, _, exec_of_eq (exec_of_test htest rfl) (modifyByte_ideal _ hbus h rfl hplain), rfl,
    complete_answeredOk (words := []) (by simp) _, fun k hk => ?changed, fun a ha => ?kept,
    exec_of_eq (exec_of_test htest rfl) (readByteWith_ideal _ rfl (hload.afterStore dev reg _) rfl hplain), ?read⟩
  case changed =>
    rw [readOrZero_afterStore hload, if_pos rfl, insertField_getLsbD _ _ hlen hk]
    split
    · rw [loByte_getLsbD data (by omega)]
    · rfl
  case kept =>
    rw [readOrZero_afterStore hload, if_neg ha]
    rfl
  case read =>
    rw [readOrZero_afterStore hload, if_pos rfl, extractField_insertField_setWidth _ _ (by omega) h1 hlen]
    exact complete_answeredOk (by simp) _

/-- Settles O60: the high byte stands in the register, the low byte in the one after it, and neither write reaches the other. -/
theorem wordRoundTripOnTheIdealDevice : Obligations.WordRoundTripOnTheIdealDevice := by
  intro s d dev reg data tmo tmo2 hbus hplan hwf hplain hplain'
  have h := deviceReady_of_deviceWf hplan hwf
  have hhi := h.afterStore dev reg (hiByte data)
  have hlo := (hhi.withReg dev (reg + 1) (loByte data)).pointed dev (reg + 1 + 1)
  refine ⟨_, _, exec_of_eq rfl (writeBytes_ideal_pair _ _ hbus h rfl), complete_answeredOk (words := []) (by simp) _,
    exec_of_eq rfl (readWordWith_ideal _ rfl hlo rfl hplain hplain'), ?_⟩
  have hread (a : Nat) : readOrZero (pointed dev (reg + 1 + 1)
      (withReg dev (reg + 1) (loByte data) (afterStore dev reg (hiByte data) d))).mem a =
      if a = deviceKey dev (reg + 1) then loByte data else readOrZero (afterStore dev reg (hiByte data) d).mem a :=
    readOrZero_writeOrErase hhi.mem _ _ _
  have hword : hiByte data ++ loByte data = data := hiByte_append_loByte data
  rw [hread, hread, if_neg (deviceKey_succ_ne dev reg).symm, if_pos rfl, readOrZero_afterStore h, if_pos rfl, hword, zextHalf,
    ← BitVec.ofNat_toNat]
  exact complete_answeredOk (by simp) _

end Sys2Proof.Machine
end
